-- ==== Sys2Proof/Word.lean ====
section
/-! DEFINITION. The word and byte types, the fixed sets of names the spec uses (rings, pipes, ports, memory spaces)
and the type of a bounded size parameter. Spec: 00_scope.md R5 to R8, R14; 20_memory.md R60; 30_encoding.md R90. -/

namespace Sys2Proof

/-- A byte is 8 bits (R14). -/
abbrev Byte := BitVec 8

/-- A word is 32 bits, bit 0 the least significant (R14, R90). -/
abbrev Word := BitVec 32

/-- The two rings (R1, R19); the numbers they have in the `unit` field are R91's. -/
inductive Ring where
  | rx
  | tx
deriving DecidableEq, Repr

/-- The two bulk pipes, `IN` and `OUT` (R17). -/
inductive Pipe where
  | bulkIn
  | bulkOut
deriving DecidableEq, Repr

/-- The two ports that carry words into the block (R90). -/
inductive Side where
  | command
  | event
deriving DecidableEq, Repr

/-- The four memory spaces `RXMEM`, `TXMEM`, `RXSTG`, `TXSTG` (R60). -/
inductive Space where
  | rxMem
  | txMem
  | rxStg
  | txStg
deriving DecidableEq, Repr

/-- A size in bytes, `1 <= val <= 65535` (R5 to R8). The bounds stand in the type: a size outside them cannot be
written down, so no statement assumes them. -/
structure Size where
  val : Nat
  pos : 1 ≤ val
  le : val ≤ 65535
deriving DecidableEq, Repr

end Sys2Proof
end

