-- ==== Sys2Proof/Syntax.lean ====
section
/-! DEFINITION. The instructions: the fifteen operations of the opcode map, 30_encoding.md R99 (spec/opcode_table.json),
one constructor per row. The four completion steps and `RESET` have no encoding (R103) and are turns of
Sys2Proof/Machine/State.lean. -/

namespace Sys2Proof

/-- One constructor per row of the opcode map (R99). Operands are the unsigned numbers of R97; the payload of `RB_PUT` is
no part of its word (R98): it stands in the state, with the presented command. -/
inductive Instr where
  /-- `RB_PUT TX, len` (R121). -/
  | rbPut (len : Nat)
  /-- `RB_GET RX, len` (R124). -/
  | rbGet (len : Nat)
  /-- `RB_LEN r` (R127). -/
  | rbLen (r : Ring)
  /-- `RB_RESET r` (R128). -/
  | rbReset (r : Ring)
  /-- `RXP_START` (R151). -/
  | rxpStart
  /-- `RXP_STOP` (R152). -/
  | rxpStop
  /-- `TXP_KICK` (R181). -/
  | txpKick
  /-- `TXP_STOP` (R182). -/
  | txpStop
  /-- `EV_TICK count` (R154). -/
  | evTick (count : Nat)
  /-- `EV_IN_DONE count` (R155). -/
  | evInDone (count : Nat)
  /-- `EV_OUT_DONE count` (R183). -/
  | evOutDone (count : Nat)
  /-- `EV_IN_ERROR` (R156). -/
  | evInError
  /-- `EV_OUT_ERROR` (R184). -/
  | evOutError
  /-- `EV_IN_DATA off, byte` (R153). -/
  | evInData (byte : Byte) (off : Nat)
  /-- `REG_READ idx` (R210). -/
  | regRead (idx : Nat)
deriving DecidableEq, Repr

end Sys2Proof
end

