-- ==== Sys2Proof/WellFormed.lean ====
section
/-! DEFINITION. Which instructions the encoding can express (30_encoding.md R97: operands are unsigned fields of a fixed
width) and which payload a command may be presented with (R98). -/

namespace Sys2Proof

/-- Each operand fits its field: `len`, `count` and `off` are 16 bits, `idx` is 8 bits (R92, R94 to R97). -/
abbrev Instr.wf : Instr → Bool
  | .rbPut len => decide (len < 65536)
  | .rbGet len => decide (len < 65536)
  | .rbLen _ => true
  | .rbReset _ => true
  | .rxpStart => true
  | .rxpStop => true
  | .txpKick => true
  | .txpStop => true
  | .evTick count => decide (count < 65536)
  | .evInDone count => decide (count < 65536)
  | .evOutDone count => decide (count < 65536)
  | .evInError => true
  | .evOutError => true
  | .evInData _ off => decide (off < 65536)
  | .regRead idx => decide (idx < 256)

/-- "`RB_PUT` is presented together with a byte string `data` with `|data| = len` exactly" (R98). The other operations have
no payload and read none (log 9). -/
abbrev payloadFits (i : Instr) (data : List Byte) : Bool :=
  match i with
  | .rbPut len => decide (data.length = len)
  | .rbGet _ => true
  | .rbLen _ => true
  | .rbReset _ => true
  | .rxpStart => true
  | .rxpStop => true
  | .txpKick => true
  | .txpStop => true
  | .evTick _ => true
  | .evInDone _ => true
  | .evOutDone _ => true
  | .evInError => true
  | .evOutError => true
  | .evInData _ _ => true
  | .regRead _ => true

end Sys2Proof
end

