-- ==== Sys2Proof/Decode.lean ====
section
/-! DEFINITION. The decoder (total on every 32-bit word, refusing by name), the encoder, the ports, the opcode map as the
spec prints it, and the textual form. Spec: 30_encoding.md R90 to R103; illegal words R100. -/

namespace Sys2Proof

/-! ### The fields of a word (R91) -/

/-- `cls`, bits [31:28]. -/
def clsField (w : Word) : BitVec 4 := w.extractLsb' 28 4
/-- `fn`, bits [27:24]. -/
def fnField (w : Word) : BitVec 4 := w.extractLsb' 24 4
/-- `unit`, bits [23:20]. -/
def unitField (w : Word) : BitVec 4 := w.extractLsb' 20 4
/-- `rsv`, bits [19:16]. -/
def rsvField (w : Word) : BitVec 4 := w.extractLsb' 16 4
/-- `arg`, bits [15:0], read as an unsigned number and used as it stands (R97). -/
def argField (w : Word) : Nat := (w.extractLsb' 0 16).toNat
/-- `byte` of format D, bits [23:16] (R95). -/
def byteField (w : Word) : Byte := w.extractLsb' 16 8

/-- Why a word is illegal, in the words of R100. -/
inductive Illegal where
  /-- "`cls` = 0 or 5 to 15". -/
  | cls
  /-- "`fn` outside the values listed for the class". -/
  | fn
  /-- "`unit` greater than 1", or a `unit` the operation does not have. -/
  | unit
  /-- "`rsv` not 0 in formats R, P, E, S". -/
  | rsv
  /-- "`arg` not 0" where it must be, or "`REG_READ` with `arg[15:8]` not 0". -/
  | arg
  /-- "a legal word presented on the wrong port". -/
  | port
deriving DecidableEq, Repr

/-- `unit` as a ring: 0 RX, 1 TX (R92). -/
def ringOfUnit (u : BitVec 4) : Option Ring :=
  if u = 0x0#4 then some .rx else if u = 0x1#4 then some .tx else none

/-- `i` if `arg` is 0, otherwise the word is illegal (R100). -/
def withoutArg (w : Word) (i : Instr) : Except Illegal Instr :=
  if argField w = 0 then .ok i else .error .arg

/-- Format R (R92). `RB_PUT` exists only for TX and `RB_GET` only for RX. -/
def decodeRing (w : Word) : Except Illegal Instr :=
  if rsvField w ≠ 0x0#4 then .error .rsv
  else if fnField w = 0x0#4 then
    if unitField w = 0x1#4 then .ok (.rbPut (argField w)) else .error .unit
  else if fnField w = 0x1#4 then
    if unitField w = 0x0#4 then .ok (.rbGet (argField w)) else .error .unit
  else if fnField w = 0x2#4 then
    match ringOfUnit (unitField w) with
    | some r => withoutArg w (.rbLen r)
    | none => .error .unit
  else if fnField w = 0x3#4 then
    match ringOfUnit (unitField w) with
    | some r => withoutArg w (.rbReset r)
    | none => .error .unit
  else .error .fn

/-- Format P (R93). -/
def decodePump (w : Word) : Except Illegal Instr :=
  if rsvField w ≠ 0x0#4 then .error .rsv
  else if fnField w = 0x0#4 then
    match ringOfUnit (unitField w) with
    | some .rx => withoutArg w .rxpStart
    | some .tx => withoutArg w .txpKick
    | none => .error .unit
  else if fnField w = 0x1#4 then
    match ringOfUnit (unitField w) with
    | some .rx => withoutArg w .rxpStop
    | some .tx => withoutArg w .txpStop
    | none => .error .unit
  else .error .fn

/-- Formats E and D (R94, R95). In format D bits [23:16] are the data byte, so it is looked at before `unit` and `rsv`. -/
def decodeEvent (w : Word) : Except Illegal Instr :=
  if fnField w = 0x3#4 then .ok (.evInData (byteField w) (argField w))
  else if rsvField w ≠ 0x0#4 then .error .rsv
  else if fnField w = 0x0#4 then
    if unitField w = 0x0#4 then .ok (.evTick (argField w)) else .error .unit
  else if fnField w = 0x1#4 then
    match ringOfUnit (unitField w) with
    | some .rx => .ok (.evInDone (argField w))
    | some .tx => .ok (.evOutDone (argField w))
    | none => .error .unit
  else if fnField w = 0x2#4 then
    match ringOfUnit (unitField w) with
    | some .rx => withoutArg w .evInError
    | some .tx => withoutArg w .evOutError
    | none => .error .unit
  else .error .fn

/-- Format S (R96): `arg[15:8]` is 0 and `arg[7:0]` is `idx`. An `idx` above `0x10` is a legal word, illegal by value
(R211): `execRegRead` answers it. -/
def decodeSystem (w : Word) : Except Illegal Instr :=
  if rsvField w ≠ 0x0#4 then .error .rsv
  else if fnField w ≠ 0x0#4 then .error .fn
  else if unitField w ≠ 0x0#4 then .error .unit
  else if argField w < 256 then .ok (.regRead (argField w))
  else .error .arg

/-- The decoder: every word is one of the fifteen operations or illegal (R99 to R101). -/
def decode (w : Word) : Except Illegal Instr :=
  if clsField w = 0x1#4 then decodeRing w
  else if clsField w = 0x2#4 then decodePump w
  else if clsField w = 0x3#4 then decodeEvent w
  else if clsField w = 0x4#4 then decodeSystem w
  else .error .cls

/-- The port an operation is presented on: class 3 on the event port, classes 1, 2 and 4 on the command port (R90). -/
def Instr.side : Instr → Side
  | .rbPut _ => .command
  | .rbGet _ => .command
  | .rbLen _ => .command
  | .rbReset _ => .command
  | .rxpStart => .command
  | .rxpStop => .command
  | .txpKick => .command
  | .txpStop => .command
  | .evTick _ => .event
  | .evInDone _ => .event
  | .evOutDone _ => .event
  | .evInError => .event
  | .evOutError => .event
  | .evInData _ _ => .event
  | .regRead _ => .command

/-- Decoding of a word presented on a port: a legal word on the wrong port is illegal (R100). -/
def decodeOn (p : Side) (w : Word) : Except Illegal Instr :=
  match decode w with
  | .ok i => if i.side = p then .ok i else .error .port
  | .error e => .error e

/-- What the host asks of the decoder: the instruction read from a word numbered as spec/opcode_table.json numbers it. Words
are 32 bits, exchanged whole and never laid out in a byte memory (R62, R90), so no byte order enters. -/
def decodeTableWord (nbits w : Nat) : Option Instr :=
  if w < 2 ^ min nbits 32 then
    match decode (BitVec.ofNat 32 w) with
    | .ok i => some i
    | .error _ => none
  else none

/-! ### The encoder -/

/-- A word from its fields: `{cls, fn, unit, rsv, arg}` (R91). -/
def wordOf (cls fn unit rsv : BitVec 4) (arg : BitVec 16) : Word :=
  (cls ++ (fn ++ (unit ++ (rsv ++ arg)))).cast (by decide)

/-- The `unit` value of a ring (R91). -/
def unitOfRing : Ring → BitVec 4
  | .rx => 0x0#4
  | .tx => 0x1#4

/-- The word of an instruction, from the formats of R92 to R96. -/
def encode : Instr → Word
  | .rbPut len => wordOf 0x1#4 0x0#4 0x1#4 0x0#4 (BitVec.ofNat 16 len)
  | .rbGet len => wordOf 0x1#4 0x1#4 0x0#4 0x0#4 (BitVec.ofNat 16 len)
  | .rbLen r => wordOf 0x1#4 0x2#4 (unitOfRing r) 0x0#4 0x0#16
  | .rbReset r => wordOf 0x1#4 0x3#4 (unitOfRing r) 0x0#4 0x0#16
  | .rxpStart => wordOf 0x2#4 0x0#4 0x0#4 0x0#4 0x0#16
  | .rxpStop => wordOf 0x2#4 0x1#4 0x0#4 0x0#4 0x0#16
  | .txpKick => wordOf 0x2#4 0x0#4 0x1#4 0x0#4 0x0#16
  | .txpStop => wordOf 0x2#4 0x1#4 0x1#4 0x0#4 0x0#16
  | .evTick count => wordOf 0x3#4 0x0#4 0x0#4 0x0#4 (BitVec.ofNat 16 count)
  | .evInDone count => wordOf 0x3#4 0x1#4 0x0#4 0x0#4 (BitVec.ofNat 16 count)
  | .evOutDone count => wordOf 0x3#4 0x1#4 0x1#4 0x0#4 (BitVec.ofNat 16 count)
  | .evInError => wordOf 0x3#4 0x2#4 0x0#4 0x0#4 0x0#16
  | .evOutError => wordOf 0x3#4 0x2#4 0x1#4 0x0#4 0x0#16
  | .evInData byte off => wordOf 0x3#4 0x3#4 (byte.extractLsb' 4 4) (byte.extractLsb' 0 4) (BitVec.ofNat 16 off)
  | .regRead idx => wordOf 0x4#4 0x0#4 0x0#4 0x0#4 (BitVec.ofNat 16 idx)

/-! ### The opcode map as R99 prints it -/

/-- The mnemonic of an operation (R99). -/
def Instr.mnemonic : Instr → String
  | .rbPut _ => "RB_PUT"
  | .rbGet _ => "RB_GET"
  | .rbLen _ => "RB_LEN"
  | .rbReset _ => "RB_RESET"
  | .rxpStart => "RXP_START"
  | .rxpStop => "RXP_STOP"
  | .txpKick => "TXP_KICK"
  | .txpStop => "TXP_STOP"
  | .evTick _ => "EV_TICK"
  | .evInDone _ => "EV_IN_DONE"
  | .evOutDone _ => "EV_OUT_DONE"
  | .evInError => "EV_IN_ERROR"
  | .evOutError => "EV_OUT_ERROR"
  | .evInData _ _ => "EV_IN_DATA"
  | .regRead _ => "REG_READ"

/-- One row of the opcode map: a word `w` selects it when `(w AND mask) = pattern` (R99). -/
structure OpRow where
  mnemonic : String
  pattern : Word
  mask : Word
deriving DecidableEq, Repr

/-- The fifteen rows of R99, in the spec's order. -/
def opcodeMap : List OpRow :=
  [ ⟨"RB_PUT", 0x10100000#32, 0xFFFF0000#32⟩,
    ⟨"RB_GET", 0x11000000#32, 0xFFFF0000#32⟩,
    ⟨"RB_LEN", 0x12000000#32, 0xFFEFFFFF#32⟩,
    ⟨"RB_RESET", 0x13000000#32, 0xFFEFFFFF#32⟩,
    ⟨"RXP_START", 0x20000000#32, 0xFFFFFFFF#32⟩,
    ⟨"RXP_STOP", 0x21000000#32, 0xFFFFFFFF#32⟩,
    ⟨"TXP_KICK", 0x20100000#32, 0xFFFFFFFF#32⟩,
    ⟨"TXP_STOP", 0x21100000#32, 0xFFFFFFFF#32⟩,
    ⟨"EV_TICK", 0x30000000#32, 0xFFFF0000#32⟩,
    ⟨"EV_IN_DONE", 0x31000000#32, 0xFFFF0000#32⟩,
    ⟨"EV_OUT_DONE", 0x31100000#32, 0xFFFF0000#32⟩,
    ⟨"EV_IN_ERROR", 0x32000000#32, 0xFFFFFFFF#32⟩,
    ⟨"EV_OUT_ERROR", 0x32100000#32, 0xFFFFFFFF#32⟩,
    ⟨"EV_IN_DATA", 0x33000000#32, 0xFF000000#32⟩,
    ⟨"REG_READ", 0x40000000#32, 0xFFFFFF00#32⟩ ]

/-- "the first row for which `(w AND mask) = match`" (R99). -/
def opcodeRow (w : Word) : Option OpRow :=
  opcodeMap.find? (fun row => decide (w &&& row.mask = row.pattern))

/-- The operands of an operation are the free fields of the word that selects it (R99's last column but one). -/
def Instr.operandsAre (w : Word) : Instr → Prop
  | .rbPut len => len = (w.extractLsb' 0 16).toNat
  | .rbGet len => len = (w.extractLsb' 0 16).toNat
  | .rbLen r => (r = .tx ↔ w.getLsbD 20 = true)
  | .rbReset r => (r = .tx ↔ w.getLsbD 20 = true)
  | .rxpStart => True
  | .rxpStop => True
  | .txpKick => True
  | .txpStop => True
  | .evTick count => count = (w.extractLsb' 0 16).toNat
  | .evInDone count => count = (w.extractLsb' 0 16).toNat
  | .evOutDone count => count = (w.extractLsb' 0 16).toNat
  | .evInError => True
  | .evOutError => True
  | .evInData byte off => byte = w.extractLsb' 16 8 ∧ off = (w.extractLsb' 0 16).toNat
  | .regRead idx => idx = (w.extractLsb' 0 8).toNat

/-! ### The textual form (R103) -/

/-- A ring by name. -/
def ringName : Ring → String
  | .rx => "RX"
  | .tx => "TX"

/-- A byte list in brackets. -/
def bytesText (data : List Byte) : String :=
  "[" ++ String.intercalate "," (data.map (fun b => toString b.toNat)) ++ "]"

/-- One operation as R103 writes it: mnemonic, then operands separated by commas. `data` is the payload of `RB_PUT`. -/
def Instr.text (data : List Byte) : Instr → String
  | .rbPut len => "RB_PUT TX, " ++ toString len ++ ", " ++ bytesText data
  | .rbGet len => "RB_GET RX, " ++ toString len
  | .rbLen r => "RB_LEN " ++ ringName r
  | .rbReset r => "RB_RESET " ++ ringName r
  | .rxpStart => "RXP_START"
  | .rxpStop => "RXP_STOP"
  | .txpKick => "TXP_KICK"
  | .txpStop => "TXP_STOP"
  | .evTick count => "EV_TICK " ++ toString count
  | .evInDone count => "EV_IN_DONE " ++ toString count
  | .evOutDone count => "EV_OUT_DONE " ++ toString count
  | .evInError => "EV_IN_ERROR"
  | .evOutError => "EV_OUT_ERROR"
  | .evInData byte off => "EV_IN_DATA " ++ toString off ++ ", " ++ toString byte.toNat
  | .regRead idx => "REG_READ " ++ toString idx

end Sys2Proof
end

