-- ==== Sys2Proof/Config.lean ====
section
/-! DEFINITION. What an implementation of the block fixes (the parameters of 00_scope.md R5 to R9) and the free values:
what the spec leaves arbitrary (10_state.md R50, 93_implementation_defined.md I1 and I2). -/

namespace Sys2Proof

/-- The implementation parameters `N_RX`, `N_TX`, `RX_STAGE`, `TX_CHUNK` and `DELAYED_CLOSE` (R5 to R9, D37). They are
fixed for a run: State carries them and no step changes them. `T_TICK` (R10) is read by no rule and has no field. -/
structure Params where
  nRx : Size
  nTx : Size
  rxStage : Size
  txChunk : Size
  delayedClose : Bool
deriving DecidableEq, Repr

/-- The parameters `Machine.State.reset` is built with. DESIGN CHOICE (log 1): the spec leaves all five open; these are
the values its own programs A, B and D use. Every statement is about every `Params`. -/
def Config.defaultParams : Params :=
  { nRx := ⟨64, by decide, by decide⟩
    nTx := ⟨64, by decide, by decide⟩
    rxStage := ⟨64, by decide, by decide⟩
    txChunk := ⟨64, by decide, by decide⟩
    delayedClose := true }

/-- FREE VALUE (log 3): the byte at a position of a memory space that nothing has written since the `epoch`-th reset.
"every byte is an arbitrary value; a model must not assume zero" (R50). -/
opaque Config.freeByte (space : Space) (epoch pos : Nat) : Byte

/-- The counts R50 leaves unspecified after `RESET`: `pp[r].n`, `cp[r].n` and `rx_c`. -/
inductive CountField where
  | ppN (r : Ring)
  | cpN (r : Ring)
  | rxC
deriving DecidableEq, Repr

/-- FREE VALUE (log 4): what a count that R50 leaves unspecified holds after the `epoch`-th reset, before it is brought
into the count's range. -/
opaque Config.freeCount (field : CountField) (epoch : Nat) : Nat

end Sys2Proof
end

