-- ==== Sys2Proof/Machine/State.lean ====
section
/-! DEFINITION. The state of the block (10_state.md R20), the inputs its surroundings hold ready for it (log 2), the output
trace (00_scope.md R16), the reasons a step can stop, and the state after reset (10_state.md R50). -/

namespace Sys2Proof.Machine

/-- A byte memory as a list of (position, byte), positions strictly rising. A position that is not listed has not been
written since the last reset (log 3). -/
abbrev Memory := List Host.Cell

/-- A port context `pp[r]` or `cp[r]`: the busy bit and the pending count (R30, R31). -/
structure PortCtx where
  busy : Bool
  n : Nat
deriving DecidableEq, Repr

/-- One ring: `mem[r]`, `wr[r]`, `rd[r]`, `pp[r]`, `cp[r]` (R24 to R26, R30, R31). -/
structure RingState where
  mem : Memory
  wr : Nat
  rd : Nat
  pp : PortCtx
  cp : PortCtx
deriving DecidableEq, Repr

/-- `rxp_state` (R32). -/
inductive RxpState where
  | idle
  | receivePosted
deriving DecidableEq, Repr

/-- `txp_state` (R38). -/
inductive TxpState where
  | idle
  | sendPosted
deriving DecidableEq, Repr

/-- The status of a result (R108). -/
inductive Status where
  | ok
  | busy
  | deferred
  | notAttached
  | illegal
deriving DecidableEq, Repr

/-- What a submission asks of the transport: `Submit(IN, len)` or `Submit(OUT, len, data)` (R17). -/
inductive Transfer where
  | receive (len : Nat)
  | send (len : Nat) (data : List Byte)
deriving DecidableEq, Repr

/-- The output symbols (R16). -/
inductive Output where
  | result (status : Status) (value : Word)
  | resultData (status : Status) (value : Word) (data : List Byte)
  | rxReady
  | txDone
  | xferError (p : Pipe)
  | txReleased
  | submit (t : Transfer)
  | abortIn
deriving DecidableEq, Repr

/-- The five error conditions (R220), each with what `raise` is told. -/
inductive ErrorCondition where
  | transferError (p : Pipe)
  | bufferOverrun (dropped : Nat)
  | busy
  | notAttached
  | illegal
deriving DecidableEq, Repr

/-- A command as the host presents it: the word and, for `RB_PUT`, the payload (R90, R98). -/
structure Command where
  word : Word
  data : List Byte
deriving DecidableEq, Repr

/-- Which agent takes the next step, with the inputs of that step: the kinds of step of R12. `ok` is the transport's answer
to the submission of that step, if it makes one (R17). -/
inductive Turn where
  /-- The host command port takes a step on the command presented to it. -/
  | command (ok : Bool)
  /-- The transport or the timer delivers an event word. -/
  | event (w : Word)
  /-- `RB_PUT.END` (R123). -/
  | putEnd
  /-- `RB_GET.END` (R126). -/
  | getEnd
  /-- `RXP.DRAIN_END` (R158). -/
  | drainEnd (ok : Bool)
  /-- `TXP.FETCH_END` (R186). -/
  | fetchEnd (ok : Bool)
  /-- `RESET` (R260). -/
  | reset
deriving DecidableEq, Repr

/-- The whole machine. The fields from `rx` to `txStopPending` are the state of R20; `cfg` holds the parameters (fixed for a
run); the fields from `presented` on are the inputs and the output trace. -/
structure State where
  /-- `N_RX`, `N_TX`, `RX_STAGE`, `TX_CHUNK`, `DELAYED_CLOSE` (R5 to R9); no step changes it. -/
  cfg : Params
  /-- The RX ring. -/
  rx : RingState
  /-- The TX ring. -/
  tx : RingState
  /-- `rxp_state` (R32). -/
  rxpState : RxpState
  /-- `rx_stage` (R33). -/
  rxStage : Memory
  /-- `rx_prev` (R34). -/
  rxPrev : Nat
  /-- `rx_done` (R35). -/
  rxDone : Bool
  /-- `rx_c` (R36); between deliveries it keeps its last value (DEDUCED, log 14). -/
  rxC : Nat
  /-- `rx_drop` (R37). -/
  rxDrop : Nat
  /-- `txp_state` (R38). -/
  txpState : TxpState
  /-- `tx_stage` (R39). -/
  txStage : Memory
  /-- `tx_count` (R40). -/
  txCount : Nat
  /-- `tx_busy` (R41). -/
  txBusy : Bool
  /-- `tx_stop_pending` (R42). -/
  txStopPending : Bool
  /-- Input: the command presented at the command port and not yet accepted (R109: a held command stays presented). -/
  presented : Option Command
  /-- Input: the commands the host will present after it, in order (R110). -/
  host : List Command
  /-- Input: who takes the next steps, in order (R12, R229); every list is a legal interleaving. -/
  turns : List Turn
  /-- Input: the transport's answer `ok` to a submission of the present step (R17). -/
  answer : Bool
  /-- The model's own counter behind the free values: how many `RESET` steps have happened (log 3, log 4). -/
  epoch : Nat
  /-- The output trace, oldest first; written, never read by the block (R16, R21). -/
  trace : List Output
deriving DecidableEq, Repr

/-- Why the machine stops with a fault. -/
inductive Fault where
  /-- Raised by `TXP.FETCH_END` alone, when a chunk is longer than the staging buffer, so that a byte would be stored at a
  position `TXSTG` does not have (R60); no state that satisfies `State.Inv` gets there. Safe: the model stops where the spec
  has no behaviour (log 10). -/
  | noSuchPosition (space : Space) (pos : Nat)
deriving DecidableEq, Repr

/-- Why the machine gives an instruction no meaning. -/
inductive Refusal where
  /-- Raised by a refused arm of `exec`: the instruction has no meaning yet. Safe. -/
  | notModelled (mnemonic : String)
  /-- Raised by `execRbPut` for a `RB_PUT` whose payload is not `len` bytes long: "a model refuses it at its boundary
  (well-formedness), giving it no meaning" (R98). Safe. -/
  | malformedPayload (len offered : Nat)
deriving DecidableEq, Repr

/-- A ring after reset: empty, no operation in progress, nothing written. -/
def RingState.reset : RingState :=
  { mem := [], wr := 0, rd := 0, pp := ⟨false, 0⟩, cp := ⟨false, 0⟩ }

/-- The state after reset for given parameters: the table of R50. The counts R50 leaves unspecified are 0 (log 4, DESIGN
CHOICE), the memories have nothing listed (log 3), the surroundings have nothing ready (log 2). -/
def State.resetWith (p : Params) : State :=
  { cfg := p
    rx := RingState.reset
    tx := RingState.reset
    rxpState := .idle
    rxStage := []
    rxPrev := 0
    rxDone := false
    rxC := 0
    rxDrop := 0
    txpState := .idle
    txStage := []
    txCount := 0
    txBusy := false
    txStopPending := false
    presented := none
    host := []
    turns := []
    answer := false
    epoch := 0
    trace := [] }

/-- The machine right after reset, with the parameters of `Config.defaultParams` (log 1). -/
def State.reset : State := State.resetWith Config.defaultParams

end Sys2Proof.Machine
end

