-- ==== Sys2Proof/Machine/Ops.lean ====
section
/-! DEFINITION. The named operations: byte memories and the four spaces, the arithmetic of the index counters, the ring
primitives `PutBegin`, `PutEnd`, `GetBegin`, `GetEnd`, the output trace, the submission handshake, and `raise`. Spec:
00_scope.md R14 to R17; 20_memory.md R60 to R64; 40_ringbuffer.md R122 to R129; 60_exceptions.md R220 to R230. -/

namespace Sys2Proof.Machine

/-! ### One byte memory -/

/-- The byte stored at a position, `none` where nothing has been written since the last reset. -/
def Memory.read : Memory → Nat → Option Byte
  | [], _ => none
  | c :: m, a => if c.1 = a then some c.2 else Memory.read m a

/-- Store one byte, keeping the positions strictly rising. -/
def Memory.write : Memory → Nat → Byte → Memory
  | [], a, v => [(a, v)]
  | c :: m, a, v =>
    if a < c.1 then (a, v) :: c :: m
    else if a = c.1 then (a, v) :: m
    else c :: Memory.write m a v

/-- Store the bytes of `src` one by one, byte `k` at position `place k`, in increasing `k` (R64). -/
def Memory.copyTo (place : Nat → Nat) : Nat → List Byte → Memory → Memory
  | _, [], m => m
  | k, b :: src, m => Memory.copyTo place (k + 1) src (m.write (place k) b)

/-- The canonical form: positions strictly rising and below `size`, the number of bytes of the space (R60). -/
abbrev Memory.wf (size : Nat) (m : Memory) : Prop :=
  m.Pairwise (fun c d => c.1 < d.1) ∧ ∀ c ∈ m, c.1 < size

/-! ### The four spaces (R60) -/

/-- The capacity `N[r]` of a ring (R20). -/
def capacityOf (p : Params) : Ring → Nat
  | .rx => p.nRx.val
  | .tx => p.nTx.val

/-- How many bytes a space has (R60). -/
def sizeOfSpace (p : Params) : Space → Nat
  | .rxMem => p.nRx.val
  | .txMem => p.nTx.val
  | .rxStg => p.rxStage.val
  | .txStg => p.txChunk.val

/-- The space a ring's storage is (R60). -/
def spaceOf : Ring → Space
  | .rx => .rxMem
  | .tx => .txMem

/-- The state of a ring. -/
def State.ring (s : State) : Ring → RingState
  | .rx => s.rx
  | .tx => s.tx

/-- Replace the state of a ring. -/
def State.setRing (s : State) (r : Ring) (q : RingState) : State :=
  match r with
  | .rx => { s with rx := q }
  | .tx => { s with tx := q }

/-- `N[r]` of this machine. -/
def State.cap (s : State) (r : Ring) : Nat := capacityOf s.cfg r

/-- The contents of a space. -/
def State.space (s : State) : Space → Memory
  | .rxMem => s.rx.mem
  | .txMem => s.tx.mem
  | .rxStg => s.rxStage
  | .txStg => s.txStage

/-- `MemRead(space, addr, 1)` (R15): the byte at a position; where nothing has been written since the last reset, the free
byte of that position (R50, log 3). -/
def State.memRead (s : State) (sp : Space) (addr : Nat) : Byte :=
  match Memory.read (s.space sp) addr with
  | some b => b
  | none => Config.freeByte sp s.epoch addr

/-! ### Index counters (R63, R129) -/

/-- `(a - b) mod m`, "computed in the integers first and then reduced" (R14). -/
def modSub (a b m : Nat) : Nat := (((a : Int) - (b : Int)) % (m : Int)).toNat

/-- `fill(r)` (R27): the number of bytes buffered in a ring of capacity `N`. -/
def RingState.fill (N : Nat) (q : RingState) : Nat := modSub q.wr q.rd (2 * N)

/-- `free(r) = N[r] - fill(r)` (R27). -/
def RingState.free (N : Nat) (q : RingState) : Nat := N - q.fill N

/-- `(idx + n) mod (2*N)` (R129 a). -/
def advance (N idx n : Nat) : Nat := (idx + n) % (2 * N)

/-- `pos(r, idx, k) = (idx + k) mod N[r]` (R63). -/
def pos (N idx k : Nat) : Nat := (idx + k) % N

/-- `sat32(v) = min(v, 0xFFFF_FFFF)` (R14). -/
def sat32 (v : Nat) : Nat := min v 0xFFFFFFFF

/-! ### The ring primitives -/

/-- `PutBegin` on one ring (R122): `n = min(len, free)`, the first `n` bytes of `src` go to the free positions from `wr` on,
and the producer port becomes busy. No counter moves. -/
def RingState.putBegin (N : Nat) (src : List Byte) (len : Nat) (q : RingState) : RingState :=
  { q with
    mem := Memory.copyTo (pos N q.wr) 0 (src.take (min len (q.free N))) q.mem
    pp := ⟨true, min len (q.free N)⟩ }

/-- `PutEnd` on one ring (R123): the write index advances by the pending count and the producer port becomes idle. DEDUCED
(log 14): the idle port keeps its count. -/
def RingState.putEnd (N : Nat) (q : RingState) : RingState :=
  { q with wr := advance N q.wr q.pp.n, pp := ⟨false, q.pp.n⟩ }

/-- `GetBegin` on one ring (R125): `n = min(len, fill)` and the consumer port becomes busy. -/
def RingState.getBegin (N len : Nat) (q : RingState) : RingState :=
  { q with cp := ⟨true, min len (q.fill N)⟩ }

/-- What `GetEnd` leaves of one ring (R126): the read index advances by the pending count and the consumer port becomes
idle, keeping its count (DEDUCED, log 14). The bytes it returns are `State.gotBytes`. -/
def RingState.getEnd (N : Nat) (q : RingState) : RingState :=
  { q with rd := advance N q.rd q.cp.n, cp := ⟨false, q.cp.n⟩ }

/-- `PutBegin(r, src, len)` (R122). -/
def State.putBegin (s : State) (r : Ring) (src : List Byte) (len : Nat) : State :=
  s.setRing r (RingState.putBegin (s.cap r) src len (s.ring r))

/-- `PutEnd(r)` (R123); the count it returns is `(s.ring r).pp.n`. -/
def State.putEnd (s : State) (r : Ring) : State :=
  s.setRing r (RingState.putEnd (s.cap r) (s.ring r))

/-- `GetBegin(r, len)` (R125). -/
def State.getBegin (s : State) (r : Ring) (len : Nat) : State :=
  s.setRing r (RingState.getBegin (s.cap r) len (s.ring r))

/-- The bytes `GetEnd(r)` returns (R126): byte `k` is the one at position `(rd[r] + k) mod N`. -/
def State.gotBytes (s : State) (r : Ring) : List Byte :=
  (List.range (s.ring r).cp.n).map (fun k => s.memRead (spaceOf r) (pos (s.cap r) (s.ring r).rd k))

/-- `GetEnd(r)` (R126); the count it returns is `(s.ring r).cp.n`, the bytes are `s.gotBytes r`. -/
def State.getEnd (s : State) (r : Ring) : State :=
  s.setRing r (RingState.getEnd (s.cap r) (s.ring r))

/-! ### Outputs, results, submissions -/

/-- `emit x`: append an output symbol to the trace (R15, R16). -/
def State.emit (s : State) (x : Output) : State := { s with trace := s.trace ++ [x] }

/-- `return (status, value)` (R15): the result of a command. -/
def State.result (s : State) (st : Status) (value : Word) : State := s.emit (.result st value)

/-- The 4-bit code of a status (R108). -/
def Status.code : Status → BitVec 4
  | .ok => 0x0#4
  | .busy => 0x1#4
  | .deferred => 0x2#4
  | .notAttached => 0x3#4
  | .illegal => 0xF#4

/-- `Submit(pipe, len, data)` (R17): the `submit` symbol is emitted; the answer `ok` is `s.answer`, an input of the step. -/
def State.submit (s : State) (t : Transfer) : State := s.emit (.submit t)

/-- The command presented is accepted and leaves the port (R109, R110). -/
def State.accept (s : State) : State := { s with presented := none }

/-- A command step: `body` runs on the accepted command if its acceptance condition holds; otherwise the command is held: "no
state changes, nothing is emitted, and the command stays presented" (R15 item 9). -/
def onCommand (accepted : Bool) (body : State → State) (s : State) : Host.Outcome State Fault Refusal :=
  .next (if accepted then body s.accept else s)

/-! ### Pump bookkeeping -/

/-- The idle detector cleared: `rx_prev` and `rx_done` 0 (R34, R35). -/
def State.clearDetector (s : State) : State := { s with rxPrev := 0, rxDone := false }

/-- The RxPump stopped: `Idle`, detector cleared (R152, R156). -/
def State.rxpToIdle (s : State) : State := { s.clearDetector with rxpState := .idle }

/-- The TxPump out of flight: `Idle`, `tx_busy` 0, `tx_count` 0 (R183, R184, R186). -/
def State.txpToIdle (s : State) : State := { s with txpState := .idle, txBusy := false, txCount := 0 }

/-! ### Errors: the block's exceptions -/

/-- `raise E(info)` (R15 item 4): all that 60_exceptions.md lists for each error condition (R221 to R225, R230). Control goes
nowhere and nothing is saved: "the block has no program counter and no handler" (R230). -/
def State.raise (s : State) : ErrorCondition → State
  | .transferError .bulkIn => s.rxpToIdle.emit (.xferError .bulkIn)
  | .transferError .bulkOut => s.txpToIdle.emit (.xferError .bulkOut)
  | .bufferOverrun dropped => { s with rxDrop := sat32 (s.rxDrop + dropped) }
  | .busy => s.result .busy 0
  | .notAttached => s.result .notAttached 0
  | .illegal => s.result .illegal 0

/-- An illegal word on the command port is consumed at once, in every state, changes no state and returns `(ILLEGAL, 0)`
(R100, R211). -/
def State.illegalCommand (s : State) : State := s.accept.raise .illegal

end Sys2Proof.Machine
end

