-- ==== Sys2Proof/Machine/Flags.lean ====
section
/-! DEFINITION. The one-bit state (10_state.md R44), the status words built from it (R43), and what the port busy bits gate:
the acceptance conditions (30_encoding.md R109) and the two conditions under which a pump acts on an event
(41_rxpump.md R159, 42_txpump.md R187). -/

namespace Sys2Proof.Machine

/-- The numeric code of `rxp_state`: `Idle` 0, `ReceivePosted` 1 (R32). -/
def RxpState.bit : RxpState → Bool
  | .idle => false
  | .receivePosted => true

/-- The numeric code of `txp_state`: `Idle` 0, `SendPosted` 1 (R38). -/
def TxpState.bit : TxpState → Bool
  | .idle => false
  | .sendPosted => true

/-- Bits of a status word, bit 0 first; the bits above are 0 ("fields not listed read 0", R43). -/
def wordOfBits (bits : List Bool) : Word :=
  bits.foldr (fun b w => (w <<< 1) ||| (BitVec.ofBool b).setWidth 32) 0

/-- `PORT_STATUS` (R43). -/
def State.portStatus (s : State) : Word :=
  wordOfBits [s.rx.pp.busy, s.rx.cp.busy, s.tx.pp.busy, s.tx.cp.busy]

/-- `RXP_STATUS` (R43). -/
def State.rxpStatus (s : State) : Word := wordOfBits [s.rxpState.bit, s.rxDone]

/-- `TXP_STATUS` (R43). -/
def State.txpStatus (s : State) : Word := wordOfBits [s.txpState.bit, s.txBusy, s.txStopPending]

/-- The acceptance conditions, R109's table; "Events and illegal words are accepted in every state". -/
def State.accepts (s : State) : Instr → Bool
  | .rbPut _ => !s.tx.pp.busy
  | .rbGet _ => !s.rx.cp.busy
  | .rbLen _ => true
  | .rbReset r => !(s.ring r).pp.busy && !(s.ring r).cp.busy
  | .rxpStart => !s.rx.pp.busy
  | .rxpStop => !s.rx.pp.busy
  | .txpKick => !s.tx.cp.busy
  | .txpStop => !s.tx.cp.busy
  | .evTick _ => true
  | .evInDone _ => true
  | .evOutDone _ => true
  | .evInError => true
  | .evOutError => true
  | .evInData _ _ => true
  | .regRead _ => true

/-- The RxPump acts on an event: `ReceivePosted` and not draining; otherwise the event is ignored (R159). -/
def State.rxpListens (s : State) : Bool := s.rxpState.bit && !s.rx.pp.busy

/-- The TxPump acts on an event: `SendPosted` and not fetching; otherwise the event is ignored (R187). -/
def State.txpListens (s : State) : Bool := s.txpState.bit && !s.tx.cp.busy

end Sys2Proof.Machine
end

