-- ==== Sys2Proof/Machine/Operands.lean ====
section
/-! DEFINITION. The operand forms: the payload of `RB_PUT` (30_encoding.md R98), the staged bytes a delivery reads
(41_rxpump.md R157), the bytes a chunk carries (42_txpump.md R186), and `x[idx]`, the status registers (10_state.md R43). -/

namespace Sys2Proof.Machine

/-- The payload presented with the command at the port (R98). -/
def State.payload (s : State) : List Byte :=
  match s.presented with
  | some c => c.data
  | none => []

/-- `rx_stage[0 .. c)`. -/
def State.stagedBytes (s : State) (c : Nat) : List Byte :=
  (List.range c).map (fun k => s.memRead .rxStg k)

/-- `tx_stage[0 .. m)`. -/
def State.chunkBytes (s : State) (m : Nat) : List Byte :=
  (List.range m).map (fun k => s.memRead .txStg k)

/-- A number of at most `width` bits as a 32-bit value (`zext_32`, R14; the field widths of R43). -/
def zext (width v : Nat) : Word := (BitVec.ofNat width v).setWidth 32

/-- `x[idx]` (R15 item 2, R43): the seventeen status registers; numbers above `0x10` name none. -/
def State.register (s : State) (idx : Nat) : Option Word :=
  match idx with
  | 0x00 => some (zext 17 s.rx.wr)
  | 0x01 => some (zext 17 s.rx.rd)
  | 0x02 => some (zext 16 (s.rx.fill (s.cap .rx)))
  | 0x03 => some (zext 16 s.cfg.nRx.val)
  | 0x04 => some (zext 17 s.tx.wr)
  | 0x05 => some (zext 17 s.tx.rd)
  | 0x06 => some (zext 16 (s.tx.fill (s.cap .tx)))
  | 0x07 => some (zext 16 s.cfg.nTx.val)
  | 0x08 => some s.portStatus
  | 0x09 => some s.rxpStatus
  | 0x0A => some (zext 16 s.rxPrev)
  | 0x0B => some (zext 32 s.rxDrop)
  | 0x0C => some s.txpStatus
  | 0x0D => some (zext 16 s.txCount)
  | 0x0E => some (zext 16 s.cfg.rxStage.val)
  | 0x0F => some (zext 16 s.cfg.txChunk.val)
  | 0x10 => some (wordOfBits [s.cfg.delayedClose])
  | _ => none

/-- A count as the 32-bit value of a result (R97, R108). -/
def countWord (n : Nat) : Word := BitVec.ofNat 32 n

end Sys2Proof.Machine
end

