-- ==== Sys2Proof/Machine/RingOps.lean ====
section
/-! DEFINITION. The ring operations `RB_PUT`, `RB_GET`, `RB_LEN`, `RB_RESET` and the completion steps `RB_PUT.END`,
`RB_GET.END`. Spec: 40_ringbuffer.md R120 to R128. -/

namespace Sys2Proof.Machine

/-- `RB_PUT TX, len, data` (R121): the accepting step performs `PutBegin(TX, data, len)`; the result comes with
`RB_PUT.END`. A payload that is not `len` bytes long is refused at the boundary (R98). -/
def execRbPut (len : Nat) (s : State) : Host.Outcome State Fault Refusal :=
  if payloadFits (.rbPut len) s.payload then
    onCommand (s.accepts (.rbPut len)) (fun t => t.putBegin .tx s.payload len) s
  else .refused (.malformedPayload len s.payload.length)

/-- `RB_GET RX, len` (R124): the accepting step performs `GetBegin(RX, len)`; the result comes with `RB_GET.END`. -/
def execRbGet (len : Nat) (s : State) : Host.Outcome State Fault Refusal :=
  onCommand (s.accepts (.rbGet len)) (fun t => t.getBegin .rx len) s

/-- `RB_LEN r` (R127): the fill, both counters read in this one step (R65). -/
def execRbLen (r : Ring) (s : State) : Host.Outcome State Fault Refusal :=
  onCommand (s.accepts (.rbLen r)) (fun t => t.result .ok (countWord ((t.ring r).fill (t.cap r)))) s

/-- `RB_RESET r` (R128, R51): both counters 0, nothing else. -/
def execRbReset (r : Ring) (s : State) : Host.Outcome State Fault Refusal :=
  onCommand (s.accepts (.rbReset r))
    (fun t => (t.setRing r { t.ring r with wr := 0, rd := 0 }).result .ok 0) s

/-- `RB_PUT.END` (R121, R123), enabled exactly when `pp[TX].busy = 1`; a turn at which it is not enabled passes. -/
def takePutEnd (s : State) : Host.Outcome State Fault Refusal :=
  .next (if s.tx.pp.busy then (s.putEnd .tx).result .ok (countWord s.tx.pp.n) else s)

/-- `RB_GET.END` (R124, R126), enabled exactly when `cp[RX].busy = 1`; a turn at which it is not enabled passes. -/
def takeGetEnd (s : State) : Host.Outcome State Fault Refusal :=
  .next (if s.rx.cp.busy then
      (s.getEnd .rx).emit (.resultData .ok (countWord s.rx.cp.n) (s.gotBytes .rx))
    else s)

end Sys2Proof.Machine
end

