-- ==== Sys2Proof/Machine/RxPump.lean ====
section
/-! DEFINITION. The receive pump: `RXP_START`, `RXP_STOP`, `EV_IN_DATA`, `EV_TICK`, `EV_IN_DONE`, `EV_IN_ERROR`, the delivery
begin and the completion step `RXP.DRAIN_END`. Spec: 41_rxpump.md R150 to R159. -/

namespace Sys2Proof.Machine

/-- `RxDeliverBegin(s)` (R157): `c = min(s, RX_STAGE)` bytes of `rx_stage`, read in this step, go to the RX ring by
`PutBegin`. -/
def State.rxDeliverBegin (s : State) (sample : Nat) : State :=
  let c := min sample s.cfg.rxStage.val
  State.putBegin { s with rxC := c } .rx (s.stagedBytes c) c

/-- `RXP_START` (R151). -/
def execRxpStart (s : State) : Host.Outcome State Fault Refusal :=
  onCommand (s.accepts .rxpStart) (fun t =>
    match t.rxpState with
    | .idle =>
      let u := t.clearDetector.submit (.receive t.cfg.rxStage.val)
      if u.answer then State.result { u with rxpState := .receivePosted } .ok 0
      else u.raise .notAttached
    | .receivePosted => t.result .ok 0) s

/-- `RXP_STOP` (R152). -/
def execRxpStop (s : State) : Host.Outcome State Fault Refusal :=
  onCommand (s.accepts .rxpStop) (fun t =>
    match t.rxpState with
    | .idle => t.result .ok 0
    | .receivePosted => (t.emit .abortIn).rxpToIdle.result .ok 0) s

/-- `EV_IN_DATA off, byte` (R153): accepted in every state; a position the staging buffer does not have stores nothing. -/
def execEvInData (byte : Byte) (off : Nat) (s : State) : Host.Outcome State Fault Refusal :=
  .next (if off < s.cfg.rxStage.val then { s with rxStage := s.rxStage.write off byte } else s)

/-- `EV_TICK count` (R154): the idle detector. -/
def execEvTick (count : Nat) (s : State) : Host.Outcome State Fault Refusal :=
  .next (if s.rxpListens then
      if count ≠ s.rxPrev then { s with rxPrev := count, rxDone := false }
      else if count ≠ 0 ∧ s.rxDone = false then State.rxDeliverBegin { s with rxDone := true } count
      else s
    else s)

/-- `EV_IN_DONE count` (R155). -/
def execEvInDone (count : Nat) (s : State) : Host.Outcome State Fault Refusal :=
  .next (if s.rxpListens then State.rxDeliverBegin { s with rxPrev := count, rxDone := true } count else s)

/-- `EV_IN_ERROR` (R156, R221). -/
def execEvInError (s : State) : Host.Outcome State Fault Refusal :=
  .next (if s.rxpListens then s.raise (.transferError .bulkIn) else s)

/-- `RXP.DRAIN_END` (R158), enabled when `pp[RX].busy = 1`, in the rule's order: the index counter moves, dropped bytes are
counted, `rx_ready` is emitted if anything was staged, the pump re-arms. A turn at which it is not enabled passes (log 7). DEDUCED
(log 14): `rx_c` and `pp[RX].n`, which I2 of 93_implementation_defined.md leaves open once `pp[RX].busy` is 0, keep their value. -/
def takeDrainEnd (s : State) : Host.Outcome State Fault Refusal :=
  .next (if s.rx.pp.busy then
      let t := s.putEnd .rx
      let t := if s.rx.pp.n < s.rxC then t.raise (.bufferOverrun (s.rxC - s.rx.pp.n)) else t
      let t := if 0 < s.rxC then t.emit .rxReady else t
      let t := t.submit (.receive t.cfg.rxStage.val)
      if t.answer then t else { t with rxpState := .idle }
    else s)

end Sys2Proof.Machine
end

