-- ==== Sys2Proof/Machine/System.lean ====
section
/-! DEFINITION. `REG_READ` (43_system.md R210, R211) and the `RESET` step (70_reset_and_hazards.md R260, R261). -/

namespace Sys2Proof.Machine

/-- `REG_READ idx` (R210): the register's value, or `(ILLEGAL, 0)` for a number that names none (R211). -/
def execRegRead (idx : Nat) (s : State) : Host.Outcome State Fault Refusal :=
  onCommand (s.accepts (.regRead idx)) (fun t =>
    match t.register idx with
    | some v => t.result .ok v
    | none => t.raise .illegal) s

/-- An unspecified count after `RESET`, somewhere in `0 .. bound` (R30, R31, R36, R50; log 4). -/
def unspecifiedCount (field : CountField) (epoch bound : Nat) : Nat := Config.freeCount field epoch % (bound + 1)

/-- A ring after the `RESET` step: empty and idle, its contents and pending counts arbitrary (R50). -/
def ringAfterReset (r : Ring) (epoch cap : Nat) : RingState :=
  { RingState.reset with
    pp := ⟨false, unspecifiedCount (.ppN r) epoch cap⟩
    cp := ⟨false, unspecifiedCount (.cpN r) epoch cap⟩ }

/-- `RESET` (R260): every field at the value of R50, the unspecified ones arbitrary, nothing emitted; the command held at the
port is discarded without a result (R261). What the surroundings still hold ready is theirs and stays. -/
def takeReset (s : State) : Host.Outcome State Fault Refusal :=
  let e := s.epoch + 1
  .next { State.resetWith s.cfg with
    rx := ringAfterReset .rx e (s.cap .rx)
    tx := ringAfterReset .tx e (s.cap .tx)
    rxC := unspecifiedCount .rxC e s.cfg.rxStage.val
    host := s.host
    turns := s.turns
    answer := s.answer
    epoch := e
    trace := s.trace }

end Sys2Proof.Machine
end

