-- ==== Sys2Proof/Machine/TxPump.lean ====
section
/-! DEFINITION. The transmit pump: `TXP_KICK`, `TXP_STOP`, `EV_OUT_DONE`, `EV_OUT_ERROR`, the fetch begin and the completion
step `TXP.FETCH_END`. Spec: 42_txpump.md R180 to R187. -/

namespace Sys2Proof.Machine

/-- `TxFetchBegin()` (R185): `GetBegin(TX, TX_CHUNK)`. -/
def State.txFetchBegin (s : State) : State := s.getBegin .tx s.cfg.txChunk.val

/-- `TXP_KICK` (R181). -/
def execTxpKick (s : State) : Host.Outcome State Fault Refusal :=
  onCommand (s.accepts .txpKick) (fun t =>
    match t.txpState with
    | .idle => t.txFetchBegin.result .ok 0
    | .sendPosted => t.result .ok 0) s

/-- `TXP_STOP` (R182). -/
def execTxpStop (s : State) : Host.Outcome State Fault Refusal :=
  onCommand (s.accepts .txpStop) (fun t =>
    match t.txpState with
    | .idle => (t.emit .txReleased).result .ok 0
    | .sendPosted =>
      if t.cfg.delayedClose then State.result { t with txStopPending := true } .deferred 0
      else t.raise .busy) s

/-- `EV_OUT_DONE count` (R183); the count is not used. -/
def execEvOutDone (_count : Nat) (s : State) : Host.Outcome State Fault Refusal :=
  .next (if s.txpListens then
      if s.txStopPending then State.emit { s.txpToIdle with txStopPending := false } .txReleased
      else s.txFetchBegin
    else s)

/-- `EV_OUT_ERROR` (R184, R221): `xfer_error(OUT)` first, `tx_released` second. -/
def execEvOutError (s : State) : Host.Outcome State Fault Refusal :=
  .next (if s.txpListens then
      let t := s.raise (.transferError .bulkOut)
      if t.txStopPending then State.emit { t with txStopPending := false } .txReleased else t
    else s)

/-- `TXP.FETCH_END` (R186), enabled when `cp[TX].busy = 1`. An empty fetch makes the pump `Idle`, with `tx_done` if a completion
began it; otherwise the bytes are staged and submitted, and a refused submission makes the pump `Idle`. A turn at which the
step is not enabled passes (log 7). DEDUCED (log 14): `tx_stage` beyond the chunk and the idle port's count keep their value. -/
def takeFetchEnd (s : State) : Host.Outcome State Fault Refusal :=
  if s.tx.cp.busy then
    if s.tx.cp.n ≤ s.cfg.txChunk.val then
      .next (
        let m := s.tx.cp.n
        let t := s.getEnd .tx
        if m = 0 then
          (if t.txpState = .sendPosted then t.emit .txDone else t).txpToIdle
        else
          let t := { t with
            txStage := Memory.copyTo (fun k => k) 0 (s.gotBytes .tx) t.txStage
            txCount := m
            txBusy := true }
          let t := t.submit (.send m (t.chunkBytes m))
          if t.answer then { t with txpState := .sendPosted } else t.txpToIdle)
    else .fault (.noSuchPosition .txStg s.cfg.txChunk.val)
  else .next s

end Sys2Proof.Machine
end

