-- ==== Sys2Proof/Machine/Dispatch.lean ====
section
/-! DEFINITION. The dispatch: one arm per operation of the opcode map (30_encoding.md R99). -/

namespace Sys2Proof.Machine

def exec (i : Instr) (s : State) : Host.Outcome State Fault Refusal :=
  match i with
  | .rbPut len => Sys2Proof.Machine.execRbPut len s
  | .rbGet len => Sys2Proof.Machine.execRbGet len s
  | .rbLen r => Sys2Proof.Machine.execRbLen r s
  | .rbReset r => Sys2Proof.Machine.execRbReset r s
  | .rxpStart => Sys2Proof.Machine.execRxpStart s
  | .rxpStop => Sys2Proof.Machine.execRxpStop s
  | .txpKick => Sys2Proof.Machine.execTxpKick s
  | .txpStop => Sys2Proof.Machine.execTxpStop s
  | .evTick count => Sys2Proof.Machine.execEvTick count s
  | .evInDone count => Sys2Proof.Machine.execEvInDone count s
  | .evOutDone count => Sys2Proof.Machine.execEvOutDone count s
  | .evInError => Sys2Proof.Machine.execEvInError s
  | .evOutError => Sys2Proof.Machine.execEvOutError s
  | .evInData byte off => Sys2Proof.Machine.execEvInData byte off s
  | .regRead idx => Sys2Proof.Machine.execRegRead idx s

end Sys2Proof.Machine
end

