-- ==== Sys2Proof/Machine/Ports.lean ====
section
/-! DEFINITION. What each agent does with its turn (00_scope.md R11, R12): the command port takes the presented command, the
event port takes a word, the completion steps and `RESET` run. Order of checks: 60_exceptions.md R229. -/

namespace Sys2Proof.Machine

/-- If nothing is presented at the command port, the host presents its next command (R110: one command at a time, in the
host's order; a held command blocks those behind it). -/
def State.present (s : State) : State :=
  match s.presented, s.host with
  | none, c :: rest => { s with presented := some c, host := rest }
  | _, _ => s

/-- The command port's step on the word presented to it: an illegal word is answered at once and is never held; a legal one
runs its meaning, which tests its acceptance condition first (R229). With nothing presented the turn passes. -/
def takeCommand (s : State) : Host.Outcome State Fault Refusal :=
  match s.presented with
  | none => .next s
  | some c =>
    match decodeOn .command c.word with
    | .ok i => exec i s
    | .error _ => .next s.illegalCommand

/-- The event port's step on a word: an illegal one "is consumed, changes no state and emits nothing" (R211). -/
def takeEvent (w : Word) (s : State) : Host.Outcome State Fault Refusal :=
  match decodeOn .event w with
  | .ok i => exec i s
  | .error _ => .next s

/-- One agent takes its step (R12). -/
def takeTurn (t : Turn) (s : State) : Host.Outcome State Fault Refusal :=
  match t with
  | .command ok => takeCommand { s.present with answer := ok }
  | .event w => takeEvent w s
  | .putEnd => takePutEnd s
  | .getEnd => takeGetEnd s
  | .drainEnd ok => takeDrainEnd { s with answer := ok }
  | .fetchEnd ok => takeFetchEnd { s with answer := ok }
  | .reset => takeReset s

/-- The payload a probe word is presented with: for `RB_PUT`, as many zero bytes as it says (R98). -/
def probePayload (w : Word) : List Byte :=
  match decode w with
  | .ok (.rbPut len) => List.replicate len 0
  | _ => []

/-- Put a word where the very next step takes it: an event word in the event port's turn, any other word at the command port
with the command port's turn (log 6). -/
def State.offerWord (s : State) (w : Word) : State :=
  if clsField w = 0x3#4 then { s with turns := .event w :: s.turns }
  else { s with presented := some ⟨w, probePayload w⟩, turns := .command true :: s.turns }

end Sys2Proof.Machine
end

