-- ==== Sys2Proof/Machine/Step.lean ====
section
/-! DEFINITION. The step: the agent whose turn it is takes its atomic step (00_scope.md R12); with no turn left nothing
happens ("nothing executes after reset until an external agent takes a step", 70_reset_and_hazards.md R260). -/

namespace Sys2Proof.Machine

/-- One atomic step (R12, R68). The order of the turns is the surroundings' choice, held in the state; no rule prefers one
(R229). -/
def step (s : State) : Host.Outcome State Fault Refusal :=
  match s.turns with
  | [] => .next s
  | t :: rest => takeTurn t { s with turns := rest }

/-- `s` with one word where `step` takes its next word from (the opcode table's numbering: bit 0 the least significant). -/
def State.withFetchWord (s : State) (nbits w : Nat) : State :=
  s.offerWord (BitVec.ofNat 32 (w % 2 ^ nbits))

end Sys2Proof.Machine
end

