-- ==== Sys2Proof/Machine/Execution.lean ====
section
/-! DEFINITION. Executions without end, and the one liveness assumption of the spec: weak fairness of the completion steps.
Spec: 00_scope.md R11 to R13. `step` takes one step of an execution; what the surroundings choose for it is a `Stimulus`. -/

namespace Sys2Proof.Machine

/-- The four completion steps (R12). -/
inductive Completion where
  /-- `RB_PUT.END`. -/
  | putEnd
  /-- `RB_GET.END`. -/
  | getEnd
  /-- `RXP.DRAIN_END`. -/
  | drainEnd
  /-- `TXP.FETCH_END`. -/
  | fetchEnd
deriving DecidableEq, Repr

/-- A completion step is enabled while its port is busy (R121, R124, R158, R186). -/
def Completion.enabled (c : Completion) (s : State) : Bool :=
  match c with
  | .putEnd => s.tx.pp.busy
  | .getEnd => s.rx.cp.busy
  | .drainEnd => s.rx.pp.busy
  | .fetchEnd => s.tx.cp.busy

/-- The completion step a turn is, if it is one. -/
def Turn.completion : Turn → Option Completion
  | .command _ => none
  | .event _ => none
  | .putEnd => some .putEnd
  | .getEnd => some .getEnd
  | .drainEnd _ => some .drainEnd
  | .fetchEnd _ => some .fetchEnd
  | .reset => none

/-- What the surroundings choose for one step: who takes it, and the commands the host makes ready before it (R11, R12). -/
structure Stimulus where
  turn : Turn
  commands : List Command
deriving DecidableEq, Repr

/-- The state in which that step is taken. -/
def State.given (s : State) (x : Stimulus) : State :=
  { s with turns := [x.turn], host := s.host ++ x.commands }

/-- `states` is the execution the choices `inputs` lead to: every interleaving, with every answer of the transport, is one (R12;
log 18). -/
def Execution (inputs : Nat → Stimulus) (states : Nat → State) : Prop :=
  ∀ k, step ((states k).given (inputs k)) = .next (states (k + 1))

/-- Weak fairness (R13): a completion step that stays enabled from some point on is taken at some later point. -/
def WeaklyFair (inputs : Nat → Stimulus) (states : Nat → State) : Prop :=
  ∀ (c : Completion) (k : Nat), (∀ j, k ≤ j → c.enabled (states j) = true) →
    ∃ j, k ≤ j ∧ (inputs j).turn.completion = some c

end Sys2Proof.Machine
end

