-- ==== Sys2Proof/Machine/Pseudo.lean ====
section
/-! DEFINITION. The pseudo-operations `WRITE`, `READ`, `ATTACH`, `DETACH` as the commands a host presents, and the textual
form of a turn. Spec: 30_encoding.md R103 to R107. They are sequences of operations of the block, not operations of it: a
host issues them, and where a rule says "wait" or "if", the host's next commands depend on the result it got. -/

namespace Sys2Proof.Machine

/-- A command without payload. -/
def bareCommand (i : Instr) : Command := ⟨encode i, []⟩

/-- `WRITE len, data` (R104): `RB_PUT TX, len, data`; wait for its `RB_PUT.END`; `TXP_KICK`, whatever the count. -/
def writeCommands (data : List Byte) : List Command :=
  [⟨encode (.rbPut data.length), data⟩, bareCommand .txpKick]

/-- The turns of a `WRITE` that nothing interrupts: the kick comes after `RB_PUT.END` (R104, R266). -/
def writeTurns : List Turn := [.command false, .putEnd, .command false]

/-- `READ len` (R105), first part: `RB_GET RX, len`. -/
def readCommands (len : Nat) : List Command := [bareCommand (.rbGet len)]

/-- `READ len` (R105), second part, once its `RB_GET.END` returned `count`: `RXP_START` if the count is not 0. -/
def readFollowUp (count : Nat) : List Command :=
  if count = 0 then [] else [bareCommand .rxpStart]

/-- `ATTACH` (R106): `RB_RESET RX`; `RB_RESET TX`; `RXP_START`. -/
def attachCommands : List Command :=
  [bareCommand (.rbReset .rx), bareCommand (.rbReset .tx), bareCommand .rxpStart]

/-- `DETACH` (R107), first part: `RXP_STOP`; `TXP_STOP`. -/
def detachCommands : List Command := [bareCommand .rxpStop, bareCommand .txpStop]

/-- `DETACH` (R107), second part, by the status of the `TXP_STOP` and whether `tx_released` has been seen: the two ring resets
after `OK`, or after `DEFERRED` once `tx_released` came; nothing more after `BUSY`. -/
def detachFollowUp (status : Status) (released : Bool) : List Command :=
  match status with
  | .ok => [bareCommand (.rbReset .rx), bareCommand (.rbReset .tx)]
  | .deferred => if released then [bareCommand (.rbReset .rx), bareCommand (.rbReset .tx)] else []
  | .busy => []
  | .notAttached => []
  | .illegal => []

/-- The answer of the transport, written after the step that submits (R103). -/
def answerText (ok : Bool) : String := if ok then " [ok=1]" else " [ok=0]"

/-- A turn that has no word, by name (R103); a command or an event is written as its operation (`Instr.text`). -/
def Turn.text : Turn → String
  | .command ok => "command" ++ answerText ok
  | .event w => "event " ++ toString w.toNat
  | .putEnd => "RB_PUT.END"
  | .getEnd => "RB_GET.END"
  | .drainEnd ok => "RXP.DRAIN_END" ++ answerText ok
  | .fetchEnd ok => "TXP.FETCH_END" ++ answerText ok
  | .reset => "RESET"

end Sys2Proof.Machine
end

