-- ==== Sys2Proof/Safety.lean ====
section
/-! DEFINITION. What a safe state is (the invariant every reachable state meets), and the notions statements are written in:
a ring's contents as a queue, what a step commits to it and takes from it, what the trace says was sent and returned.
Spec: 10_state.md R20, R28 to R42; 40_ringbuffer.md R130 to R132; 41_rxpump.md R159; 42_txpump.md R187. -/

namespace Sys2Proof.Machine

/-- The count an operation in progress at a port will move, 0 when the port is idle (R130). -/
def PortCtx.pending (c : PortCtx) : Nat := if c.busy then c.n else 0

/-- What holds of a ring of capacity `N` in every reachable state. -/
structure RingInv (N : Nat) (q : RingState) : Prop where
  /-- The index counters stay in `[0, 2*N)` (R25, R26). -/
  wr_lt : q.wr < 2 * N
  rd_lt : q.rd < 2 * N
  /-- `fill + (pp.busy ? pp.n : 0) <= N` (R130). -/
  put_fits : q.fill N + q.pp.pending ≤ N
  /-- `(cp.busy ? cp.n : 0) <= fill` (R130). -/
  get_fits : q.cp.pending ≤ q.fill N
  /-- The pending counts stay in `0 .. N` (R30, R31). -/
  putN_le : q.pp.n ≤ N
  getN_le : q.cp.n ≤ N
  /-- The storage is in canonical form and inside its space (R24, R60). -/
  mem_wf : Memory.wf N q.mem
  /-- Every position of the filled region, and every one an operation in progress is filling, has been written since the last
  reset: no unspecified byte lies where a get can read (R50, R132). -/
  written : ∀ k, k < q.fill N + q.pp.pending → (q.mem.read (pos N q.rd k)).isSome = true

/-- What holds of the block in every reachable state. -/
structure State.Inv (s : State) : Prop where
  rx : RingInv (s.cap .rx) s.rx
  tx : RingInv (s.cap .tx) s.tx
  /-- `rx_prev` is 16 bits (R34). -/
  rxPrev_lt : s.rxPrev < 65536
  /-- `rx_c` is at most `RX_STAGE` (R36). -/
  rxC_le : s.rxC ≤ s.cfg.rxStage.val
  /-- A delivery in progress commits at most what it drains (R157). -/
  drain_le : s.rx.pp.busy = true → s.rx.pp.n ≤ s.rxC
  /-- `rx_drop` is 32 bits (R37). -/
  drop_le : s.rxDrop ≤ 0xFFFFFFFF
  /-- "The situation `Idle`, draining is unreachable" (R159). -/
  drain_posted : s.rx.pp.busy = true → s.rxpState = .receivePosted
  /-- `tx_count` is at most `TX_CHUNK` (R40). -/
  txCount_le : s.txCount ≤ s.cfg.txChunk.val
  /-- A fetch takes at most a chunk (R185). -/
  fetch_le : s.tx.cp.busy = true → s.tx.cp.n ≤ s.cfg.txChunk.val
  /-- `tx_busy = 1` exactly when `txp_state = SendPosted` (R41). -/
  txBusy_iff : s.txBusy = true ↔ s.txpState = .sendPosted
  /-- `tx_stop_pending = 1` implies `SendPosted` (R42), and "`SendPosted`, `tx_stop_pending = 1`, fetching is unreachable"
  (R187). -/
  stop_posted : s.txStopPending = true → s.txpState = .sendPosted ∧ s.tx.cp.busy = false
  /-- `tx_count` is 0 whenever the pump is `Idle` and the length of the chunk in flight otherwise (R40). -/
  idle_count : s.txpState = .idle → s.txCount = 0
  posted_count : s.txpState = .sendPosted → 0 < s.txCount
  /-- The staging buffers are in canonical form and inside their spaces (R60). -/
  rxStage_wf : Memory.wf s.cfg.rxStage.val s.rxStage
  txStage_wf : Memory.wf s.cfg.txChunk.val s.txStage
  /-- Every byte the transport may be reading has been written (R39). -/
  chunk_written : s.txpState = .sendPosted → ∀ k, k < s.txCount → (s.txStage.read k).isSome = true

/-! ### A ring as a queue -/

/-- The bytes buffered in a ring, oldest first: the `fill` positions from `rd` on (R24, R132). -/
def State.contents (s : State) (r : Ring) : List Byte :=
  (List.range ((s.ring r).fill (s.cap r))).map (fun k => s.memRead (spaceOf r) (pos (s.cap r) (s.ring r).rd k))

/-- The bytes a put in progress will commit: the `pp[r].n` positions after the filled region (R122). -/
def State.pendingBytes (s : State) (r : Ring) : List Byte :=
  (List.range (s.ring r).pp.pending).map (fun k => s.memRead (spaceOf r) (pos (s.cap r) (s.ring r).wr k))

/-- The turn at which the producer of a ring completes: `RB_PUT.END` for TX, `RXP.DRAIN_END` for RX (R29). -/
def Turn.commits (t : Turn) (r : Ring) : Bool :=
  match t, r with
  | .putEnd, .tx => true
  | .drainEnd _, .rx => true
  | _, _ => false

/-- What the next step commits to a ring. -/
def State.committedNext (s : State) (r : Ring) : List Byte :=
  match s.turns with
  | t :: _ => if t.commits r then s.pendingBytes r else []
  | [] => []

/-- What `k` steps commit to a ring, in the order of the completions; a run that stops commits no more. -/
def State.committed (r : Ring) : Nat → State → List Byte
  | 0, _ => []
  | k + 1, s =>
    s.committedNext r ++
      (match step s with
      | .next t => State.committed r k t
      | .fault _ => []
      | .refused _ => [])

/-- The bytes carried by the `submit(OUT, ...)` symbols of a trace, in trace order (R188). -/
def submittedBytes : List Output → List Byte
  | [] => []
  | .submit (.send _ data) :: xs => data ++ submittedBytes xs
  | _ :: xs => submittedBytes xs

/-- The bytes returned by the `RB_GET`s of a trace, in trace order (R131). -/
def returnedBytes : List Output → List Byte
  | [] => []
  | .resultData _ _ data :: xs => data ++ returnedBytes xs
  | _ :: xs => returnedBytes xs

/-- Nothing the surroundings hold ready resets a ring: no `RESET` turn, and no command word that decodes to `RB_RESET r`,
presented or waiting. -/
def State.noReset (s : State) (r : Ring) : Prop :=
  (.reset : Turn) ∉ s.turns ∧
  (∀ c, s.presented = some c → decode c.word ≠ .ok (.rbReset r)) ∧
  ∀ c ∈ s.host, decode c.word ≠ .ok (.rbReset r)

/-! ### What the next step is -/

/-- The operation the next step runs: the presented command's, or the arriving event's; `none` for a completion step, a
`RESET`, an illegal word, or no turn. -/
def State.nextInstr (s : State) : Option Instr :=
  match s.turns with
  | .command _ :: _ =>
    match s.present.presented with
    | some c => (decodeOn .command c.word).toOption
    | none => none
  | .event w :: _ => (decodeOn .event w).toOption
  | _ => none

/-! ### The delivery begin as a relation (R157) -/

/-- `t` is `s` after a delivery of `sample` bytes has begun: `c = min(sample, RX_STAGE)`, `n = min(c, free(RX))`, the first `n`
staged bytes stand in the RX ring's free positions, the producer port is busy with `n`; every other byte of the ring's
storage, and every other field, is as before. -/
def DeliveryBegun (s t : State) (sample : Nat) : Prop :=
  let c := min sample s.cfg.rxStage.val
  let n := min c (s.rx.free s.cfg.nRx.val)
  t.rxC = c ∧ t.rx.pp = ⟨true, n⟩ ∧
  (∀ k, k < n → t.memRead .rxMem (pos s.cfg.nRx.val s.rx.wr k) = s.memRead .rxStg k) ∧
  (∀ a, (∀ k, k < n → a ≠ pos s.cfg.nRx.val s.rx.wr k) → t.memRead .rxMem a = s.memRead .rxMem a) ∧
  t = { s with rxC := t.rxC, rx := { s.rx with mem := t.rx.mem, pp := t.rx.pp } }

/-! ### Normal operation of the transmit side (R189) -/

/-- The operation the `k`-th step of an execution runs. -/
def instrAt (inputs : Nat → Stimulus) (states : Nat → State) (k : Nat) : Option Instr :=
  ((states k).given (inputs k)).nextInstr

/-- The bytes the `RB_PUT`s completed in the first `k` steps of an execution accepted, in order. -/
def acceptedBytes (inputs : Nat → Stimulus) (states : Nat → State) : Nat → List Byte
  | 0 => []
  | k + 1 => acceptedBytes inputs states k ++ ((states k).given (inputs k)).committedNext .tx

/-- The bytes of the `submit(OUT, ...)` symbols of the first `k` steps of an execution, in order. -/
def transmittedBytes (states : Nat → State) (k : Nat) : List Byte :=
  submittedBytes ((states k).trace.drop (states 0).trace.length)

/-- The surroundings as R189 assumes them. -/
structure NormalTransmission (inputs : Nat → Stimulus) (states : Nat → State) : Prop where
  /-- "every submission is accepted (`ok = 1`)". -/
  accepted : ∀ k ok, (inputs k).turn = .fetchEnd ok → (states k).tx.cp.busy = true → ok = true
  /-- "every `submit(OUT, ...)` is eventually answered by `EV_OUT_DONE`", and not by `EV_OUT_ERROR`. -/
  answered : ∀ k, (states k).txpState = .sendPosted → (states k).tx.cp.busy = false →
    ∃ j count, k ≤ j ∧ instrAt inputs states j = some (.evOutDone count)
  noError : ∀ k, instrAt inputs states k ≠ some .evOutError
  /-- "no `TXP_STOP`, `RB_RESET TX` or `RESET` occurs". -/
  noStop : ∀ k, instrAt inputs states k ≠ some .txpStop
  noRingReset : ∀ k, instrAt inputs states k ≠ some (.rbReset .tx)
  noReset : ∀ k, (inputs k).turn ≠ .reset
  /-- "every `RB_PUT.END` is followed by a `TXP_KICK`", which is accepted. -/
  kicked : ∀ k, (inputs k).turn = .putEnd → (states k).tx.pp.busy = true →
    ∃ j, k < j ∧ instrAt inputs states j = some .txpKick ∧ (states j).tx.cp.busy = false

end Sys2Proof.Machine
end

