-- ==== Sys2Proof/Certificates/Slice0/Obligations.lean ====
section
/-! DEFINITION. The statements for the provers. Each names the rule of spec/ it formalises; the frame of an instruction is
said by writing the next state as the old one with the named fields changed, and, for a memory, by reading every byte. -/

open Sys2Proof Sys2Proof.Machine

/-! ### Encoding -/

/-- Words written out from the encodings of R92 to R96, each of them listed in 95_test_vectors.md section 2.1. -/
def Obligations.DecoderReadsTheSpecsWords : Prop :=
  decode 0x10100040#32 = .ok (.rbPut 64) ∧
  decode 0x11000040#32 = .ok (.rbGet 64) ∧
  decode 0x12000000#32 = .ok (.rbLen .rx) ∧
  decode 0x13100000#32 = .ok (.rbReset .tx) ∧
  decode 0x20000000#32 = .ok .rxpStart ∧
  decode 0x21100000#32 = .ok .txpStop ∧
  decode 0x30000020#32 = .ok (.evTick 32) ∧
  decode 0x31100001#32 = .ok (.evOutDone 1) ∧
  decode 0x32000000#32 = .ok .evInError ∧
  decode 0x33410003#32 = .ok (.evInData 0x41#8 3) ∧
  decode 0x4000000C#32 = .ok (.regRead 0x0C) ∧
  decode 0x00000000#32 = .error .cls ∧
  decode 0x10000005#32 = .error .unit ∧
  decode 0x10110000#32 = .error .rsv ∧
  decode 0x40000100#32 = .error .arg

/-- Decoding the word of a well-formed instruction gives that instruction back, every operand at every value its field
admits (R92 to R97). -/
def Obligations.DecodeAfterEncodeIsIdentity : Prop :=
  ∀ i : Instr, i.wf = true → decode (encode i) = .ok i

/-- A word that decodes is the word of the instruction it decodes to: no bit of a legal word is ignored (R99, R100). -/
def Obligations.EncodeAfterDecodeIsIdentity : Prop :=
  ∀ (w : Word) (i : Instr), decode w = .ok i → i.wf = true ∧ encode i = w

/-- R99: the decoder, written from the fields of R91 to R96, selects what the mask and match columns of the opcode map select,
with the free fields as operands; a word that matches no row is refused; the fifteen rows are mutually exclusive. -/
def Obligations.DecoderFollowsTheOpcodeMap : Prop :=
  opcodeMap.length = 15 ∧
  (∀ row ∈ opcodeMap, ∀ row' ∈ opcodeMap, ∀ w : Word,
    w &&& row.mask = row.pattern → w &&& row'.mask = row'.pattern → row = row') ∧
  ∀ w : Word,
    (∀ row, opcodeRow w = some row → ∃ i, decode w = .ok i ∧ i.mnemonic = row.mnemonic ∧ i.operandsAre w) ∧
    (opcodeRow w = none → ∃ e, decode w = .error e)

/-- The list of R100, clause by clause, decoding alone (what an illegal word does is `IllegalWordsChangeNothing`). -/
def Obligations.ListedEncodingsAreIllegal : Prop :=
  ∀ w : Word,
    let cls := w.extractLsb' 28 4
    let fn := w.extractLsb' 24 4
    let unit := w.extractLsb' 20 4
    let rsv := w.extractLsb' 16 4
    let arg := w.extractLsb' 0 16
    ((cls = 0#4 ∨ 5#4 ≤ cls) ∨
      (cls = 1#4 ∧ 3#4 < fn) ∨ (cls = 2#4 ∧ 1#4 < fn) ∨ (cls = 3#4 ∧ 3#4 < fn) ∨ (cls = 4#4 ∧ fn ≠ 0#4) ∨
      (1#4 < unit ∧ ¬(cls = 3#4 ∧ fn = 3#4)) ∨
      (cls = 1#4 ∧ fn = 0#4 ∧ unit = 0#4) ∨ (cls = 1#4 ∧ fn = 1#4 ∧ unit = 1#4) ∨
      (rsv ≠ 0#4 ∧ ¬(cls = 3#4 ∧ fn = 3#4)) ∨
      (arg ≠ 0#16 ∧ ((cls = 1#4 ∧ (fn = 2#4 ∨ fn = 3#4)) ∨ cls = 2#4 ∨ (cls = 3#4 ∧ fn = 2#4))) ∨
      (cls = 3#4 ∧ fn = 0#4 ∧ unit ≠ 0#4) ∨
      (cls = 4#4 ∧ (unit ≠ 0#4 ∨ arg.extractLsb' 8 8 ≠ 0#8))) ↔
    ∃ e, decode w = .error e

/-! ### The step -/

/-- A turn of the command port runs the instruction the presented word decodes to, on the state with the turn used up and the
transport's answer set; if nothing is presented, the host's next command is presented first (R110, R229). -/
def Obligations.StepRunsThePresentedCommand : Prop :=
  ∀ (s : State) (ok : Bool) (rest : List Turn) (c : Command) (i : Instr),
    s.turns = .command ok :: rest → decodeOn .command c.word = .ok i →
    (s.presented = some c → step s = exec i { s with turns := rest, answer := ok }) ∧
    (∀ later, s.presented = none → s.host = c :: later →
      step s = exec i { s with turns := rest, answer := ok, presented := some c, host := later })

/-- A turn of the event port runs the event its word decodes to, on the state with the turn used up (R90, R227). -/
def Obligations.StepRunsTheArrivingEvent : Prop :=
  ∀ (s : State) (w : Word) (rest : List Turn) (i : Instr),
    s.turns = .event w :: rest → decodeOn .event w = .ok i → step s = exec i { s with turns := rest }

/-- R211: an illegal word on the command port, a class 3 word among them, is consumed at once in every state and only
answered; an illegal word on the event port does nothing; a `REG_READ` of a number above `0x10` is answered like an illegal
word. The word on the command port is the one presented, or, with none presented, the next one the host has ready. -/
def Obligations.IllegalWordsChangeNothing : Prop :=
  (∀ (s : State) (ok : Bool) (rest : List Turn) (c : Command) (e : Illegal),
    s.turns = .command ok :: rest → s.presented = some c → decodeOn .command c.word = .error e →
    step s = .next { s with
      turns := rest, answer := ok, presented := none, trace := s.trace ++ [.result .illegal 0] }) ∧
  (∀ (s : State) (ok : Bool) (rest : List Turn) (c : Command) (later : List Command) (e : Illegal),
    s.turns = .command ok :: rest → s.presented = none → s.host = c :: later → decodeOn .command c.word = .error e →
    step s = .next { s with
      turns := rest, answer := ok, host := later, trace := s.trace ++ [.result .illegal 0] }) ∧
  (∀ (s : State) (w : Word) (rest : List Turn) (e : Illegal),
    s.turns = .event w :: rest → decodeOn .event w = .error e → step s = .next { s with turns := rest }) ∧
  (∀ (s : State) (idx : Nat), 0x10 < idx →
    exec (.regRead idx) s = .next { s with presented := none, trace := s.trace ++ [.result .illegal 0] }) ∧
  (∀ (w : Word) (i : Instr), decode w = .ok i → (w.extractLsb' 28 4 = 3#4 ↔ ∃ e, decodeOn .command w = .error e)) ∧
  (∀ (w : Word) (i : Instr), decode w = .ok i → (w.extractLsb' 28 4 ≠ 3#4 ↔ ∃ e, decodeOn .event w = .error e))

/-- R109: when its condition fails a legal command is held, that is, nothing at all changes; when the condition holds it is
accepted and leaves the port; events and illegal words are accepted in every state. (For `RB_PUT` the payload is the one R98
asks for.) -/
def Obligations.CommandsAreAcceptedExactlyWhen : Prop :=
  ∀ (s : State),
    let acceptedIff := fun (i : Instr) (condition : Prop) =>
      (condition → ∃ t, exec i s = .next t ∧ t.presented = none) ∧ (¬condition → exec i s = .next s)
    (∀ len, s.payload.length = len → acceptedIff (.rbPut len) (s.tx.pp.busy = false)) ∧
    (∀ len, acceptedIff (.rbGet len) (s.rx.cp.busy = false)) ∧
    (∀ r, acceptedIff (.rbLen r) True) ∧
    acceptedIff (.rbReset .rx) (s.rx.pp.busy = false ∧ s.rx.cp.busy = false) ∧
    acceptedIff (.rbReset .tx) (s.tx.pp.busy = false ∧ s.tx.cp.busy = false) ∧
    acceptedIff .rxpStart (s.rx.pp.busy = false) ∧
    acceptedIff .rxpStop (s.rx.pp.busy = false) ∧
    acceptedIff .txpKick (s.tx.cp.busy = false) ∧
    acceptedIff .txpStop (s.tx.cp.busy = false) ∧
    (∀ idx, acceptedIff (.regRead idx) True) ∧
    (∀ i : Instr, i.side = .event → ∃ t, exec i s = .next t) ∧
    (∀ ok rest c e, s.turns = .command ok :: rest →
      (s.presented = some c ∨ s.presented = none ∧ ∃ later, s.host = c :: later) → decodeOn .command c.word = .error e →
      ∃ t, step s = .next t ∧ t.presented = none) ∧
    (∀ w rest e, s.turns = .event w :: rest → decodeOn .event w = .error e → ∃ t, step s = .next t)

/-- R98: a `RB_PUT` presented with a payload of another length is refused at the boundary. That it is refused also while a put is
in progress, before the acceptance condition is tested, is the model's choice (log 13). -/
def Obligations.MalformedPayloadIsRefused : Prop :=
  ∀ (s : State) (len : Nat), s.payload.length ≠ len →
    exec (.rbPut len) s = .refused (.malformedPayload len s.payload.length)

/-! ### Reset -/

/-- R50: the table of reset values, for every choice of the parameters; `State.reset` is one of these states (the parameters
it has are the model's choice, log 1). What R50 leaves unspecified is not said. -/
def Obligations.ResetHoldsTheSpecsValues : Prop :=
  (∀ p : Params,
    let s := State.resetWith p
    s.cfg = p ∧ s.rx.wr = 0 ∧ s.rx.rd = 0 ∧ s.tx.wr = 0 ∧ s.tx.rd = 0 ∧
    s.rx.pp.busy = false ∧ s.rx.cp.busy = false ∧ s.tx.pp.busy = false ∧ s.tx.cp.busy = false ∧
    s.rxpState = .idle ∧ s.txpState = .idle ∧ s.rxPrev = 0 ∧ s.rxDone = false ∧ s.rxDrop = 0 ∧
    s.txCount = 0 ∧ s.txBusy = false ∧ s.txStopPending = false) ∧
  ∃ p, State.reset = State.resetWith p

/-- R260: from every state, whatever it holds, the `RESET` step gives the values of R50, free ones where R50 leaves them
unspecified, emits nothing, and reaches a state that meets the invariant; a held command is discarded (R261). How the free
values are named, by the number of resets and the place, is the model's choice (log 3 for the bytes, log 4 for the counts). -/
def Obligations.ResetStepRestoresEveryField : Prop :=
  ∀ (s : State) (rest : List Turn), s.turns = .reset :: rest →
    ∃ t, step s = .next t ∧ t.Inv ∧ t.cfg = s.cfg ∧
      t.rx.wr = 0 ∧ t.rx.rd = 0 ∧ t.tx.wr = 0 ∧ t.tx.rd = 0 ∧
      t.rx.pp.busy = false ∧ t.rx.cp.busy = false ∧ t.tx.pp.busy = false ∧ t.tx.cp.busy = false ∧
      t.rxpState = .idle ∧ t.txpState = .idle ∧ t.rxPrev = 0 ∧ t.rxDone = false ∧ t.rxDrop = 0 ∧
      t.txCount = 0 ∧ t.txBusy = false ∧ t.txStopPending = false ∧
      t.rx.pp.n = unspecifiedCount (.ppN .rx) (s.epoch + 1) s.cfg.nRx.val ∧
      t.rx.cp.n = unspecifiedCount (.cpN .rx) (s.epoch + 1) s.cfg.nRx.val ∧
      t.tx.pp.n = unspecifiedCount (.ppN .tx) (s.epoch + 1) s.cfg.nTx.val ∧
      t.tx.cp.n = unspecifiedCount (.cpN .tx) (s.epoch + 1) s.cfg.nTx.val ∧
      t.rxC = unspecifiedCount .rxC (s.epoch + 1) s.cfg.rxStage.val ∧
      t.presented = none ∧ t.trace = s.trace ∧
      (∀ sp a, t.memRead sp a = Config.freeByte sp (s.epoch + 1) a)

/-- R261: after `RESET` no operation that was in progress completes, however long the run goes on. Any number of completion
steps and terminal events of the transport change nothing and produce nothing. In every run a port is busy again, or a pump
posted again, only if an operation that begins one was run after the `RESET`. That a completion turn which is not enabled is
used up and passes (log 7), and that commands not yet presented stay with the host (log 8), are the model's choices. -/
def Obligations.ResetCancelsOperationsInProgress : Prop :=
  ∀ (s t : State) (us rest : List Turn), s.turns = .reset :: us ++ rest → step s = .next t →
    t.host = s.host ∧ t.trace = s.trace ∧
    ((∀ u ∈ us, (∃ c, u.completion = some c) ∨
        ∃ w i, u = .event w ∧ decode w = .ok i ∧
          ((∃ n, i = .evInDone n) ∨ (∃ n, i = .evOutDone n) ∨ i = .evInError ∨ i = .evOutError)) →
      ∃ v, Host.Core.run Sys2Proof.core us.length t = .next v ∧ v = { t with turns := rest, answer := v.answer }) ∧
    ∀ (k : Nat) (v : State), Host.Core.run Sys2Proof.core k t = .next v →
      let never := fun (i : Instr) => ∀ j u, j < k → Host.Core.run Sys2Proof.core j t = .next u →
        State.nextInstr u ≠ some i
      ((∀ len, never (.rbPut len)) → v.tx.pp.busy = false) ∧
      ((∀ len, never (.rbGet len)) → v.rx.cp.busy = false) ∧
      (never .rxpStart → v.rxpState = .idle ∧ v.rx.pp.busy = false) ∧
      (never .txpKick → v.txpState = .idle ∧ v.tx.cp.busy = false)

/-- The state after reset meets the invariant, whatever the parameters (R28: "It holds after `RESET`"). -/
def Obligations.ResetMeetsTheInvariant : Prop :=
  ∀ p : Params, (State.resetWith p).Inv

/-! ### The whole machine -/

/-- Every step keeps the invariant: the ring invariant with pending counts (R28, R130), the unreachable situations of R159 and
R187, `tx_busy` and `tx_count` (R40, R41), the canonical memories, and that every byte a get can read has been written. -/
def Obligations.StepKeepsTheInvariant : Prop :=
  ∀ s t : State, s.Inv → step s = .next t → t.Inv

/-- No fault is reachable, and the one refusal is a malformed `RB_PUT` presentation (R98): from a state that meets the
invariant every other step completes. -/
def Obligations.InvariantStatesNeverFault : Prop :=
  ∀ s : State, s.Inv →
    (∃ t, step s = .next t) ∨
    (∃ len n, s.nextInstr = some (.rbPut len) ∧ n ≠ len ∧ step s = .refused (.malformedPayload len n))

/-- Exactly when the machine faults: a fetch that would stage more bytes than `TXSTG` has (R60; no reachable state; log 10,
the model's choice). -/
def Obligations.FaultsAreChunksBeyondTheStage : Prop :=
  ∀ (s : State) (f : Fault), step s = .fault f ↔
    (∃ ok rest, s.turns = .fetchEnd ok :: rest) ∧ s.tx.cp.busy = true ∧ s.cfg.txChunk.val < s.tx.cp.n ∧
      f = .noSuchPosition .txStg s.cfg.txChunk.val

/-- "capacity is fixed at construction and never resized" (R5): no step changes a parameter. -/
def Obligations.ParametersNeverChange : Prop :=
  ∀ s t : State, step s = .next t → t.cfg = s.cfg

/-- The trace is only appended to (R16), and a step appends at most two symbols, which is what the operation rules emit (R151,
R152, R158, R182, R184). -/
def Obligations.TraceOnlyGrows : Prop :=
  ∀ s t : State, step s = .next t → ∃ out, t.trace = s.trace ++ out ∧ out.length ≤ 2

/-- R29: apart from `RB_RESET` and `RESET` each index counter has one writer: the RxPump's completion moves `wr[RX]`,
`RB_GET.END` moves `rd[RX]`, `RB_PUT.END` moves `wr[TX]`, the TxPump's completion moves `rd[TX]`. -/
def Obligations.EachCounterHasOneWriter : Prop :=
  ∀ s t : State, step s = .next t →
    (t.rx.wr ≠ s.rx.wr → (∃ ok, s.turns.head? = some (.drainEnd ok)) ∨ s.turns.head? = some .reset ∨
      s.nextInstr = some (.rbReset .rx)) ∧
    (t.rx.rd ≠ s.rx.rd → s.turns.head? = some .getEnd ∨ s.turns.head? = some .reset ∨
      s.nextInstr = some (.rbReset .rx)) ∧
    (t.tx.wr ≠ s.tx.wr → s.turns.head? = some .putEnd ∨ s.turns.head? = some .reset ∨
      s.nextInstr = some (.rbReset .tx)) ∧
    (t.tx.rd ≠ s.tx.rd → (∃ ok, s.turns.head? = some (.fetchEnd ok)) ∨ s.turns.head? = some .reset ∨
      s.nextInstr = some (.rbReset .tx))

/-- A completion step that is enabled stays enabled, with the count its begin step fixed, until it is taken or the block is
reset (R13, R134): nothing any other agent does changes what a put or a get in progress will move. -/
def Obligations.PendingOperationsAreUndisturbed : Prop :=
  ∀ s t : State, step s = .next t → s.turns.head? ≠ some .reset →
    (s.rx.pp.busy = true → (∀ ok, s.turns.head? ≠ some (.drainEnd ok)) → t.rx.pp = s.rx.pp ∧ t.rxC = s.rxC) ∧
    (s.rx.cp.busy = true → s.turns.head? ≠ some .getEnd → t.rx.cp = s.rx.cp) ∧
    (s.tx.pp.busy = true → s.turns.head? ≠ some .putEnd → t.tx.pp = s.tx.pp) ∧
    (s.tx.cp.busy = true → (∀ ok, s.turns.head? ≠ some (.fetchEnd ok)) → t.tx.cp = s.tx.cp ∧ t.txpState = s.txpState)

/-- R13: in a weakly fair execution an enabled completion step stays enabled until it is taken, and it is taken, unless the block is
reset first; taking it ends the operation. -/
def Obligations.FairExecutionsCompleteEveryOperation : Prop :=
  ∀ (inputs : Nat → Stimulus) (states : Nat → State), Execution inputs states → WeaklyFair inputs states →
    ∀ (c : Completion) (k : Nat), c.enabled (states k) = true →
      ∃ j, k ≤ j ∧ (∀ i, k ≤ i → i ≤ j → c.enabled (states i) = true) ∧
        ((inputs j).turn.completion = some c ∨ (inputs j).turn = .reset) ∧ c.enabled (states (j + 1)) = false

/-- Which step emits which notification, and that none emits one twice (R228). -/
def Obligations.NotificationsComeOnlyFrom : Prop :=
  ∀ (s t : State) (out : List Output), s.Inv → step s = .next t → t.trace = s.trace ++ out →
    (.rxReady ∈ out → (∃ ok, s.turns.head? = some (.drainEnd ok)) ∧ s.rx.pp.busy = true ∧ 0 < s.rxC) ∧
    (.txDone ∈ out → (∃ ok, s.turns.head? = some (.fetchEnd ok)) ∧ s.tx.cp.busy = true ∧ s.tx.cp.n = 0 ∧
      s.txpState = .sendPosted ∧ t.txpState = .idle) ∧
    (.xferError .bulkIn ∈ out → s.nextInstr = some .evInError ∧ s.rxpState = .receivePosted ∧ t.rxpState = .idle) ∧
    (.xferError .bulkOut ∈ out → s.nextInstr = some .evOutError ∧ s.txpState = .sendPosted ∧ t.txpState = .idle) ∧
    (.txReleased ∈ out → t.txpState = .idle ∧ t.txBusy = false ∧
      (s.txpState = .sendPosted ∧ s.txStopPending = true ∧
          ((∃ n, s.nextInstr = some (.evOutDone n)) ∨ s.nextInstr = some .evOutError) ∨
        s.txpState = .idle ∧ s.nextInstr = some .txpStop)) ∧
    (.abortIn ∈ out → s.nextInstr = some .rxpStop ∧ s.rxpState = .receivePosted ∧ t.rxpState = .idle) ∧
    out.Nodup

/-- R226 for the results: a result without bytes comes only from the command port's turn, or from an enabled `RB_PUT.END`, and
then with `OK`; a result with bytes comes only from an enabled `RB_GET.END`, with `OK`; so an event never produces a result.
`BUSY` and `DEFERRED` answer only `TXP_STOP`, `NOT_ATTACHED` only `RXP_START`, `ILLEGAL` only a word that does not decode on the
command port or a `REG_READ` beyond the registers. -/
def Obligations.StatusesComeOnlyFrom : Prop :=
  ∀ (s t : State) (out : List Output), step s = .next t → t.trace = s.trace ++ out →
    (∀ st v, .result st v ∈ out →
      ((∃ ok, s.turns.head? = some (.command ok)) ∨ s.turns.head? = some .putEnd ∧ s.tx.pp.busy = true ∧ st = .ok) ∧
      (st = .busy → s.nextInstr = some .txpStop ∧ v = 0) ∧
      (st = .deferred → s.nextInstr = some .txpStop ∧ v = 0) ∧
      (st = .notAttached → s.nextInstr = some .rxpStart ∧ v = 0) ∧
      (st = .illegal → v = 0 ∧
        ((∃ ok rest c e, s.turns = .command ok :: rest ∧ s.present.presented = some c ∧
            decodeOn .command c.word = .error e) ∨
          ∃ idx, s.nextInstr = some (.regRead idx) ∧ 0x10 < idx))) ∧
    (∀ st v data, .resultData st v data ∈ out → s.turns.head? = some .getEnd ∧ s.rx.cp.busy = true ∧ st = .ok) ∧
    ∀ w, s.turns.head? = some (.event w) → ∀ st v data, .result st v ∉ out ∧ .resultData st v data ∉ out

/-- "The *other* pump is not touched" (R221), and neither is the other ring: what addresses the receive side leaves all of the
transmit side as it is, and the other way round. That the values the spec leaves open between operations (`rx_c`, the counts
of idle ports, bytes outside their region) are among what stays is the model's (log 14). -/
def Obligations.PumpsAreIndependent : Prop :=
  ∀ (s t : State) (i : Instr), exec i s = .next t →
    ((∃ len, i = .rbGet len) ∨ i = .rbReset .rx ∨ i = .rxpStart ∨ i = .rxpStop ∨ (∃ n, i = .evTick n) ∨
      (∃ n, i = .evInDone n) ∨ i = .evInError ∨ (∃ b off, i = .evInData b off) →
      t.tx = s.tx ∧ t.txpState = s.txpState ∧ t.txStage = s.txStage ∧ t.txCount = s.txCount ∧ t.txBusy = s.txBusy ∧
        t.txStopPending = s.txStopPending) ∧
    ((∃ len, i = .rbPut len) ∨ i = .rbReset .tx ∨ i = .txpKick ∨ i = .txpStop ∨ (∃ n, i = .evOutDone n) ∨
      i = .evOutError →
      t.rx = s.rx ∧ t.rxpState = s.rxpState ∧ t.rxStage = s.rxStage ∧ t.rxPrev = s.rxPrev ∧ t.rxDone = s.rxDone ∧
        t.rxC = s.rxC ∧ t.rxDrop = s.rxDrop)

/-! ### The rings -/

/-- R121: `RB_PUT` is held while a put is in progress; otherwise its accepting step fixes `n = min(len, free)` and stores the
first `n` bytes of the payload, byte `k` at `(wr[TX] + k) mod N`, moving no counter and producing nothing; `RB_PUT.END`,
enabled exactly when `pp[TX].busy = 1`, moves `wr[TX]` by `n` and returns `(OK, n)`. That its turn passes when it is not enabled
(log 7), and that the idle port keeps its count (log 14), are the model's. -/
def Obligations.RbPutStoresWhatFits : Prop :=
  (∀ (s : State) (len : Nat), s.payload.length = len →
    (s.tx.pp.busy = true → exec (.rbPut len) s = .next s) ∧
    (s.tx.pp.busy = false → ∃ t, exec (.rbPut len) s = .next t ∧
      let N := s.cfg.nTx.val
      let n := min len (s.tx.free N)
      t.tx.pp = ⟨true, n⟩ ∧
      (∀ k b, k < n → s.payload[k]? = some b → t.memRead .txMem ((s.tx.wr + k) % N) = b) ∧
      (∀ a, (∀ k, k < n → a ≠ (s.tx.wr + k) % N) → t.memRead .txMem a = s.memRead .txMem a) ∧
      t = { s with presented := none, tx := { s.tx with mem := t.tx.mem, pp := t.tx.pp } })) ∧
  (∀ (s : State) (rest : List Turn), s.turns = .putEnd :: rest →
    (s.tx.pp.busy = false → step s = .next { s with turns := rest }) ∧
    (s.tx.pp.busy = true → step s = .next { s with
      turns := rest
      tx := { s.tx with
        wr := (s.tx.wr + s.tx.pp.n) % (2 * s.cfg.nTx.val)
        pp := ⟨false, s.tx.pp.n⟩ }
      trace := s.trace ++ [.result .ok (BitVec.ofNat 32 s.tx.pp.n)] }))

/-- R124: `RB_GET` is held while a get is in progress; otherwise its accepting step fixes `n = min(len, fill)` and changes
nothing else; `RB_GET.END`, enabled exactly when `cp[RX].busy = 1`, returns the `n` bytes from `rd[RX]` on, oldest first,
and moves `rd[RX]` by `n`. That its turn passes when it is not enabled (log 7), and that the idle port keeps its count (log 14),
are the model's. -/
def Obligations.RbGetReturnsTheOldestBytes : Prop :=
  (∀ (s : State) (len : Nat),
    (s.rx.cp.busy = true → exec (.rbGet len) s = .next s) ∧
    (s.rx.cp.busy = false → exec (.rbGet len) s = .next { s with
      presented := none
      rx := { s.rx with cp := ⟨true, min len (s.rx.fill s.cfg.nRx.val)⟩ } })) ∧
  (∀ (s : State) (rest : List Turn), s.turns = .getEnd :: rest →
    (s.rx.cp.busy = false → step s = .next { s with turns := rest }) ∧
    (s.rx.cp.busy = true → ∃ data : List Byte, data.length = s.rx.cp.n ∧
      (∀ k b, data[k]? = some b → b = s.memRead .rxMem ((s.rx.rd + k) % s.cfg.nRx.val)) ∧
      step s = .next { s with
        turns := rest
        rx := { s.rx with
          rd := (s.rx.rd + s.rx.cp.n) % (2 * s.cfg.nRx.val)
          cp := ⟨false, s.rx.cp.n⟩ }
        trace := s.trace ++ [.resultData .ok (BitVec.ofNat 32 s.rx.cp.n) data] }))

/-- R127: `RB_LEN r` is always accepted, returns the fill and changes no state; in a state that meets the invariant the value
is between 0 and `N`. -/
def Obligations.RbLenReturnsTheFill : Prop :=
  (∀ s : State,
    exec (.rbLen .rx) s = .next { s with
      presented := none
      trace := s.trace ++ [.result .ok (BitVec.ofNat 32
        ((((s.rx.wr : Int) - s.rx.rd) % (2 * s.cfg.nRx.val : Nat)).toNat))] } ∧
    exec (.rbLen .tx) s = .next { s with
      presented := none
      trace := s.trace ++ [.result .ok (BitVec.ofNat 32
        ((((s.tx.wr : Int) - s.tx.rd) % (2 * s.cfg.nTx.val : Nat)).toNat))] }) ∧
  ∀ s : State, s.Inv → s.rx.fill s.cfg.nRx.val ≤ s.cfg.nRx.val ∧ s.tx.fill s.cfg.nTx.val ≤ s.cfg.nTx.val

/-- R128: `RB_RESET r` waits until both ports of the ring are idle, then sets both counters to 0 and returns `(OK, 0)`; the
storage, the pumps and `rx_drop` keep their values. -/
def Obligations.RbResetEmptiesOneRing : Prop :=
  ∀ s : State,
    (s.rx.pp.busy = true ∨ s.rx.cp.busy = true → exec (.rbReset .rx) s = .next s) ∧
    (s.tx.pp.busy = true ∨ s.tx.cp.busy = true → exec (.rbReset .tx) s = .next s) ∧
    (s.rx.pp.busy = false → s.rx.cp.busy = false → exec (.rbReset .rx) s = .next { s with
      presented := none, rx := { s.rx with wr := 0, rd := 0 }, trace := s.trace ++ [.result .ok 0] }) ∧
    (s.tx.pp.busy = false → s.tx.cp.busy = false → exec (.rbReset .tx) s = .next { s with
      presented := none, tx := { s.tx with wr := 0, rd := 0 }, trace := s.trace ++ [.result .ok 0] })

/-- R129: the counters' arithmetic without remainders, for every capacity and counters in range: the index update (a), the
fill (b), the free space (c), the position (d), the count (e), a capacity of one byte (f), saturation (g). -/
def Obligations.CounterArithmeticWithoutRemainders : Prop :=
  (∀ N idx n : Nat, idx < 2 * N → n ≤ N →
    advance N idx n = (if idx + n < 2 * N then idx + n else idx + n - 2 * N) ∧ idx + n < 3 * N) ∧
  (∀ (N : Nat) (q : RingState), q.wr < 2 * N → q.rd < 2 * N →
    q.fill N = (if q.rd ≤ q.wr then q.wr - q.rd else q.wr - q.rd + 2 * N - (q.rd - q.wr))) ∧
  (∀ (N : Nat) (q : RingState), RingInv N q → q.fill N ≤ N ∧ q.free N + q.fill N = N) ∧
  (∀ N idx : Nat, idx < 2 * N → pos N idx 0 = (if idx < N then idx else idx - N)) ∧
  (∀ (N len : Nat) (q : RingState), RingInv N q → N ≤ 65535 →
    min len (q.free N) ≤ 65535 ∧ min len (q.fill N) ≤ 65535) ∧
  (∀ (q : RingState) (k : Nat), RingInv 1 q → q.wr ≤ 1 ∧ q.rd ≤ 1 ∧ q.fill 1 ≤ 1 ∧ pos 1 q.wr k = 0) ∧
  (∀ v : Nat, sat32 v ≤ 0xFFFFFFFF ∧ (v ≤ 0xFFFFFFFF → sat32 v = v))

/-- R133: a `RB_PUT` whose begin step finds less room than it offers commits exactly the free space, and the bytes already
buffered keep their values and their order, at its begin and at its completion. -/
def Obligations.BackpressureKeepsBufferedBytes : Prop :=
  ∀ (s t : State) (len : Nat), s.Inv → s.payload.length = len → s.tx.pp.busy = false →
    s.tx.free s.cfg.nTx.val < len → exec (.rbPut len) s = .next t →
    t.tx.pp.n = s.tx.free s.cfg.nTx.val ∧ t.tx.pp.n < len ∧ t.contents .tx = s.contents .tx ∧
    ∀ rest u, t.turns = .putEnd :: rest → step t = .next u →
      u.contents .tx = s.contents .tx ++ s.payload.take (s.tx.free s.cfg.nTx.val) ∧
        u.trace = s.trace ++ [.result .ok (BitVec.ofNat 32 (s.tx.free s.cfg.nTx.val))]

/-- A ring is a queue (R131, R132): of all steps only the producer's completion appends to its contents, with the bytes its
begin step stored; only the consumer's completion removes from them, from the front; only the two resets empty it. -/
def Obligations.RingRefinesAQueue : Prop :=
  ∀ (s t : State), s.Inv → step s = .next t →
    (s.turns.head? = some .putEnd → t.contents .tx = s.contents .tx ++ s.pendingBytes .tx) ∧
    ((∃ ok, s.turns.head? = some (.drainEnd ok)) → t.contents .rx = s.contents .rx ++ s.pendingBytes .rx) ∧
    (s.turns.head? = some .getEnd → t.contents .rx = (s.contents .rx).drop s.rx.cp.pending) ∧
    ((∃ ok, s.turns.head? = some (.fetchEnd ok)) → t.contents .tx = (s.contents .tx).drop s.tx.cp.pending) ∧
    (s.turns.head? ≠ some .putEnd → (∀ ok, s.turns.head? ≠ some (.fetchEnd ok)) →
      s.turns.head? ≠ some .reset → s.nextInstr ≠ some (.rbReset .tx) →
      t.contents .tx = s.contents .tx ∧ (s.tx.pp.busy = true → t.pendingBytes .tx = s.pendingBytes .tx)) ∧
    (s.turns.head? ≠ some .getEnd → (∀ ok, s.turns.head? ≠ some (.drainEnd ok)) →
      s.turns.head? ≠ some .reset → s.nextInstr ≠ some (.rbReset .rx) →
      t.contents .rx = s.contents .rx ∧ (s.rx.pp.busy = true → t.pendingBytes .rx = s.pendingBytes .rx))

/-- R188: over any run without a reset of the TX ring, what was buffered at the start and the bytes the completed `RB_PUT`s
commit, in order, are exactly the bytes of the `submit(OUT, ...)` symbols followed by what is still buffered: nothing
submitted twice, nothing skipped, nothing reordered. -/
def Obligations.SubmittedBytesAreTheAcceptedBytes : Prop :=
  ∀ (k : Nat) (s t : State), s.Inv → s.noReset .tx → Host.Core.run Sys2Proof.core k s = .next t →
    ∃ out, t.trace = s.trace ++ out ∧
      s.contents .tx ++ State.committed .tx k s = submittedBytes out ++ t.contents .tx

/-- R131 for the RX ring, with R162: over any run without a reset of the RX ring, what was buffered at the start and the bytes
the deliveries commit, in order, are exactly the bytes `RB_GET` returned followed by what is still buffered. -/
def Obligations.ReturnedBytesAreTheDeliveredBytes : Prop :=
  ∀ (k : Nat) (s t : State), s.Inv → s.noReset .rx → Host.Core.run Sys2Proof.core k s = .next t →
    ∃ out, t.trace = s.trace ++ out ∧
      s.contents .rx ++ State.committed .rx k s = returnedBytes out ++ t.contents .rx

/-- R134: a put that begins when `free` is `f` returns `min(len, f)` even if a `TXP.FETCH_END` frees space before it completes
(the run `RB_PUT`, `TXP.FETCH_END`, `RB_PUT.END`), and a get that begins at fill `f` returns `min(len, f)` even if a
`RXP.DRAIN_END` adds bytes before it completes (the run `RB_GET`, `RXP.DRAIN_END`, `RB_GET.END`). -/
def Obligations.StaleSnapshotGivesAShortCount : Prop :=
  (∀ (s t : State) (c : Command) (len : Nat) (ok : Bool) (rest : List Turn),
    s.Inv → s.presented = some c → decode c.word = .ok (.rbPut len) → c.data.length = len →
    s.tx.pp.busy = false → s.tx.cp.busy = true → 0 < s.tx.cp.n →
    s.turns = .command ok :: .fetchEnd ok :: .putEnd :: rest → Host.Core.run Sys2Proof.core 3 s = .next t →
    t.trace.getLast? = some (.result .ok (BitVec.ofNat 32 (min len (s.tx.free s.cfg.nTx.val)))) ∧
    t.tx.free s.cfg.nTx.val = s.tx.free s.cfg.nTx.val + s.tx.cp.n - min len (s.tx.free s.cfg.nTx.val)) ∧
  ∀ (s t : State) (c : Command) (len : Nat) (ok : Bool) (rest : List Turn),
    s.Inv → s.presented = some c → decode c.word = .ok (.rbGet len) → s.rx.cp.busy = false →
    s.rx.pp.busy = true → 0 < s.rx.pp.n →
    s.turns = .command ok :: .drainEnd ok :: .getEnd :: rest → Host.Core.run Sys2Proof.core 3 s = .next t →
    t.trace.getLast? = some (.resultData .ok (BitVec.ofNat 32 (min len (s.rx.fill s.cfg.nRx.val)))
      ((s.contents .rx).take len)) ∧
    t.rx.fill s.cfg.nRx.val = s.rx.fill s.cfg.nRx.val + s.rx.pp.n - min len (s.rx.fill s.cfg.nRx.val)

/-! ### The receive pump -/

/-- R151: `RXP_START`. -/
def Obligations.RxpStartArmsReception : Prop :=
  ∀ s : State,
    (s.rx.pp.busy = true → exec .rxpStart s = .next s) ∧
    (s.rx.pp.busy = false → s.rxpState = .idle → s.answer = true → exec .rxpStart s = .next { s with
      presented := none, rxPrev := 0, rxDone := false, rxpState := .receivePosted
      trace := s.trace ++ [.submit (.receive s.cfg.rxStage.val), .result .ok 0] }) ∧
    (s.rx.pp.busy = false → s.rxpState = .idle → s.answer = false → exec .rxpStart s = .next { s with
      presented := none, rxPrev := 0, rxDone := false
      trace := s.trace ++ [.submit (.receive s.cfg.rxStage.val), .result .notAttached 0] }) ∧
    (s.rx.pp.busy = false → s.rxpState = .receivePosted → exec .rxpStart s = .next { s with
      presented := none, trace := s.trace ++ [.result .ok 0] })

/-- R152: `RXP_STOP`. -/
def Obligations.RxpStopAbortsReception : Prop :=
  ∀ s : State,
    (s.rx.pp.busy = true → exec .rxpStop s = .next s) ∧
    (s.rx.pp.busy = false → s.rxpState = .receivePosted → exec .rxpStop s = .next { s with
      presented := none, rxpState := .idle, rxPrev := 0, rxDone := false
      trace := s.trace ++ [.abortIn, .result .ok 0] }) ∧
    (s.rx.pp.busy = false → s.rxpState = .idle → exec .rxpStop s = .next { s with
      presented := none, trace := s.trace ++ [.result .ok 0] })

/-- R153: `EV_IN_DATA` stores its byte at its position in every state; a position the buffer does not have stores nothing. -/
def Obligations.EvInDataStagesOneByte : Prop :=
  ∀ (s : State) (byte : Byte) (off : Nat),
    (s.cfg.rxStage.val ≤ off → exec (.evInData byte off) s = .next s) ∧
    (off < s.cfg.rxStage.val → ∃ t, exec (.evInData byte off) s = .next t ∧
      t.memRead .rxStg off = byte ∧ (∀ a, a ≠ off → t.memRead .rxStg a = s.memRead .rxStg a) ∧
      t = { s with rxStage := t.rxStage })

/-- R154: the idle detector, case by case. -/
def Obligations.EvTickDetectsAStalledCount : Prop :=
  ∀ (s : State) (count : Nat),
    (s.rxpState = .idle ∨ s.rx.pp.busy = true → exec (.evTick count) s = .next s) ∧
    (s.rxpState = .receivePosted → s.rx.pp.busy = false →
      (count ≠ s.rxPrev → exec (.evTick count) s = .next { s with rxPrev := count, rxDone := false }) ∧
      (count = s.rxPrev → count = 0 ∨ s.rxDone = true → exec (.evTick count) s = .next s) ∧
      (count = s.rxPrev → count ≠ 0 → s.rxDone = false →
        ∃ t, exec (.evTick count) s = .next t ∧ DeliveryBegun { s with rxDone := true } t count))

/-- R155: a completed bulk-IN transfer is delivered like a stalled one. -/
def Obligations.EvInDoneBeginsADelivery : Prop :=
  ∀ (s : State) (count : Nat),
    (s.rxpState = .idle ∨ s.rx.pp.busy = true → exec (.evInDone count) s = .next s) ∧
    (s.rxpState = .receivePosted → s.rx.pp.busy = false →
      ∃ t, exec (.evInDone count) s = .next t ∧
        DeliveryBegun { s with rxPrev := count, rxDone := true } t count)

/-- R156: a failed bulk-IN transfer. -/
def Obligations.EvInErrorIdlesTheRxPump : Prop :=
  ∀ s : State,
    (s.rxpState = .idle ∨ s.rx.pp.busy = true → exec .evInError s = .next s) ∧
    (s.rxpState = .receivePosted → s.rx.pp.busy = false → exec .evInError s = .next { s with
      rxpState := .idle, rxPrev := 0, rxDone := false, trace := s.trace ++ [.xferError .bulkIn] })

/-- R158: `RXP.DRAIN_END`: the write index moves, dropped bytes are counted with saturation, `rx_ready` is emitted if anything
was staged, and the pump re-arms, or becomes `Idle` if the transport refuses. That its turn passes when it is not enabled
(log 7), and that `rx_c` and the idle port's count keep their value (log 14), are the model's. -/
def Obligations.DrainEndCountsNotifiesAndRearms : Prop :=
  ∀ (s : State) (ok : Bool) (rest : List Turn), s.turns = .drainEnd ok :: rest →
    (s.rx.pp.busy = false → step s = .next { s with turns := rest, answer := ok }) ∧
    (s.rx.pp.busy = true → step s = .next { s with
      turns := rest
      answer := ok
      rx := { s.rx with
        wr := (s.rx.wr + s.rx.pp.n) % (2 * s.cfg.nRx.val)
        pp := ⟨false, s.rx.pp.n⟩ }
      rxDrop := if s.rx.pp.n < s.rxC then min (s.rxDrop + (s.rxC - s.rx.pp.n)) 0xFFFFFFFF else s.rxDrop
      rxpState := if ok then s.rxpState else .idle
      trace := s.trace ++ (if 0 < s.rxC then [.rxReady] else []) ++ [.submit (.receive s.cfg.rxStage.val)] })

/-- The source's scenario S2, for every count and every number of further ticks (R160): two ticks with the same non-zero count
and a drain give exactly one `rx_ready` and one re-arm and put the staged bytes that fit into the ring; all further ticks
with that count do nothing. -/
def Obligations.IdleFrameNotifiesExactlyOnce : Prop :=
  ∀ (s : State) (count k : Nat),
    s.Inv → s.rxpState = .receivePosted → s.rx.pp.busy = false → s.rxPrev ≠ count → count ≠ 0 → count < 65536 →
    s.turns = .event (encode (.evTick count)) :: .event (encode (.evTick count)) :: .drainEnd true ::
      List.replicate k (.event (encode (.evTick count))) →
    ∃ t, Host.Core.run Sys2Proof.core (k + 3) s = .next t ∧
      t.trace = s.trace ++ [.rxReady, .submit (.receive s.cfg.rxStage.val)] ∧
      t.contents .rx = s.contents .rx ++
        ((List.range (min count s.cfg.rxStage.val)).map (fun j => s.memRead .rxStg j)).take (s.rx.free s.cfg.nRx.val) ∧
      t.rxpState = .receivePosted ∧ t.rxDone = true ∧ t.turns = []

/-! ### The transmit pump -/

/-- R181: `TXP_KICK`, with the fetch begin of R185. -/
def Obligations.TxpKickBeginsAFetch : Prop :=
  ∀ s : State,
    (s.tx.cp.busy = true → exec .txpKick s = .next s) ∧
    (s.tx.cp.busy = false → s.txpState = .idle → exec .txpKick s = .next { s with
      presented := none
      tx := { s.tx with cp := ⟨true, min s.cfg.txChunk.val (s.tx.fill s.cfg.nTx.val)⟩ }
      trace := s.trace ++ [.result .ok 0] }) ∧
    (s.tx.cp.busy = false → s.txpState = .sendPosted → exec .txpKick s = .next { s with
      presented := none, trace := s.trace ++ [.result .ok 0] })

/-- R182: `TXP_STOP`. -/
def Obligations.TxpStopReleasesDefersOrRefuses : Prop :=
  ∀ s : State,
    (s.tx.cp.busy = true → exec .txpStop s = .next s) ∧
    (s.tx.cp.busy = false → s.txpState = .idle → exec .txpStop s = .next { s with
      presented := none, trace := s.trace ++ [.txReleased, .result .ok 0] }) ∧
    (s.tx.cp.busy = false → s.txpState = .sendPosted → s.cfg.delayedClose = true → exec .txpStop s = .next { s with
      presented := none, txStopPending := true, trace := s.trace ++ [.result .deferred 0] }) ∧
    (s.tx.cp.busy = false → s.txpState = .sendPosted → s.cfg.delayedClose = false → exec .txpStop s = .next { s with
      presented := none, trace := s.trace ++ [.result .busy 0] })

/-- R183: a completed bulk-OUT transfer, whatever count it reports. -/
def Obligations.EvOutDoneFetchesOrReleases : Prop :=
  ∀ (s : State) (count : Nat),
    (s.txpState = .idle ∨ s.tx.cp.busy = true → exec (.evOutDone count) s = .next s) ∧
    (s.txpState = .sendPosted → s.tx.cp.busy = false → s.txStopPending = true →
      exec (.evOutDone count) s = .next { s with
        txpState := .idle, txBusy := false, txCount := 0, txStopPending := false
        trace := s.trace ++ [.txReleased] }) ∧
    (s.txpState = .sendPosted → s.tx.cp.busy = false → s.txStopPending = false →
      exec (.evOutDone count) s = .next { s with
        tx := { s.tx with cp := ⟨true, min s.cfg.txChunk.val (s.tx.fill s.cfg.nTx.val)⟩ } })

/-- R184: a failed bulk-OUT transfer. -/
def Obligations.EvOutErrorIdlesTheTxPump : Prop :=
  ∀ s : State,
    (s.txpState = .idle ∨ s.tx.cp.busy = true → exec .evOutError s = .next s) ∧
    (s.txpState = .sendPosted → s.tx.cp.busy = false → s.txStopPending = false →
      exec .evOutError s = .next { s with
        txpState := .idle, txBusy := false, txCount := 0, trace := s.trace ++ [.xferError .bulkOut] }) ∧
    (s.txpState = .sendPosted → s.tx.cp.busy = false → s.txStopPending = true →
      exec .evOutError s = .next { s with
        txpState := .idle, txBusy := false, txCount := 0, txStopPending := false
        trace := s.trace ++ [.xferError .bulkOut, .txReleased] })

/-- R186: `TXP.FETCH_END`; a fetch in progress is of at most a chunk (which every fetch is): an empty one makes the pump `Idle`, with
`tx_done` exactly if a completion began it; otherwise the oldest bytes leave the ring, are staged and submitted, and the pump
is `SendPosted`, or `Idle` if the transport refuses. That its turn passes when it is not enabled (log 7), and that the idle port
keeps its count (log 14), are the model's. -/
def Obligations.FetchEndStagesAndSubmits : Prop :=
  ∀ (s : State) (ok : Bool) (rest : List Turn), s.turns = .fetchEnd ok :: rest →
    (s.tx.cp.busy = true → s.tx.cp.n ≤ s.cfg.txChunk.val) →
    let m := s.tx.cp.n
    let tx' := { s.tx with rd := (s.tx.rd + m) % (2 * s.cfg.nTx.val), cp := (⟨false, m⟩ : PortCtx) }
    (s.tx.cp.busy = false → step s = .next { s with turns := rest, answer := ok }) ∧
    (s.tx.cp.busy = true → m = 0 → step s = .next { s with
      turns := rest, answer := ok, tx := tx', txpState := .idle, txBusy := false, txCount := 0
      trace := s.trace ++ (if s.txpState = .sendPosted then [.txDone] else []) }) ∧
    (s.tx.cp.busy = true → m ≠ 0 → ∃ t data, step s = .next t ∧ data.length = m ∧
      (∀ k b, data[k]? = some b →
        b = s.memRead .txMem ((s.tx.rd + k) % s.cfg.nTx.val) ∧ t.memRead .txStg k = b) ∧
      (∀ a, m ≤ a → t.memRead .txStg a = s.memRead .txStg a) ∧
      t = { s with
        turns := rest
        answer := ok
        tx := tx'
        txStage := t.txStage
        txpState := if ok then .sendPosted else .idle
        txBusy := ok
        txCount := if ok then m else 0
        trace := s.trace ++ [.submit (.send m data)] })

/-- `tx_stage` is written only by `TXP.FETCH_END` (R75) and, made arbitrary, by `RESET`: never while a transfer is in flight
and no fetch has begun. -/
def Obligations.TxStageChangesOnlyAtFetchEnd : Prop :=
  ∀ s t : State, step s = .next t → t.txStage ≠ s.txStage →
    ((∃ ok, s.turns.head? = some (.fetchEnd ok)) ∧ s.tx.cp.busy = true ∧ 0 < s.tx.cp.n) ∨ s.turns.head? = some .reset

/-- R191: no `tx_released` while a transfer is in flight: a step that emits it ends the transfer by its terminal event, or finds
none in flight; and a `TXP_STOP` in between defers or fails. -/
def Obligations.ReleaseNeverPrecedesTheTerminalEvent : Prop :=
  (∀ (s t : State) (out : List Output), s.Inv → s.txpState = .sendPosted → step s = .next t → t.trace = s.trace ++ out →
    .txReleased ∈ out →
    s.txStopPending = true ∧ ((∃ n, s.nextInstr = some (.evOutDone n)) ∨ s.nextInstr = some .evOutError)) ∧
  (∀ s t : State, s.txpState = .sendPosted → s.tx.cp.busy = false → exec .txpStop s = .next t →
    t.trace = s.trace ++ [.result (if s.cfg.delayedClose then .deferred else .busy) 0])

/-- R189, bounded: with every submission accepted and every transfer completed, `k + 1` rounds of `EV_OUT_DONE` and
`TXP.FETCH_END` send a buffer of at most `k` chunks completely, in order, and end with exactly one `tx_done` and the pump
`Idle`. Rounds beyond those the buffer needs pass, which is the model's choice (log 7). -/
def Obligations.RoundsTransmitEveryBufferedByte : Prop :=
  ∀ (s : State) (k count : Nat),
    s.Inv → s.txpState = .sendPosted → s.tx.cp.busy = false → s.txStopPending = false → count < 65536 →
    s.tx.fill s.cfg.nTx.val ≤ k * s.cfg.txChunk.val →
    s.turns = (List.replicate (k + 1) [Turn.event (encode (.evOutDone count)), Turn.fetchEnd true]).flatten →
    ∃ t out, Host.Core.run Sys2Proof.core (2 * (k + 1)) s = .next t ∧ t.trace = s.trace ++ out ∧
      submittedBytes out = s.contents .tx ∧ out.count .txDone = 1 ∧ t.contents .tx = [] ∧
      t.txpState = .idle ∧ t.txBusy = false ∧ t.txCount = 0

/-- R189: in a weakly fair execution in normal operation every byte accepted by a `RB_PUT` is eventually submitted, and exactly
once: what is submitted is at every point a prefix of what was accepted, and everything accepted is at some point submitted. -/
def Obligations.AcceptedBytesAreEventuallySubmitted : Prop :=
  ∀ (inputs : Nat → Stimulus) (states : Nat → State), Execution inputs states → WeaklyFair inputs states →
    NormalTransmission inputs states → (states 0).Inv → (states 0).contents .tx = [] → (states 0).txStopPending = false →
    (∀ k, transmittedBytes states k <+: acceptedBytes inputs states k) ∧
    ∀ k, ∃ j, k ≤ j ∧ acceptedBytes inputs states k <+: transmittedBytes states j

/-! ### Status registers, unspecified values, pseudo-operations -/

/-- R43, R210: the seventeen status registers, each value exact in a state that meets the invariant; reading one changes no
state; a number above `0x10` is answered `ILLEGAL`. -/
def Obligations.RegReadReturnsTheRegister : Prop :=
  ∀ s : State, s.Inv →
    (∀ entry ∈ ([ (0x00, s.rx.wr), (0x01, s.rx.rd), (0x02, s.rx.fill s.cfg.nRx.val), (0x03, s.cfg.nRx.val),
        (0x04, s.tx.wr), (0x05, s.tx.rd), (0x06, s.tx.fill s.cfg.nTx.val), (0x07, s.cfg.nTx.val),
        (0x08, s.rx.pp.busy.toNat + 2 * s.rx.cp.busy.toNat + 4 * s.tx.pp.busy.toNat + 8 * s.tx.cp.busy.toNat),
        (0x09, (if s.rxpState = .receivePosted then 1 else 0) + 2 * s.rxDone.toNat),
        (0x0A, s.rxPrev), (0x0B, s.rxDrop),
        (0x0C, (if s.txpState = .sendPosted then 1 else 0) + 2 * s.txBusy.toNat + 4 * s.txStopPending.toNat),
        (0x0D, s.txCount), (0x0E, s.cfg.rxStage.val), (0x0F, s.cfg.txChunk.val),
        (0x10, s.cfg.delayedClose.toNat) ] : List (Nat × Nat)),
      ∃ v : Word, v.toNat = entry.2 ∧
        exec (.regRead entry.1) s = .next { s with presented := none, trace := s.trace ++ [.result .ok v] }) ∧
    ∀ idx, 0x10 < idx → exec (.regRead idx) s = .next { s with presented := none, trace := s.trace ++ [.result .illegal 0] }

/-- "An unspecified value is never observable before it is overwritten" (R50), the exception of R272 apart: in a state that
meets the invariant, the next step does not depend on the free bytes of unwritten positions, unless it begins a delivery that
copies a staging position the transport has not written. Free bytes are told apart by `epoch`, the model's own field (log 3):
changing it changes every free byte at once. -/
def Obligations.UnspecifiedBytesAreNeverObserved : Prop :=
  ∀ (s t : State) (e : Nat), s.Inv → step s = .next t → s.turns.head? ≠ some .reset →
    (∀ n, s.rxpState = .receivePosted → s.rx.pp.busy = false →
      (s.nextInstr = some (.evTick n) ∧ n = s.rxPrev ∧ n ≠ 0 ∧ s.rxDone = false ∨ s.nextInstr = some (.evInDone n)) →
      ∀ k, k < min (min n s.cfg.rxStage.val) (s.rx.free s.cfg.nRx.val) → (s.rxStage.read k).isSome = true) →
    step { s with epoch := e } = .next { t with epoch := e }

/-- The pseudo-operation `WRITE` (R104) on an idle transmit side: the put commits what fits, then the kick, after
`RB_PUT.END`, begins a fetch that sees those bytes. -/
def Obligations.WritePutsThenKicks : Prop :=
  ∀ (s : State) (data : List Byte) (later : List Command) (rest : List Turn),
    s.Inv → s.presented = none → s.host = writeCommands data ++ later → s.turns = writeTurns ++ rest →
    data.length < 65536 → s.tx.pp.busy = false → s.tx.cp.busy = false → s.txpState = .idle →
    let n := min data.length (s.tx.free s.cfg.nTx.val)
    ∃ t, Host.Core.run Sys2Proof.core 3 s = .next t ∧
      t.trace = s.trace ++ [.result .ok (BitVec.ofNat 32 n), .result .ok 0] ∧
      t.contents .tx = s.contents .tx ++ data.take n ∧
      t.tx.cp = ⟨true, min s.cfg.txChunk.val (s.tx.fill s.cfg.nTx.val + n)⟩ ∧
      t.host = later ∧ t.turns = rest

/-- The pseudo-operation `ATTACH` (R106) on a block whose ports are idle and whose RxPump is `Idle`: both rings empty, then
reception armed, or `NOT_ATTACHED` if the transport refuses. -/
def Obligations.AttachEmptiesRingsAndArms : Prop :=
  ∀ (s : State) (ok : Bool) (later : List Command) (rest : List Turn),
    s.presented = none → s.host = attachCommands ++ later →
    s.turns = .command ok :: .command ok :: .command ok :: rest →
    s.rx.pp.busy = false → s.rx.cp.busy = false → s.tx.pp.busy = false → s.tx.cp.busy = false → s.rxpState = .idle →
    ∃ t, Host.Core.run Sys2Proof.core 3 s = .next t ∧
      t.trace = s.trace ++ [.result .ok 0, .result .ok 0, .submit (.receive s.cfg.rxStage.val),
        .result (if ok then .ok else .notAttached) 0] ∧
      t.contents .rx = [] ∧ t.contents .tx = [] ∧ t.rxpState = (if ok then .receivePosted else .idle) ∧
      t.host = later ∧ t.turns = rest
end

