-- ==== Sys2Proof/Laws/Decode.lean ====
section
/-! SUPPORT. The fields of a word as numbers, and the fields of a word built from fields (30_encoding.md R91). -/

namespace Sys2Proof

theorem toNat_clsField (w : Word) : (clsField w).toNat = w.toNat / 2 ^ 28 % 16 := by
  simp [clsField, Nat.shiftRight_eq_div_pow]
theorem toNat_fnField (w : Word) : (fnField w).toNat = w.toNat / 2 ^ 24 % 16 := by
  simp [fnField, Nat.shiftRight_eq_div_pow]
theorem toNat_unitField (w : Word) : (unitField w).toNat = w.toNat / 2 ^ 20 % 16 := by
  simp [unitField, Nat.shiftRight_eq_div_pow]
theorem toNat_rsvField (w : Word) : (rsvField w).toNat = w.toNat / 2 ^ 16 % 16 := by
  simp [rsvField, Nat.shiftRight_eq_div_pow]
theorem toNat_byteField (w : Word) : (byteField w).toNat = w.toNat / 2 ^ 16 % 256 := by
  simp [byteField, Nat.shiftRight_eq_div_pow]
theorem argField_eq (w : Word) : argField w = w.toNat % 65536 := by
  simp [argField]

theorem argField_lt (w : Word) : argField w < 65536 := by
  rw [argField_eq]
  exact Nat.mod_lt _ (by decide)

/-- A word built from fields, as a number. -/
theorem toNat_wordOf (c f u r : BitVec 4) (a : BitVec 16) :
    (wordOf c f u r a).toNat =
      c.toNat * 2 ^ 28 + (f.toNat * 2 ^ 24 + (u.toNat * 2 ^ 20 + (r.toNat * 2 ^ 16 + a.toNat))) := by
  have hf := f.isLt
  have hu := u.isLt
  have hr := r.isLt
  have ha := a.isLt
  have h3 : (r.toNat <<< 16 ||| a.toNat) = r.toNat * 2 ^ 16 + a.toNat := by
    rw [← Nat.shiftLeft_add_eq_or_of_lt ha, Nat.shiftLeft_eq]
  have h2 : (u.toNat <<< (4 + 16) ||| (r.toNat * 2 ^ 16 + a.toNat)) = u.toNat * 2 ^ 20 + (r.toNat * 2 ^ 16 + a.toNat) := by
    rw [← Nat.shiftLeft_add_eq_or_of_lt (by omega), Nat.shiftLeft_eq]
  have h1 : (f.toNat <<< (4 + (4 + 16)) ||| (u.toNat * 2 ^ 20 + (r.toNat * 2 ^ 16 + a.toNat))) =
      f.toNat * 2 ^ 24 + (u.toNat * 2 ^ 20 + (r.toNat * 2 ^ 16 + a.toNat)) := by
    rw [← Nat.shiftLeft_add_eq_or_of_lt (by omega), Nat.shiftLeft_eq]
  simp only [wordOf, BitVec.toNat_cast, BitVec.toNat_append]
  rw [h3, h2, h1, ← Nat.shiftLeft_add_eq_or_of_lt (by omega), Nat.shiftLeft_eq]

@[simp] theorem clsField_wordOf (c f u r : BitVec 4) (a : BitVec 16) : clsField (wordOf c f u r a) = c := by
  have := c.isLt; have := f.isLt; have := u.isLt; have := r.isLt; have := a.isLt
  apply BitVec.eq_of_toNat_eq
  rw [toNat_clsField, toNat_wordOf]
  omega
@[simp] theorem fnField_wordOf (c f u r : BitVec 4) (a : BitVec 16) : fnField (wordOf c f u r a) = f := by
  have := c.isLt; have := f.isLt; have := u.isLt; have := r.isLt; have := a.isLt
  apply BitVec.eq_of_toNat_eq
  rw [toNat_fnField, toNat_wordOf]
  omega
@[simp] theorem unitField_wordOf (c f u r : BitVec 4) (a : BitVec 16) : unitField (wordOf c f u r a) = u := by
  have := c.isLt; have := f.isLt; have := u.isLt; have := r.isLt; have := a.isLt
  apply BitVec.eq_of_toNat_eq
  rw [toNat_unitField, toNat_wordOf]
  omega
@[simp] theorem rsvField_wordOf (c f u r : BitVec 4) (a : BitVec 16) : rsvField (wordOf c f u r a) = r := by
  have := c.isLt; have := f.isLt; have := u.isLt; have := r.isLt; have := a.isLt
  apply BitVec.eq_of_toNat_eq
  rw [toNat_rsvField, toNat_wordOf]
  omega
@[simp] theorem argField_wordOf (c f u r : BitVec 4) (a : BitVec 16) : argField (wordOf c f u r a) = a.toNat := by
  have := a.isLt
  rw [argField_eq, toNat_wordOf]
  omega
@[simp] theorem byteField_wordOf (c f u r : BitVec 4) (a : BitVec 16) :
    (byteField (wordOf c f u r a)).toNat = u.toNat * 16 + r.toNat := by
  have := u.isLt; have := r.isLt; have := a.isLt
  rw [toNat_byteField, toNat_wordOf]
  omega

/-- Every word is the word of its fields. -/
theorem wordOf_fields (w : Word) :
    wordOf (clsField w) (fnField w) (unitField w) (rsvField w) (BitVec.ofNat 16 (argField w)) = w := by
  apply BitVec.eq_of_toNat_eq
  have := w.isLt
  rw [toNat_wordOf, toNat_clsField, toNat_fnField, toNat_unitField, toNat_rsvField, argField_eq, BitVec.toNat_ofNat]
  omega

@[simp] theorem ringOfUnit_unitOfRing (r : Ring) : ringOfUnit (unitOfRing r) = some r := by
  cases r <;> rfl

end Sys2Proof
end

