-- ==== Sys2Proof/Laws/State.lean ====
section
/-! SUPPORT. One lemma per field per update of State, so that no later proof unfolds a record update; and what each ring
primitive leaves of each field of a ring. -/

namespace Sys2Proof.Machine

@[simp] theorem State.emit_cfg (s : State) (x : Output) : (s.emit x).cfg = s.cfg := rfl
@[simp] theorem State.emit_rx (s : State) (x : Output) : (s.emit x).rx = s.rx := rfl
@[simp] theorem State.emit_tx (s : State) (x : Output) : (s.emit x).tx = s.tx := rfl
@[simp] theorem State.emit_rxpState (s : State) (x : Output) : (s.emit x).rxpState = s.rxpState := rfl
@[simp] theorem State.emit_rxStage (s : State) (x : Output) : (s.emit x).rxStage = s.rxStage := rfl
@[simp] theorem State.emit_rxPrev (s : State) (x : Output) : (s.emit x).rxPrev = s.rxPrev := rfl
@[simp] theorem State.emit_rxDone (s : State) (x : Output) : (s.emit x).rxDone = s.rxDone := rfl
@[simp] theorem State.emit_rxC (s : State) (x : Output) : (s.emit x).rxC = s.rxC := rfl
@[simp] theorem State.emit_rxDrop (s : State) (x : Output) : (s.emit x).rxDrop = s.rxDrop := rfl
@[simp] theorem State.emit_txpState (s : State) (x : Output) : (s.emit x).txpState = s.txpState := rfl
@[simp] theorem State.emit_txStage (s : State) (x : Output) : (s.emit x).txStage = s.txStage := rfl
@[simp] theorem State.emit_txCount (s : State) (x : Output) : (s.emit x).txCount = s.txCount := rfl
@[simp] theorem State.emit_txBusy (s : State) (x : Output) : (s.emit x).txBusy = s.txBusy := rfl
@[simp] theorem State.emit_txStopPending (s : State) (x : Output) : (s.emit x).txStopPending = s.txStopPending := rfl
@[simp] theorem State.emit_presented (s : State) (x : Output) : (s.emit x).presented = s.presented := rfl
@[simp] theorem State.emit_host (s : State) (x : Output) : (s.emit x).host = s.host := rfl
@[simp] theorem State.emit_turns (s : State) (x : Output) : (s.emit x).turns = s.turns := rfl
@[simp] theorem State.emit_answer (s : State) (x : Output) : (s.emit x).answer = s.answer := rfl
@[simp] theorem State.emit_epoch (s : State) (x : Output) : (s.emit x).epoch = s.epoch := rfl
@[simp] theorem State.emit_trace (s : State) (x : Output) : (s.emit x).trace = s.trace ++ [x] := rfl

@[simp] theorem State.result_cfg (s : State) (st : Status) (v : Word) : (s.result st v).cfg = s.cfg := rfl
@[simp] theorem State.result_rx (s : State) (st : Status) (v : Word) : (s.result st v).rx = s.rx := rfl
@[simp] theorem State.result_tx (s : State) (st : Status) (v : Word) : (s.result st v).tx = s.tx := rfl
@[simp] theorem State.result_rxpState (s : State) (st : Status) (v : Word) : (s.result st v).rxpState = s.rxpState := rfl
@[simp] theorem State.result_rxStage (s : State) (st : Status) (v : Word) : (s.result st v).rxStage = s.rxStage := rfl
@[simp] theorem State.result_rxPrev (s : State) (st : Status) (v : Word) : (s.result st v).rxPrev = s.rxPrev := rfl
@[simp] theorem State.result_rxDone (s : State) (st : Status) (v : Word) : (s.result st v).rxDone = s.rxDone := rfl
@[simp] theorem State.result_rxC (s : State) (st : Status) (v : Word) : (s.result st v).rxC = s.rxC := rfl
@[simp] theorem State.result_rxDrop (s : State) (st : Status) (v : Word) : (s.result st v).rxDrop = s.rxDrop := rfl
@[simp] theorem State.result_txpState (s : State) (st : Status) (v : Word) : (s.result st v).txpState = s.txpState := rfl
@[simp] theorem State.result_txStage (s : State) (st : Status) (v : Word) : (s.result st v).txStage = s.txStage := rfl
@[simp] theorem State.result_txCount (s : State) (st : Status) (v : Word) : (s.result st v).txCount = s.txCount := rfl
@[simp] theorem State.result_txBusy (s : State) (st : Status) (v : Word) : (s.result st v).txBusy = s.txBusy := rfl
@[simp] theorem State.result_txStopPending (s : State) (st : Status) (v : Word) : (s.result st v).txStopPending = s.txStopPending := rfl
@[simp] theorem State.result_presented (s : State) (st : Status) (v : Word) : (s.result st v).presented = s.presented := rfl
@[simp] theorem State.result_host (s : State) (st : Status) (v : Word) : (s.result st v).host = s.host := rfl
@[simp] theorem State.result_turns (s : State) (st : Status) (v : Word) : (s.result st v).turns = s.turns := rfl
@[simp] theorem State.result_answer (s : State) (st : Status) (v : Word) : (s.result st v).answer = s.answer := rfl
@[simp] theorem State.result_epoch (s : State) (st : Status) (v : Word) : (s.result st v).epoch = s.epoch := rfl
@[simp] theorem State.result_trace (s : State) (st : Status) (v : Word) : (s.result st v).trace = s.trace ++ [.result st v] := rfl

@[simp] theorem State.submit_cfg (s : State) (x : Transfer) : (s.submit x).cfg = s.cfg := rfl
@[simp] theorem State.submit_rx (s : State) (x : Transfer) : (s.submit x).rx = s.rx := rfl
@[simp] theorem State.submit_tx (s : State) (x : Transfer) : (s.submit x).tx = s.tx := rfl
@[simp] theorem State.submit_rxpState (s : State) (x : Transfer) : (s.submit x).rxpState = s.rxpState := rfl
@[simp] theorem State.submit_rxStage (s : State) (x : Transfer) : (s.submit x).rxStage = s.rxStage := rfl
@[simp] theorem State.submit_rxPrev (s : State) (x : Transfer) : (s.submit x).rxPrev = s.rxPrev := rfl
@[simp] theorem State.submit_rxDone (s : State) (x : Transfer) : (s.submit x).rxDone = s.rxDone := rfl
@[simp] theorem State.submit_rxC (s : State) (x : Transfer) : (s.submit x).rxC = s.rxC := rfl
@[simp] theorem State.submit_rxDrop (s : State) (x : Transfer) : (s.submit x).rxDrop = s.rxDrop := rfl
@[simp] theorem State.submit_txpState (s : State) (x : Transfer) : (s.submit x).txpState = s.txpState := rfl
@[simp] theorem State.submit_txStage (s : State) (x : Transfer) : (s.submit x).txStage = s.txStage := rfl
@[simp] theorem State.submit_txCount (s : State) (x : Transfer) : (s.submit x).txCount = s.txCount := rfl
@[simp] theorem State.submit_txBusy (s : State) (x : Transfer) : (s.submit x).txBusy = s.txBusy := rfl
@[simp] theorem State.submit_txStopPending (s : State) (x : Transfer) : (s.submit x).txStopPending = s.txStopPending := rfl
@[simp] theorem State.submit_presented (s : State) (x : Transfer) : (s.submit x).presented = s.presented := rfl
@[simp] theorem State.submit_host (s : State) (x : Transfer) : (s.submit x).host = s.host := rfl
@[simp] theorem State.submit_turns (s : State) (x : Transfer) : (s.submit x).turns = s.turns := rfl
@[simp] theorem State.submit_answer (s : State) (x : Transfer) : (s.submit x).answer = s.answer := rfl
@[simp] theorem State.submit_epoch (s : State) (x : Transfer) : (s.submit x).epoch = s.epoch := rfl
@[simp] theorem State.submit_trace (s : State) (x : Transfer) : (s.submit x).trace = s.trace ++ [.submit x] := rfl

@[simp] theorem State.accept_cfg (s : State) : (s.accept).cfg = s.cfg := rfl
@[simp] theorem State.accept_rx (s : State) : (s.accept).rx = s.rx := rfl
@[simp] theorem State.accept_tx (s : State) : (s.accept).tx = s.tx := rfl
@[simp] theorem State.accept_rxpState (s : State) : (s.accept).rxpState = s.rxpState := rfl
@[simp] theorem State.accept_rxStage (s : State) : (s.accept).rxStage = s.rxStage := rfl
@[simp] theorem State.accept_rxPrev (s : State) : (s.accept).rxPrev = s.rxPrev := rfl
@[simp] theorem State.accept_rxDone (s : State) : (s.accept).rxDone = s.rxDone := rfl
@[simp] theorem State.accept_rxC (s : State) : (s.accept).rxC = s.rxC := rfl
@[simp] theorem State.accept_rxDrop (s : State) : (s.accept).rxDrop = s.rxDrop := rfl
@[simp] theorem State.accept_txpState (s : State) : (s.accept).txpState = s.txpState := rfl
@[simp] theorem State.accept_txStage (s : State) : (s.accept).txStage = s.txStage := rfl
@[simp] theorem State.accept_txCount (s : State) : (s.accept).txCount = s.txCount := rfl
@[simp] theorem State.accept_txBusy (s : State) : (s.accept).txBusy = s.txBusy := rfl
@[simp] theorem State.accept_txStopPending (s : State) : (s.accept).txStopPending = s.txStopPending := rfl
@[simp] theorem State.accept_presented (s : State) : (s.accept).presented = none := rfl
@[simp] theorem State.accept_host (s : State) : (s.accept).host = s.host := rfl
@[simp] theorem State.accept_turns (s : State) : (s.accept).turns = s.turns := rfl
@[simp] theorem State.accept_answer (s : State) : (s.accept).answer = s.answer := rfl
@[simp] theorem State.accept_epoch (s : State) : (s.accept).epoch = s.epoch := rfl
@[simp] theorem State.accept_trace (s : State) : (s.accept).trace = s.trace := rfl

@[simp] theorem State.setRing_rx_cfg (s : State) (q : RingState) : (s.setRing .rx q).cfg = s.cfg := rfl
@[simp] theorem State.setRing_rx_rx (s : State) (q : RingState) : (s.setRing .rx q).rx = q := rfl
@[simp] theorem State.setRing_rx_tx (s : State) (q : RingState) : (s.setRing .rx q).tx = s.tx := rfl
@[simp] theorem State.setRing_rx_rxpState (s : State) (q : RingState) : (s.setRing .rx q).rxpState = s.rxpState := rfl
@[simp] theorem State.setRing_rx_rxStage (s : State) (q : RingState) : (s.setRing .rx q).rxStage = s.rxStage := rfl
@[simp] theorem State.setRing_rx_rxPrev (s : State) (q : RingState) : (s.setRing .rx q).rxPrev = s.rxPrev := rfl
@[simp] theorem State.setRing_rx_rxDone (s : State) (q : RingState) : (s.setRing .rx q).rxDone = s.rxDone := rfl
@[simp] theorem State.setRing_rx_rxC (s : State) (q : RingState) : (s.setRing .rx q).rxC = s.rxC := rfl
@[simp] theorem State.setRing_rx_rxDrop (s : State) (q : RingState) : (s.setRing .rx q).rxDrop = s.rxDrop := rfl
@[simp] theorem State.setRing_rx_txpState (s : State) (q : RingState) : (s.setRing .rx q).txpState = s.txpState := rfl
@[simp] theorem State.setRing_rx_txStage (s : State) (q : RingState) : (s.setRing .rx q).txStage = s.txStage := rfl
@[simp] theorem State.setRing_rx_txCount (s : State) (q : RingState) : (s.setRing .rx q).txCount = s.txCount := rfl
@[simp] theorem State.setRing_rx_txBusy (s : State) (q : RingState) : (s.setRing .rx q).txBusy = s.txBusy := rfl
@[simp] theorem State.setRing_rx_txStopPending (s : State) (q : RingState) : (s.setRing .rx q).txStopPending = s.txStopPending := rfl
@[simp] theorem State.setRing_rx_presented (s : State) (q : RingState) : (s.setRing .rx q).presented = s.presented := rfl
@[simp] theorem State.setRing_rx_host (s : State) (q : RingState) : (s.setRing .rx q).host = s.host := rfl
@[simp] theorem State.setRing_rx_turns (s : State) (q : RingState) : (s.setRing .rx q).turns = s.turns := rfl
@[simp] theorem State.setRing_rx_answer (s : State) (q : RingState) : (s.setRing .rx q).answer = s.answer := rfl
@[simp] theorem State.setRing_rx_epoch (s : State) (q : RingState) : (s.setRing .rx q).epoch = s.epoch := rfl
@[simp] theorem State.setRing_rx_trace (s : State) (q : RingState) : (s.setRing .rx q).trace = s.trace := rfl

@[simp] theorem State.setRing_tx_cfg (s : State) (q : RingState) : (s.setRing .tx q).cfg = s.cfg := rfl
@[simp] theorem State.setRing_tx_rx (s : State) (q : RingState) : (s.setRing .tx q).rx = s.rx := rfl
@[simp] theorem State.setRing_tx_tx (s : State) (q : RingState) : (s.setRing .tx q).tx = q := rfl
@[simp] theorem State.setRing_tx_rxpState (s : State) (q : RingState) : (s.setRing .tx q).rxpState = s.rxpState := rfl
@[simp] theorem State.setRing_tx_rxStage (s : State) (q : RingState) : (s.setRing .tx q).rxStage = s.rxStage := rfl
@[simp] theorem State.setRing_tx_rxPrev (s : State) (q : RingState) : (s.setRing .tx q).rxPrev = s.rxPrev := rfl
@[simp] theorem State.setRing_tx_rxDone (s : State) (q : RingState) : (s.setRing .tx q).rxDone = s.rxDone := rfl
@[simp] theorem State.setRing_tx_rxC (s : State) (q : RingState) : (s.setRing .tx q).rxC = s.rxC := rfl
@[simp] theorem State.setRing_tx_rxDrop (s : State) (q : RingState) : (s.setRing .tx q).rxDrop = s.rxDrop := rfl
@[simp] theorem State.setRing_tx_txpState (s : State) (q : RingState) : (s.setRing .tx q).txpState = s.txpState := rfl
@[simp] theorem State.setRing_tx_txStage (s : State) (q : RingState) : (s.setRing .tx q).txStage = s.txStage := rfl
@[simp] theorem State.setRing_tx_txCount (s : State) (q : RingState) : (s.setRing .tx q).txCount = s.txCount := rfl
@[simp] theorem State.setRing_tx_txBusy (s : State) (q : RingState) : (s.setRing .tx q).txBusy = s.txBusy := rfl
@[simp] theorem State.setRing_tx_txStopPending (s : State) (q : RingState) : (s.setRing .tx q).txStopPending = s.txStopPending := rfl
@[simp] theorem State.setRing_tx_presented (s : State) (q : RingState) : (s.setRing .tx q).presented = s.presented := rfl
@[simp] theorem State.setRing_tx_host (s : State) (q : RingState) : (s.setRing .tx q).host = s.host := rfl
@[simp] theorem State.setRing_tx_turns (s : State) (q : RingState) : (s.setRing .tx q).turns = s.turns := rfl
@[simp] theorem State.setRing_tx_answer (s : State) (q : RingState) : (s.setRing .tx q).answer = s.answer := rfl
@[simp] theorem State.setRing_tx_epoch (s : State) (q : RingState) : (s.setRing .tx q).epoch = s.epoch := rfl
@[simp] theorem State.setRing_tx_trace (s : State) (q : RingState) : (s.setRing .tx q).trace = s.trace := rfl

@[simp] theorem State.clearDetector_cfg (s : State) : (s.clearDetector).cfg = s.cfg := rfl
@[simp] theorem State.clearDetector_rx (s : State) : (s.clearDetector).rx = s.rx := rfl
@[simp] theorem State.clearDetector_tx (s : State) : (s.clearDetector).tx = s.tx := rfl
@[simp] theorem State.clearDetector_rxpState (s : State) : (s.clearDetector).rxpState = s.rxpState := rfl
@[simp] theorem State.clearDetector_rxStage (s : State) : (s.clearDetector).rxStage = s.rxStage := rfl
@[simp] theorem State.clearDetector_rxPrev (s : State) : (s.clearDetector).rxPrev = 0 := rfl
@[simp] theorem State.clearDetector_rxDone (s : State) : (s.clearDetector).rxDone = false := rfl
@[simp] theorem State.clearDetector_rxC (s : State) : (s.clearDetector).rxC = s.rxC := rfl
@[simp] theorem State.clearDetector_rxDrop (s : State) : (s.clearDetector).rxDrop = s.rxDrop := rfl
@[simp] theorem State.clearDetector_txpState (s : State) : (s.clearDetector).txpState = s.txpState := rfl
@[simp] theorem State.clearDetector_txStage (s : State) : (s.clearDetector).txStage = s.txStage := rfl
@[simp] theorem State.clearDetector_txCount (s : State) : (s.clearDetector).txCount = s.txCount := rfl
@[simp] theorem State.clearDetector_txBusy (s : State) : (s.clearDetector).txBusy = s.txBusy := rfl
@[simp] theorem State.clearDetector_txStopPending (s : State) : (s.clearDetector).txStopPending = s.txStopPending := rfl
@[simp] theorem State.clearDetector_presented (s : State) : (s.clearDetector).presented = s.presented := rfl
@[simp] theorem State.clearDetector_host (s : State) : (s.clearDetector).host = s.host := rfl
@[simp] theorem State.clearDetector_turns (s : State) : (s.clearDetector).turns = s.turns := rfl
@[simp] theorem State.clearDetector_answer (s : State) : (s.clearDetector).answer = s.answer := rfl
@[simp] theorem State.clearDetector_epoch (s : State) : (s.clearDetector).epoch = s.epoch := rfl
@[simp] theorem State.clearDetector_trace (s : State) : (s.clearDetector).trace = s.trace := rfl

@[simp] theorem State.rxpToIdle_cfg (s : State) : (s.rxpToIdle).cfg = s.cfg := rfl
@[simp] theorem State.rxpToIdle_rx (s : State) : (s.rxpToIdle).rx = s.rx := rfl
@[simp] theorem State.rxpToIdle_tx (s : State) : (s.rxpToIdle).tx = s.tx := rfl
@[simp] theorem State.rxpToIdle_rxpState (s : State) : (s.rxpToIdle).rxpState = .idle := rfl
@[simp] theorem State.rxpToIdle_rxStage (s : State) : (s.rxpToIdle).rxStage = s.rxStage := rfl
@[simp] theorem State.rxpToIdle_rxPrev (s : State) : (s.rxpToIdle).rxPrev = 0 := rfl
@[simp] theorem State.rxpToIdle_rxDone (s : State) : (s.rxpToIdle).rxDone = false := rfl
@[simp] theorem State.rxpToIdle_rxC (s : State) : (s.rxpToIdle).rxC = s.rxC := rfl
@[simp] theorem State.rxpToIdle_rxDrop (s : State) : (s.rxpToIdle).rxDrop = s.rxDrop := rfl
@[simp] theorem State.rxpToIdle_txpState (s : State) : (s.rxpToIdle).txpState = s.txpState := rfl
@[simp] theorem State.rxpToIdle_txStage (s : State) : (s.rxpToIdle).txStage = s.txStage := rfl
@[simp] theorem State.rxpToIdle_txCount (s : State) : (s.rxpToIdle).txCount = s.txCount := rfl
@[simp] theorem State.rxpToIdle_txBusy (s : State) : (s.rxpToIdle).txBusy = s.txBusy := rfl
@[simp] theorem State.rxpToIdle_txStopPending (s : State) : (s.rxpToIdle).txStopPending = s.txStopPending := rfl
@[simp] theorem State.rxpToIdle_presented (s : State) : (s.rxpToIdle).presented = s.presented := rfl
@[simp] theorem State.rxpToIdle_host (s : State) : (s.rxpToIdle).host = s.host := rfl
@[simp] theorem State.rxpToIdle_turns (s : State) : (s.rxpToIdle).turns = s.turns := rfl
@[simp] theorem State.rxpToIdle_answer (s : State) : (s.rxpToIdle).answer = s.answer := rfl
@[simp] theorem State.rxpToIdle_epoch (s : State) : (s.rxpToIdle).epoch = s.epoch := rfl
@[simp] theorem State.rxpToIdle_trace (s : State) : (s.rxpToIdle).trace = s.trace := rfl

@[simp] theorem State.txpToIdle_cfg (s : State) : (s.txpToIdle).cfg = s.cfg := rfl
@[simp] theorem State.txpToIdle_rx (s : State) : (s.txpToIdle).rx = s.rx := rfl
@[simp] theorem State.txpToIdle_tx (s : State) : (s.txpToIdle).tx = s.tx := rfl
@[simp] theorem State.txpToIdle_rxpState (s : State) : (s.txpToIdle).rxpState = s.rxpState := rfl
@[simp] theorem State.txpToIdle_rxStage (s : State) : (s.txpToIdle).rxStage = s.rxStage := rfl
@[simp] theorem State.txpToIdle_rxPrev (s : State) : (s.txpToIdle).rxPrev = s.rxPrev := rfl
@[simp] theorem State.txpToIdle_rxDone (s : State) : (s.txpToIdle).rxDone = s.rxDone := rfl
@[simp] theorem State.txpToIdle_rxC (s : State) : (s.txpToIdle).rxC = s.rxC := rfl
@[simp] theorem State.txpToIdle_rxDrop (s : State) : (s.txpToIdle).rxDrop = s.rxDrop := rfl
@[simp] theorem State.txpToIdle_txpState (s : State) : (s.txpToIdle).txpState = .idle := rfl
@[simp] theorem State.txpToIdle_txStage (s : State) : (s.txpToIdle).txStage = s.txStage := rfl
@[simp] theorem State.txpToIdle_txCount (s : State) : (s.txpToIdle).txCount = 0 := rfl
@[simp] theorem State.txpToIdle_txBusy (s : State) : (s.txpToIdle).txBusy = false := rfl
@[simp] theorem State.txpToIdle_txStopPending (s : State) : (s.txpToIdle).txStopPending = s.txStopPending := rfl
@[simp] theorem State.txpToIdle_presented (s : State) : (s.txpToIdle).presented = s.presented := rfl
@[simp] theorem State.txpToIdle_host (s : State) : (s.txpToIdle).host = s.host := rfl
@[simp] theorem State.txpToIdle_turns (s : State) : (s.txpToIdle).turns = s.turns := rfl
@[simp] theorem State.txpToIdle_answer (s : State) : (s.txpToIdle).answer = s.answer := rfl
@[simp] theorem State.txpToIdle_epoch (s : State) : (s.txpToIdle).epoch = s.epoch := rfl
@[simp] theorem State.txpToIdle_trace (s : State) : (s.txpToIdle).trace = s.trace := rfl

/-! ### The ring primitives -/

@[simp] theorem RingState.putEnd_mem (q : RingState) (N : Nat) : (q.putEnd N).mem = q.mem := rfl
@[simp] theorem RingState.putEnd_wr (q : RingState) (N : Nat) : (q.putEnd N).wr = advance N q.wr q.pp.n := rfl
@[simp] theorem RingState.putEnd_rd (q : RingState) (N : Nat) : (q.putEnd N).rd = q.rd := rfl
@[simp] theorem RingState.putEnd_pp (q : RingState) (N : Nat) : (q.putEnd N).pp = ⟨false, q.pp.n⟩ := rfl
@[simp] theorem RingState.putEnd_cp (q : RingState) (N : Nat) : (q.putEnd N).cp = q.cp := rfl

@[simp] theorem RingState.getBegin_mem (q : RingState) (N len : Nat) : (q.getBegin N len).mem = q.mem := rfl
@[simp] theorem RingState.getBegin_wr (q : RingState) (N len : Nat) : (q.getBegin N len).wr = q.wr := rfl
@[simp] theorem RingState.getBegin_rd (q : RingState) (N len : Nat) : (q.getBegin N len).rd = q.rd := rfl
@[simp] theorem RingState.getBegin_pp (q : RingState) (N len : Nat) : (q.getBegin N len).pp = q.pp := rfl
@[simp] theorem RingState.getBegin_cp (q : RingState) (N len : Nat) : (q.getBegin N len).cp = ⟨true, min len (q.fill N)⟩ := rfl

@[simp] theorem RingState.getEnd_mem (q : RingState) (N : Nat) : (q.getEnd N).mem = q.mem := rfl
@[simp] theorem RingState.getEnd_wr (q : RingState) (N : Nat) : (q.getEnd N).wr = q.wr := rfl
@[simp] theorem RingState.getEnd_rd (q : RingState) (N : Nat) : (q.getEnd N).rd = advance N q.rd q.cp.n := rfl
@[simp] theorem RingState.getEnd_pp (q : RingState) (N : Nat) : (q.getEnd N).pp = q.pp := rfl
@[simp] theorem RingState.getEnd_cp (q : RingState) (N : Nat) : (q.getEnd N).cp = ⟨false, q.cp.n⟩ := rfl

@[simp] theorem RingState.putBegin_mem (q : RingState) (N : Nat) (src : List Byte) (len : Nat) : (q.putBegin N src len).mem = Memory.copyTo (pos N q.wr) 0 (src.take (min len (q.free N))) q.mem := rfl
@[simp] theorem RingState.putBegin_wr (q : RingState) (N : Nat) (src : List Byte) (len : Nat) : (q.putBegin N src len).wr = q.wr := rfl
@[simp] theorem RingState.putBegin_rd (q : RingState) (N : Nat) (src : List Byte) (len : Nat) : (q.putBegin N src len).rd = q.rd := rfl
@[simp] theorem RingState.putBegin_pp (q : RingState) (N : Nat) (src : List Byte) (len : Nat) : (q.putBegin N src len).pp = ⟨true, min len (q.free N)⟩ := rfl
@[simp] theorem RingState.putBegin_cp (q : RingState) (N : Nat) (src : List Byte) (len : Nat) : (q.putBegin N src len).cp = q.cp := rfl

/-! ### The accessors -/

@[simp] theorem State.ring_rx (s : State) : s.ring .rx = s.rx := rfl
@[simp] theorem State.ring_tx (s : State) : s.ring .tx = s.tx := rfl
@[simp] theorem State.space_rxMem (s : State) : s.space .rxMem = s.rx.mem := rfl
@[simp] theorem State.space_txMem (s : State) : s.space .txMem = s.tx.mem := rfl
@[simp] theorem State.space_rxStg (s : State) : s.space .rxStg = s.rxStage := rfl
@[simp] theorem State.space_txStg (s : State) : s.space .txStg = s.txStage := rfl
@[simp] theorem State.cap_rx (s : State) : s.cap .rx = s.cfg.nRx.val := rfl
@[simp] theorem State.cap_tx (s : State) : s.cap .tx = s.cfg.nTx.val := rfl
@[simp] theorem spaceOf_rx : spaceOf .rx = .rxMem := rfl
@[simp] theorem spaceOf_tx : spaceOf .tx = .txMem := rfl

theorem State.putBegin_eq (s : State) (r : Ring) (src : List Byte) (len : Nat) :
    s.putBegin r src len = s.setRing r ((s.ring r).putBegin (s.cap r) src len) := rfl
theorem State.putEnd_eq (s : State) (r : Ring) : s.putEnd r = s.setRing r ((s.ring r).putEnd (s.cap r)) := rfl
theorem State.getBegin_eq (s : State) (r : Ring) (len : Nat) :
    s.getBegin r len = s.setRing r ((s.ring r).getBegin (s.cap r) len) := rfl
theorem State.getEnd_eq (s : State) (r : Ring) : s.getEnd r = s.setRing r ((s.ring r).getEnd (s.cap r)) := rfl

@[simp] theorem State.ring_setRing_same (s : State) (r : Ring) (q : RingState) : (s.setRing r q).ring r = q := by
  cases r <;> rfl
@[simp] theorem State.cap_setRing (s : State) (r r' : Ring) (q : RingState) : (s.setRing r q).cap r' = s.cap r' := by
  cases r <;> rfl

/-- A byte read depends only on its space and the reset epoch. -/
theorem State.memRead_congr {s t : State} {sp : Space} (hm : t.space sp = s.space sp) (he : t.epoch = s.epoch) (a : Nat) :
    t.memRead sp a = s.memRead sp a := by
  simp [State.memRead, hm, he]

/-- Where something has been written, a read returns it. -/
theorem State.memRead_of_read {s : State} {sp : Space} {a : Nat} {b : Byte} (h : Memory.read (s.space sp) a = some b) :
    s.memRead sp a = b := by
  simp [State.memRead, h]

theorem onCommand_accepted (body : State → State) (s : State) : onCommand true body s = .next (body s.accept) := rfl
theorem onCommand_held (body : State → State) (s : State) : onCommand false body s = .next s := rfl

end Sys2Proof.Machine
end

