-- ==== Sys2Proof/Laws/Memory.lean ====
section
/-! SUPPORT. The laws of a byte memory: a read after a write, and that every memory operation keeps the canonical form. -/

namespace Sys2Proof.Machine

theorem Memory.read_write_same (m : Memory) (a : Nat) (v : Byte) : (m.write a v).read a = some v := by
  induction m with
  | nil => simp [Memory.write, Memory.read]
  | cons c m ih =>
    simp only [Memory.write]
    split
    · simp [Memory.read]
    · split
      · simp [Memory.read]
      · have : c.1 ≠ a := by omega
        simp [Memory.read, this, ih]

theorem Memory.read_write_other (m : Memory) {a b : Nat} (v : Byte) (h : b ≠ a) : (m.write a v).read b = m.read b := by
  induction m with
  | nil => simp [Memory.write, Memory.read, Ne.symm h]
  | cons c m ih =>
    simp only [Memory.write]
    split
    · simp [Memory.read, Ne.symm h]
    · split
      · rename_i h1 h2
        subst h2
        simp [Memory.read, Ne.symm h]
      · simp [Memory.read, ih]

theorem Memory.mem_write {m : Memory} {a : Nat} {v : Byte} {c : Host.Cell} (h : c ∈ m.write a v) : c = (a, v) ∨ c ∈ m := by
  induction m with
  | nil => simpa [Memory.write] using h
  | cons d m ih =>
    simp only [Memory.write] at h
    split at h
    · simpa using h
    · split at h
      · rcases List.mem_cons.mp h with h | h
        · exact .inl h
        · exact .inr (List.mem_cons_of_mem _ h)
      · rcases List.mem_cons.mp h with h | h
        · exact .inr (h ▸ List.mem_cons_self)
        · exact (ih h).imp id (List.mem_cons_of_mem _)

/-- Storing a byte inside the space keeps the canonical form. -/
theorem Memory.wf_write {size : Nat} {m : Memory} (hm : Memory.wf size m) {a : Nat} (ha : a < size) (v : Byte) :
    Memory.wf size (m.write a v) := by
  obtain ⟨hp, hb⟩ := hm
  refine ⟨?_, fun c hc => ?_⟩
  · induction m with
    | nil => simp [Memory.write]
    | cons d m ih =>
      have hd := List.pairwise_cons.mp hp
      simp only [Memory.write]
      split
      · rename_i h
        refine List.pairwise_cons.mpr ⟨fun e he => ?_, hp⟩
        rcases List.mem_cons.mp he with he | he
        · simpa [he] using h
        · exact Nat.lt_trans h (hd.1 e he)
      · split
        · rename_i h1 h2
          exact List.pairwise_cons.mpr ⟨fun e he => by simpa [h2] using hd.1 e he, hd.2⟩
        · refine List.pairwise_cons.mpr ⟨fun e he => ?_, ih hd.2 fun c hc => hb c (List.mem_cons_of_mem _ hc)⟩
          rcases Memory.mem_write he with he | he
          · simp only [he]
            omega
          · exact hd.1 e he
  · rcases Memory.mem_write hc with h | h
    · simpa [h] using ha
    · exact hb c h

theorem Memory.wf_nil (size : Nat) : Memory.wf size [] := ⟨List.Pairwise.nil, fun _ h => absurd h List.not_mem_nil⟩

/-- A position below all listed ones is not listed. -/
theorem Memory.read_eq_none {m : Memory} {a : Nat} (h : ∀ c ∈ m, a < c.1) : m.read a = none := by
  induction m with
  | nil => rfl
  | cons c m ih =>
    have hc := h c List.mem_cons_self
    have : c.1 ≠ a := by omega
    simp [Memory.read, this, ih fun d hd => h d (List.mem_cons_of_mem _ hd)]

/-- The form is canonical: memories that read the same everywhere are the same list. -/
theorem Memory.eq_of_read_eq {size : Nat} {m m' : Memory} (hm : Memory.wf size m) (hm' : Memory.wf size m')
    (h : ∀ a, m.read a = m'.read a) : m = m' := by
  obtain ⟨hp, -⟩ := hm
  obtain ⟨hp', -⟩ := hm'
  induction m generalizing m' with
  | nil =>
    cases m' with
    | nil => rfl
    | cons d m' => simpa [Memory.read] using h d.1
  | cons c m ih =>
    cases m' with
    | nil => simpa [Memory.read] using h c.1
    | cons d m' =>
      have hc := List.pairwise_cons.mp hp
      have hd := List.pairwise_cons.mp hp'
      have key : c.1 = d.1 := by
        rcases Nat.lt_trichotomy c.1 d.1 with hlt | heq | hgt
        · have h1 := h c.1
          rw [Memory.read_eq_none (m := d :: m') (by
            intro e he
            rcases List.mem_cons.mp he with rfl | he
            · exact hlt
            · exact Nat.lt_trans hlt (hd.1 e he))] at h1
          simp [Memory.read] at h1
        · exact heq
        · have h1 := h d.1
          rw [Memory.read_eq_none (m := c :: m) (by
            intro e he
            rcases List.mem_cons.mp he with rfl | he
            · exact hgt
            · exact Nat.lt_trans hgt (hc.1 e he))] at h1
          simp [Memory.read] at h1
      have hv : c.2 = d.2 := by
        have h1 := h c.1
        simp only [Memory.read, if_true, key, Option.some.injEq] at h1
        exact h1
      have htail : m = m' := by
        refine ih (fun a => ?_) hc.2 hd.2
        by_cases ha : c.1 = a
        · subst ha
          rw [Memory.read_eq_none fun e he => hc.1 e he, Memory.read_eq_none fun e he => key ▸ hd.1 e he]
        · have h1 := h a
          simpa [Memory.read, ha, key ▸ ha] using h1
      rw [htail, Prod.ext key hv]

/-- A copy leaves every position alone that it does not store to. -/
theorem Memory.read_copyTo_other (place : Nat → Nat) (src : List Byte) (m : Memory) (k : Nat) {a : Nat}
    (h : ∀ j, k ≤ j → j < k + src.length → a ≠ place j) : (Memory.copyTo place k src m).read a = m.read a := by
  induction src generalizing m k with
  | nil => rfl
  | cons b src ih =>
    rw [Memory.copyTo, ih (m.write (place k) b) (k + 1) (fun j h1 h2 => h j (by omega) (by simp at *; omega)),
      Memory.read_write_other]
    exact h k (Nat.le_refl k) (by simp)

/-- A copy to positions that do not meet stores byte `j` of the source at position `place j`. -/
theorem Memory.read_copyTo_at (place : Nat → Nat) (src : List Byte) (m : Memory) (k : Nat)
    (hinj : ∀ i j, k ≤ i → i < j → j < k + src.length → place i ≠ place j) {j : Nat} (hj : j < src.length) :
    (Memory.copyTo place k src m).read (place (k + j)) = some src[j] := by
  induction src generalizing m k j with
  | nil => simp at hj
  | cons b src ih =>
    rw [Memory.copyTo]
    cases j with
    | zero =>
      rw [Memory.read_copyTo_other]
      · simpa using Memory.read_write_same m (place k) b
      · intro i h1 h2
        exact hinj k i (Nat.le_refl k) (by omega) (by simp at *; omega)
    | succ j =>
      have := ih (m.write (place k) b) (k + 1) (fun i i' h1 h2 h3 => hinj i i' (by omega) h2 (by simp at *; omega))
        (j := j) (by simpa using hj)
      simpa [Nat.add_assoc, Nat.add_comm 1 j] using this

/-- A copy into the space keeps the canonical form. -/
theorem Memory.wf_copyTo {size : Nat} (place : Nat → Nat) (src : List Byte) {m : Memory} (hm : Memory.wf size m) (k : Nat)
    (h : ∀ j, k ≤ j → j < k + src.length → place j < size) : Memory.wf size (Memory.copyTo place k src m) := by
  induction src generalizing m k with
  | nil => exact hm
  | cons b src ih =>
    rw [Memory.copyTo]
    exact ih (Memory.wf_write hm (h k (Nat.le_refl k) (by simp)) b) (k + 1) fun j h1 h2 => h j (by omega) (by simp at *; omega)

/-- A copy only adds positions. -/
theorem Memory.isSome_copyTo (place : Nat → Nat) (src : List Byte) (m : Memory) (k : Nat) {a : Nat}
    (h : (m.read a).isSome = true) : ((Memory.copyTo place k src m).read a).isSome = true := by
  induction src generalizing m k with
  | nil => exact h
  | cons b src ih =>
    rw [Memory.copyTo]
    apply ih
    by_cases hab : a = place k
    · rw [hab, Memory.read_write_same]
      rfl
    · rwa [Memory.read_write_other _ _ hab]

end Sys2Proof.Machine
end

