-- ==== Sys2Proof/Laws/Ring.lean ====
section
/-! SUPPORT. The arithmetic of the index counters (40_ringbuffer.md R129) and what each ring primitive does to the
fill, to the ring invariant (R130) and to the stored bytes. -/

namespace Sys2Proof.Machine

/-- R129 b: with both counters in range the fill is `wr - rd`, or `wr - rd + 2*N` when that is negative. -/
theorem modSub_eq {a b m : Nat} (ha : a < m) (hb : b < m) : modSub a b m = if b ≤ a then a - b else a + m - b := by
  unfold modSub
  split
  · rename_i h
    rw [Int.emod_eq_of_lt (by omega) (by omega)]
    omega
  · rename_i h
    have h1 : ((a : Int) - b) % m = ((a : Int) - b + m) % m := by simp
    rw [h1, Int.emod_eq_of_lt (by omega) (by omega)]
    omega

theorem modSub_lt {a b m : Nat} (hm : 0 < m) : modSub a b m < m := by
  unfold modSub
  have := Int.emod_lt_of_pos ((a : Int) - b) (by omega : (0 : Int) < m)
  have := Int.emod_nonneg ((a : Int) - b) (by omega : (m : Int) ≠ 0)
  omega

/-- R129 a: at most one subtraction of `2*N` is needed. -/
theorem advance_eq {N idx n : Nat} (hi : idx < 2 * N) (hn : n ≤ N) :
    advance N idx n = if idx + n < 2 * N then idx + n else idx + n - 2 * N := by
  unfold advance
  split
  · exact Nat.mod_eq_of_lt ‹_›
  · rw [Nat.mod_eq_sub_mod (by omega), Nat.mod_eq_of_lt (by omega)]

theorem advance_lt {N : Nat} (hN : 0 < N) (idx n : Nat) : advance N idx n < 2 * N := Nat.mod_lt _ (by omega)

theorem pos_lt {N : Nat} (hN : 0 < N) (idx k : Nat) : pos N idx k < N := Nat.mod_lt _ hN

/-- R129 d, for a counter in range. -/
theorem pos_eq {N idx k : Nat} (hi : idx < 2 * N) (hk : k < N) :
    pos N idx k = if idx + k < N then idx + k else if idx + k < 2 * N then idx + k - N else idx + k - 2 * N := by
  unfold pos
  split
  · exact Nat.mod_eq_of_lt ‹_›
  · split
    · rw [Nat.mod_eq_sub_mod (by omega), Nat.mod_eq_of_lt (by omega)]
    · rw [Nat.mod_eq_sub_mod (by omega), Nat.mod_eq_sub_mod (by omega), Nat.mod_eq_of_lt (by omega)]
      omega

/-- The positions of fewer than `N` consecutive offsets do not meet. -/
theorem pos_injective {N idx i j : Nat} (hij : i < j) (hj : j - i < N) : pos N idx i ≠ pos N idx j := by
  unfold pos
  intro h
  have h1 : (idx + j) % N = ((idx + i) + (j - i)) % N := by congr 1; omega
  rw [h1] at h
  have h2 : (idx + i) ≡ (idx + i) + (j - i) [MOD N] := h
  have h3 : 0 ≡ (j - i) [MOD N] := by
    have : (idx + i) + 0 ≡ (idx + i) + (j - i) [MOD N] := by simpa using h2
    exact Nat.ModEq.add_left_cancel' _ this
  have h4 : (j - i) % N = 0 := by simpa [Nat.ModEq] using h3.symm
  rw [Nat.mod_eq_of_lt hj] at h4
  omega

/-- Positions after the filled region continue the positions from `rd` on. -/
theorem pos_wr {N : Nat} {q : RingState} (hw : q.wr < 2 * N) (hr : q.rd < 2 * N) (k : Nat) :
    pos N q.wr k = pos N q.rd (q.fill N + k) := by
  unfold pos RingState.fill
  rw [modSub_eq hw hr]
  split
  · congr 1; omega
  · have : q.rd + (q.wr + 2 * N - q.rd + k) = q.wr + k + N + N := by omega
    rw [this, Nat.add_mod_right, Nat.add_mod_right]

theorem pos_advance {N idx n k : Nat} : pos N (advance N idx n) k = pos N idx (n + k) := by
  unfold pos advance
  have h : (idx + n) % (2 * N) % N = (idx + n) % N := Nat.mod_mod_of_dvd _ ⟨2, by omega⟩
  rw [Nat.add_mod, h, ← Nat.add_mod]
  congr 1
  omega

/-- A put's completion raises the fill by the pending count. -/
theorem fill_putEnd {N : Nat} {q : RingState} (hw : q.wr < 2 * N) (hr : q.rd < 2 * N) (h : q.fill N + q.pp.n ≤ N) :
    (q.putEnd N).fill N = q.fill N + q.pp.n := by
  have hN : 0 < 2 * N := by omega
  have hn : q.pp.n ≤ N := by omega
  unfold RingState.fill at *
  simp only [RingState.putEnd_wr, RingState.putEnd_rd]
  rw [modSub_eq (advance_lt (by omega) _ _) hr, advance_eq hw hn]
  rw [modSub_eq hw hr] at *
  split at h <;> split <;> split <;> omega

/-- A get's completion lowers the fill by the pending count. -/
theorem fill_getEnd {N : Nat} {q : RingState} (hw : q.wr < 2 * N) (hr : q.rd < 2 * N) (hf : q.fill N ≤ N)
    (h : q.cp.n ≤ q.fill N) : (q.getEnd N).fill N = q.fill N - q.cp.n := by
  have hN : 0 < 2 * N := by omega
  have hn : q.cp.n ≤ N := by omega
  unfold RingState.fill at *
  simp only [RingState.getEnd_wr, RingState.getEnd_rd]
  rw [modSub_eq hw (advance_lt (by omega) _ _), advance_eq hr hn]
  rw [modSub_eq hw hr] at hf h ⊢
  split at h <;> split <;> split <;> omega

@[simp] theorem fill_putBegin (N : Nat) (src : List Byte) (len : Nat) (q : RingState) :
    (q.putBegin N src len).fill N = q.fill N := rfl
@[simp] theorem fill_getBegin (N len : Nat) (q : RingState) : (q.getBegin N len).fill N = q.fill N := rfl

/-! ### The ring invariant (R130) -/

section
variable {N : Nat} {q : RingState}

/-- A copy of as many bytes as are free stores source byte `j` at the `j`-th free position. -/
theorem read_putBegin_at {src : List Byte} {len j : Nat} (hj : j < min len (q.free N)) (hs : j < src.length) :
    (q.putBegin N src len).mem.read (pos N q.wr j) = some src[j] := by
  have hfree : q.free N ≤ N := Nat.sub_le _ _
  have hlen : (src.take (min len (q.free N))).length = min (min len (q.free N)) src.length := List.length_take
  have h := Memory.read_copyTo_at (pos N q.wr) (src.take (min len (q.free N))) q.mem 0
    (fun i i' _ h1 h2 => pos_injective h1 (by omega)) (j := j) (by omega)
  simpa using h

/-- A put's begin step leaves every position alone but the free ones it fills. -/
theorem read_putBegin_other (src : List Byte) (len : Nat) {a : Nat} (h : ∀ k, k < min len (q.free N) → a ≠ pos N q.wr k) :
    (q.putBegin N src len).mem.read a = q.mem.read a := by
  apply Memory.read_copyTo_other
  intro j _ h2
  apply h
  rw [List.length_take] at h2
  omega

theorem RingInv.putBegin (hN : 0 < N) (h : RingInv N q) {src : List Byte} {len : Nat} (hs : src.length = len) :
    RingInv N (q.putBegin N src len) := by
  obtain ⟨h1, h2, h3, h4, h5, h6, h7, h8⟩ := h
  have hfree : q.free N = N - q.fill N := rfl
  refine ⟨h1, h2, ?_, h4, ?_, h6, Memory.wf_copyTo _ _ h7 _ fun j _ _ => pos_lt hN _ _, fun k hk => ?_⟩
  · simp only [fill_putBegin, RingState.putBegin_pp, PortCtx.pending, if_true]
    omega
  · simp only [RingState.putBegin_pp]
    omega
  · simp only [fill_putBegin, RingState.putBegin_pp, PortCtx.pending, if_true, RingState.putBegin_rd] at hk ⊢
    by_cases hkf : k < q.fill N
    · exact Memory.isSome_copyTo _ _ _ _ (h8 k (by omega))
    · have e : q.fill N + (k - q.fill N) = k := by omega
      have h := read_putBegin_at (N := N) (q := q) (src := src) (len := len) (j := k - q.fill N) (by omega) (by omega)
      rw [pos_wr h1 h2, e] at h
      rw [h]
      rfl

theorem RingInv.putEnd (hN : 0 < N) (h : RingInv N q) (hb : q.pp.busy = true) : RingInv N (q.putEnd N) := by
  obtain ⟨h1, h2, h3, h4, h5, h6, h7, h8⟩ := h
  simp only [PortCtx.pending, hb, if_true] at h3 h8
  have hfill := fill_putEnd h1 h2 h3
  refine ⟨advance_lt hN _ _, h2, ?_, ?_, h5, h6, h7, ?_⟩
  · simpa [hfill, PortCtx.pending] using h3
  · rw [hfill]
    exact Nat.le_add_right_of_le h4
  · simpa [hfill, PortCtx.pending] using h8

theorem RingInv.getBegin (h : RingInv N q) (len : Nat) : RingInv N (q.getBegin N len) := by
  obtain ⟨h1, h2, h3, h4, h5, h6, h7, h8⟩ := h
  refine ⟨h1, h2, h3, ?_, h5, ?_, h7, h8⟩
  · simp [PortCtx.pending]
  · simp only [RingState.getBegin_cp]
    omega

theorem RingInv.getEnd (hN : 0 < N) (h : RingInv N q) (hb : q.cp.busy = true) : RingInv N (q.getEnd N) := by
  obtain ⟨h1, h2, h3, h4, h5, h6, h7, h8⟩ := h
  simp only [PortCtx.pending, hb, if_true] at h4
  have hfill := fill_getEnd h1 h2 (by omega) h4
  refine ⟨h1, advance_lt hN _ _, ?_, ?_, h5, h6, h7, fun k hk => ?_⟩
  · rw [hfill]
    simp only [RingState.getEnd_pp]
    omega
  · simp [PortCtx.pending]
  · rw [hfill] at hk
    simp only [RingState.getEnd_rd, RingState.getEnd_mem, RingState.getEnd_pp, pos_advance] at hk ⊢
    exact h8 _ (by omega)

/-- Emptying a ring whose ports are idle keeps its invariant (R128). -/
theorem RingInv.emptied (hN : 0 < N) (h : RingInv N q) (hp : q.pp.busy = false) (hc : q.cp.busy = false) :
    RingInv N { q with wr := 0, rd := 0 } := by
  obtain ⟨h1, h2, h3, h4, h5, h6, h7, h8⟩ := h
  have hf : RingState.fill N { q with wr := 0, rd := 0 } = 0 := by simp [RingState.fill, modSub]
  refine ⟨by simpa using hN, by simpa using hN, ?_, ?_, h5, h6, h7, fun k hk => ?_⟩ <;>
    simp_all [PortCtx.pending]

/-- A ring after reset, whatever its pending counts hold (R50). -/
theorem RingInv.afterReset (hN : 0 < N) {p c : Nat} (hp : p ≤ N) (hc : c ≤ N) :
    RingInv N { RingState.reset with pp := ⟨false, p⟩, cp := ⟨false, c⟩ } := by
  have hf : RingState.fill N { RingState.reset with pp := ⟨false, p⟩, cp := ⟨false, c⟩ } = 0 := by
    simp [RingState.fill, modSub, RingState.reset]
  refine ⟨by simpa [RingState.reset] using hN, by simpa [RingState.reset] using hN, ?_, ?_, hp, hc, Memory.wf_nil _,
    fun k hk => ?_⟩ <;> simp_all [PortCtx.pending]

end

end Sys2Proof.Machine
end

