-- ==== Sys2Proof/Laws/Step.lean ====
section
/-! SUPPORT. What a step can do, said once: `ExecTo` lists every next state of every instruction with its guard, `StepTo` every
next state of a step; `exec_to` and `step_to` are the inversions. Later proofs split these and never unfold `exec` or `step`. -/

namespace Sys2Proof.Machine

/-- The state in which the command port's turn looks at the presented command. -/
def State.atCommand (s : State) (ok : Bool) (rest : List Turn) : State :=
  { s with presented := s.present.presented, host := s.present.host, turns := rest, answer := ok }

/-- The RX delivery begin as a state (R157). -/
theorem State.rxDeliverBegin_eq (s : State) (n : Nat) :
    s.rxDeliverBegin n = { s with
      rxC := min n s.cfg.rxStage.val
      rx := s.rx.putBegin s.cfg.nRx.val (s.stagedBytes (min n s.cfg.rxStage.val)) (min n s.cfg.rxStage.val) } := rfl

/-- The fetch begin as a state (R185). -/
theorem State.txFetchBegin_eq (s : State) :
    s.txFetchBegin = { s with tx := s.tx.getBegin s.cfg.nTx.val s.cfg.txChunk.val } := rfl

theorem State.rxpListens_iff (s : State) :
    s.rxpListens = true ↔ s.rxpState = .receivePosted ∧ s.rx.pp.busy = false := by
  cases h : s.rxpState <;> simp [State.rxpListens, RxpState.bit, h]

theorem State.txpListens_iff (s : State) :
    s.txpListens = true ↔ s.txpState = .sendPosted ∧ s.tx.cp.busy = false := by
  cases h : s.txpState <;> simp [State.txpListens, TxpState.bit, h]

/-- Every next state of every instruction, with its guard. -/
inductive ExecTo (s : State) : Instr → State → Prop
  | held {i} (h : s.accepts i = false) : ExecTo s i s
  | rbPut {len} (hlen : s.payload.length = len) (h : s.tx.pp.busy = false) :
      ExecTo s (.rbPut len) { s with presented := none, tx := s.tx.putBegin s.cfg.nTx.val s.payload len }
  | rbGet {len} (h : s.rx.cp.busy = false) :
      ExecTo s (.rbGet len) { s with presented := none, rx := s.rx.getBegin s.cfg.nRx.val len }
  | rbLen {r} : ExecTo s (.rbLen r) { s with
      presented := none, trace := s.trace ++ [.result .ok (countWord ((s.ring r).fill (s.cap r)))] }
  | rbResetRx (hp : s.rx.pp.busy = false) (hc : s.rx.cp.busy = false) : ExecTo s (.rbReset .rx) { s with
      presented := none, rx := { s.rx with wr := 0, rd := 0 }, trace := s.trace ++ [.result .ok 0] }
  | rbResetTx (hp : s.tx.pp.busy = false) (hc : s.tx.cp.busy = false) : ExecTo s (.rbReset .tx) { s with
      presented := none, tx := { s.tx with wr := 0, rd := 0 }, trace := s.trace ++ [.result .ok 0] }
  | rxpStartArmed (h : s.rx.pp.busy = false) (hs : s.rxpState = .idle) (ha : s.answer = true) :
      ExecTo s .rxpStart { s with
        presented := none, rxPrev := 0, rxDone := false, rxpState := .receivePosted
        trace := s.trace ++ [.submit (.receive s.cfg.rxStage.val), .result .ok 0] }
  | rxpStartRefused (h : s.rx.pp.busy = false) (hs : s.rxpState = .idle) (ha : s.answer = false) :
      ExecTo s .rxpStart { s with
        presented := none, rxPrev := 0, rxDone := false
        trace := s.trace ++ [.submit (.receive s.cfg.rxStage.val), .result .notAttached 0] }
  | rxpStartPosted (h : s.rx.pp.busy = false) (hs : s.rxpState = .receivePosted) :
      ExecTo s .rxpStart { s with presented := none, trace := s.trace ++ [.result .ok 0] }
  | rxpStopIdle (h : s.rx.pp.busy = false) (hs : s.rxpState = .idle) :
      ExecTo s .rxpStop { s with presented := none, trace := s.trace ++ [.result .ok 0] }
  | rxpStopPosted (h : s.rx.pp.busy = false) (hs : s.rxpState = .receivePosted) : ExecTo s .rxpStop { s with
      presented := none, rxPrev := 0, rxDone := false, rxpState := .idle, trace := s.trace ++ [.abortIn, .result .ok 0] }
  | txpKickIdle (h : s.tx.cp.busy = false) (hs : s.txpState = .idle) : ExecTo s .txpKick { s with
      presented := none, tx := s.tx.getBegin s.cfg.nTx.val s.cfg.txChunk.val, trace := s.trace ++ [.result .ok 0] }
  | txpKickPosted (h : s.tx.cp.busy = false) (hs : s.txpState = .sendPosted) :
      ExecTo s .txpKick { s with presented := none, trace := s.trace ++ [.result .ok 0] }
  | txpStopIdle (h : s.tx.cp.busy = false) (hs : s.txpState = .idle) :
      ExecTo s .txpStop { s with presented := none, trace := s.trace ++ [.txReleased, .result .ok 0] }
  | txpStopDeferred (h : s.tx.cp.busy = false) (hs : s.txpState = .sendPosted) (hd : s.cfg.delayedClose = true) :
      ExecTo s .txpStop { s with
        presented := none, txStopPending := true, trace := s.trace ++ [.result .deferred 0] }
  | txpStopBusy (h : s.tx.cp.busy = false) (hs : s.txpState = .sendPosted) (hd : s.cfg.delayedClose = false) :
      ExecTo s .txpStop { s with presented := none, trace := s.trace ++ [.result .busy 0] }
  | tickIgnored {n} (h : s.rxpListens = false ∨ n = s.rxPrev ∧ (n = 0 ∨ s.rxDone = true)) : ExecTo s (.evTick n) s
  | tickRecorded {n} (h : s.rx.pp.busy = false) (hs : s.rxpState = .receivePosted) (hn : n ≠ s.rxPrev) :
      ExecTo s (.evTick n) { s with rxPrev := n, rxDone := false }
  | tickDelivers {n} (h : s.rx.pp.busy = false) (hs : s.rxpState = .receivePosted) (hn : n = s.rxPrev) (h0 : n ≠ 0)
      (hd : s.rxDone = false) : ExecTo s (.evTick n) { s with
        rxDone := true
        rxC := min n s.cfg.rxStage.val
        rx := s.rx.putBegin s.cfg.nRx.val (s.stagedBytes (min n s.cfg.rxStage.val)) (min n s.cfg.rxStage.val) }
  | inDoneIgnored {n} (h : s.rxpListens = false) : ExecTo s (.evInDone n) s
  | inDoneDelivers {n} (h : s.rx.pp.busy = false) (hs : s.rxpState = .receivePosted) : ExecTo s (.evInDone n) { s with
        rxPrev := n
        rxDone := true
        rxC := min n s.cfg.rxStage.val
        rx := s.rx.putBegin s.cfg.nRx.val (s.stagedBytes (min n s.cfg.rxStage.val)) (min n s.cfg.rxStage.val) }
  | inErrorIgnored (h : s.rxpListens = false) : ExecTo s .evInError s
  | inErrorTaken (h : s.rx.pp.busy = false) (hs : s.rxpState = .receivePosted) : ExecTo s .evInError { s with
      rxPrev := 0, rxDone := false, rxpState := .idle, trace := s.trace ++ [.xferError .bulkIn] }
  | outDoneIgnored {n} (h : s.txpListens = false) : ExecTo s (.evOutDone n) s
  | outDoneReleases {n} (h : s.tx.cp.busy = false) (hs : s.txpState = .sendPosted) (hp : s.txStopPending = true) :
      ExecTo s (.evOutDone n) { s with
        txpState := .idle, txBusy := false, txCount := 0, txStopPending := false, trace := s.trace ++ [.txReleased] }
  | outDoneFetches {n} (h : s.tx.cp.busy = false) (hs : s.txpState = .sendPosted) (hp : s.txStopPending = false) :
      ExecTo s (.evOutDone n) { s with tx := s.tx.getBegin s.cfg.nTx.val s.cfg.txChunk.val }
  | outErrorIgnored (h : s.txpListens = false) : ExecTo s .evOutError s
  | outErrorReleases (h : s.tx.cp.busy = false) (hs : s.txpState = .sendPosted) (hp : s.txStopPending = true) :
      ExecTo s .evOutError { s with
        txpState := .idle, txBusy := false, txCount := 0, txStopPending := false
        trace := s.trace ++ [.xferError .bulkOut, .txReleased] }
  | outErrorTaken (h : s.tx.cp.busy = false) (hs : s.txpState = .sendPosted) (hp : s.txStopPending = false) :
      ExecTo s .evOutError { s with
        txpState := .idle, txBusy := false, txCount := 0, trace := s.trace ++ [.xferError .bulkOut] }
  | inDataIgnored {b off} (h : s.cfg.rxStage.val ≤ off) : ExecTo s (.evInData b off) s
  | inDataStaged {b off} (h : off < s.cfg.rxStage.val) :
      ExecTo s (.evInData b off) { s with rxStage := s.rxStage.write off b }
  | regRead {idx v} (h : s.register idx = some v) :
      ExecTo s (.regRead idx) { s with presented := none, trace := s.trace ++ [.result .ok v] }
  | regReadIllegal {idx} (h : 0x10 < idx) :
      ExecTo s (.regRead idx) { s with presented := none, trace := s.trace ++ [.result .illegal 0] }

/-- The registers are the numbers up to `0x10` (R43). -/
theorem State.register_eq_none {s : State} {idx : Nat} : s.register idx = none ↔ 0x10 < idx := by
  unfold State.register
  split
  all_goals simp
  by_contra hn
  have hle : idx ≤ 0x10 := by omega
  interval_cases idx <;> simp_all

@[simp] theorem State.register_accept (s : State) (idx : Nat) : s.accept.register idx = s.register idx := rfl

theorem onCommand_next {accepted : Bool} {body : State → State} {s t : State} (h : onCommand accepted body s = .next t) :
    accepted = false ∧ t = s ∨ accepted = true ∧ t = body s.accept := by
  cases accepted <;> simp_all [onCommand]

/-- The inversion of `exec`: whatever an instruction does when it goes on is one of the cases of `ExecTo`. -/
theorem exec_to {i : Instr} {s t : State} (h : exec i s = .next t) : ExecTo s i t := by
  cases i with
  | rbPut len =>
    simp only [exec, execRbPut] at h
    split at h
    · rcases onCommand_next h with ⟨ha, rfl⟩ | ⟨ha, rfl⟩
      · exact .held ha
      · exact .rbPut (by simp_all [payloadFits]) (by simpa [State.accepts] using ha)
    · cases h
  | rbGet len =>
    simp only [exec, execRbGet] at h
    rcases onCommand_next h with ⟨ha, rfl⟩ | ⟨ha, rfl⟩
    · exact .held ha
    · exact .rbGet (by simpa [State.accepts] using ha)
  | rbLen r =>
    simp only [exec, execRbLen] at h
    rcases onCommand_next h with ⟨ha, rfl⟩ | ⟨ha, rfl⟩
    · exact .held ha
    · cases r <;> exact .rbLen
  | rbReset r =>
    simp only [exec, execRbReset] at h
    rcases onCommand_next h with ⟨ha, rfl⟩ | ⟨ha, rfl⟩
    · exact .held ha
    · cases r
      · exact .rbResetRx (by simp_all [State.accepts]) (by simp_all [State.accepts])
      · exact .rbResetTx (by simp_all [State.accepts]) (by simp_all [State.accepts])
  | rxpStart =>
    simp only [exec, execRxpStart] at h
    rcases onCommand_next h with ⟨ha, rfl⟩ | ⟨ha, rfl⟩
    · exact .held ha
    · have hb : s.rx.pp.busy = false := by simpa [State.accepts] using ha
      cases hs : s.rxpState with
      | receivePosted => simpa [hs, State.result, State.emit, State.accept] using ExecTo.rxpStartPosted hb hs
      | idle =>
        cases hok : s.answer
        · simpa [hs, hok, State.raise, State.clearDetector, State.submit, State.result, State.emit, State.accept]
            using ExecTo.rxpStartRefused hb hs hok
        · simpa [hs, hok, State.clearDetector, State.submit, State.result, State.emit, State.accept]
            using ExecTo.rxpStartArmed hb hs hok
  | rxpStop =>
    simp only [exec, execRxpStop] at h
    rcases onCommand_next h with ⟨ha, rfl⟩ | ⟨ha, rfl⟩
    · exact .held ha
    · have hb : s.rx.pp.busy = false := by simpa [State.accepts] using ha
      cases hs : s.rxpState with
      | idle => simpa [hs, State.result, State.emit, State.accept] using ExecTo.rxpStopIdle hb hs
      | receivePosted =>
        simpa [hs, State.rxpToIdle, State.clearDetector, State.result, State.emit, State.accept]
          using ExecTo.rxpStopPosted hb hs
  | txpKick =>
    simp only [exec, execTxpKick] at h
    rcases onCommand_next h with ⟨ha, rfl⟩ | ⟨ha, rfl⟩
    · exact .held ha
    · have hb : s.tx.cp.busy = false := by simpa [State.accepts] using ha
      cases hs : s.txpState with
      | idle => simpa [hs, State.txFetchBegin_eq, State.result, State.emit, State.accept] using ExecTo.txpKickIdle hb hs
      | sendPosted => simpa [hs, State.result, State.emit, State.accept] using ExecTo.txpKickPosted hb hs
  | txpStop =>
    simp only [exec, execTxpStop] at h
    rcases onCommand_next h with ⟨ha, rfl⟩ | ⟨ha, rfl⟩
    · exact .held ha
    · have hb : s.tx.cp.busy = false := by simpa [State.accepts] using ha
      cases hs : s.txpState with
      | idle => simpa [hs, State.result, State.emit, State.accept] using ExecTo.txpStopIdle hb hs
      | sendPosted =>
        cases hd : s.cfg.delayedClose
        · simpa [hs, hd, State.raise, State.result, State.emit, State.accept] using ExecTo.txpStopBusy hb hs hd
        · simpa [hs, hd, State.result, State.emit, State.accept] using ExecTo.txpStopDeferred hb hs hd
  | evTick n =>
    simp only [exec, execEvTick, Host.Outcome.next.injEq] at h
    split at h
    · rename_i hl
      obtain ⟨hs, hb⟩ := s.rxpListens_iff.mp hl
      split at h
      · exact h ▸ .tickRecorded hb hs ‹_›
      · rename_i hn
        split at h
        · rename_i hd
          exact h ▸ .tickDelivers hb hs (not_not.mp hn) hd.1 hd.2
        · rename_i hd
          refine h ▸ .tickIgnored (.inr ⟨not_not.mp hn, ?_⟩)
          cases hr : s.rxDone <;> simp_all
    · exact h ▸ .tickIgnored (.inl (by simp_all))
  | evInDone n =>
    simp only [exec, execEvInDone, Host.Outcome.next.injEq] at h
    split at h
    · rename_i hl
      obtain ⟨hs, hb⟩ := s.rxpListens_iff.mp hl
      exact h ▸ .inDoneDelivers hb hs
    · exact h ▸ .inDoneIgnored (by simp_all)
  | evOutDone n =>
    simp only [exec, execEvOutDone, Host.Outcome.next.injEq] at h
    split at h
    · rename_i hl
      obtain ⟨hs, hb⟩ := s.txpListens_iff.mp hl
      split at h
      · exact h ▸ .outDoneReleases hb hs ‹_›
      · exact h ▸ .outDoneFetches hb hs (by simp_all)
    · exact h ▸ .outDoneIgnored (by simp_all)
  | evInError =>
    simp only [exec, execEvInError, Host.Outcome.next.injEq] at h
    split at h
    · rename_i hl
      obtain ⟨hs, hb⟩ := s.rxpListens_iff.mp hl
      exact h ▸ .inErrorTaken hb hs
    · exact h ▸ .inErrorIgnored (by simp_all)
  | evOutError =>
    simp only [exec, execEvOutError, Host.Outcome.next.injEq] at h
    split at h
    · rename_i hl
      obtain ⟨hs, hb⟩ := s.txpListens_iff.mp hl
      split at h
      · rename_i hp
        have := ExecTo.outErrorReleases hb hs hp
        simpa [← h, State.raise, State.txpToIdle, State.emit] using this
      · rename_i hp
        exact h ▸ .outErrorTaken hb hs (by simpa [State.raise, State.txpToIdle, State.emit] using hp)
    · exact h ▸ .outErrorIgnored (by simp_all)
  | evInData b off =>
    simp only [exec, execEvInData, Host.Outcome.next.injEq] at h
    split at h
    · exact h ▸ .inDataStaged ‹_›
    · exact h ▸ .inDataIgnored (by omega)
  | regRead idx =>
    simp only [exec, execRegRead] at h
    rcases onCommand_next h with ⟨ha, rfl⟩ | ⟨ha, rfl⟩
    · exact .held ha
    · simp only [State.register_accept]
      cases hr : s.register idx with
      | none => exact .regReadIllegal (State.register_eq_none.mp hr)
      | some v => exact .regRead hr

/-- Every next state of a step, with its guard. -/
inductive StepTo (s : State) : State → Prop
  | noTurn (h : s.turns = []) : StepTo s s
  | nothingPresented {ok rest} (h : s.turns = .command ok :: rest) (hp : s.present.presented = none) :
      StepTo s (s.atCommand ok rest)
  | command {ok rest c i t} (h : s.turns = .command ok :: rest) (hp : s.present.presented = some c)
      (hd : decodeOn .command c.word = .ok i) (he : ExecTo (s.atCommand ok rest) i t) : StepTo s t
  | illegalCommand {ok rest c e} (h : s.turns = .command ok :: rest) (hp : s.present.presented = some c)
      (hd : decodeOn .command c.word = .error e) : StepTo s { s.atCommand ok rest with
        presented := none, trace := s.trace ++ [.result .illegal 0] }
  | event {w rest i t} (h : s.turns = .event w :: rest) (hd : decodeOn .event w = .ok i)
      (he : ExecTo { s with turns := rest } i t) : StepTo s t
  | illegalEvent {w rest e} (h : s.turns = .event w :: rest) (hd : decodeOn .event w = .error e) :
      StepTo s { s with turns := rest }
  | putEndPasses {rest} (h : s.turns = .putEnd :: rest) (hb : s.tx.pp.busy = false) : StepTo s { s with turns := rest }
  | putEnd {rest} (h : s.turns = .putEnd :: rest) (hb : s.tx.pp.busy = true) : StepTo s { s with
      turns := rest, tx := s.tx.putEnd s.cfg.nTx.val, trace := s.trace ++ [.result .ok (countWord s.tx.pp.n)] }
  | getEndPasses {rest} (h : s.turns = .getEnd :: rest) (hb : s.rx.cp.busy = false) : StepTo s { s with turns := rest }
  | getEnd {rest} (h : s.turns = .getEnd :: rest) (hb : s.rx.cp.busy = true) : StepTo s { s with
      turns := rest, rx := s.rx.getEnd s.cfg.nRx.val
      trace := s.trace ++ [.resultData .ok (countWord s.rx.cp.n) (s.gotBytes .rx)] }
  | drainEndPasses {ok rest} (h : s.turns = .drainEnd ok :: rest) (hb : s.rx.pp.busy = false) :
      StepTo s { s with turns := rest, answer := ok }
  | drainEnd {ok rest} (h : s.turns = .drainEnd ok :: rest) (hb : s.rx.pp.busy = true) : StepTo s { s with
      turns := rest
      answer := ok
      rx := s.rx.putEnd s.cfg.nRx.val
      rxDrop := if s.rx.pp.n < s.rxC then sat32 (s.rxDrop + (s.rxC - s.rx.pp.n)) else s.rxDrop
      rxpState := if ok then s.rxpState else .idle
      trace := s.trace ++ ((if 0 < s.rxC then [.rxReady] else []) ++ [.submit (.receive s.cfg.rxStage.val)]) }
  | fetchEndPasses {ok rest} (h : s.turns = .fetchEnd ok :: rest) (hb : s.tx.cp.busy = false) :
      StepTo s { s with turns := rest, answer := ok }
  | fetchEndEmpty {ok rest} (h : s.turns = .fetchEnd ok :: rest) (hb : s.tx.cp.busy = true) (h0 : s.tx.cp.n = 0) :
      StepTo s { s with
        turns := rest
        answer := ok
        tx := s.tx.getEnd s.cfg.nTx.val
        txpState := .idle
        txBusy := false
        txCount := 0
        trace := s.trace ++ (if s.txpState = .sendPosted then [.txDone] else []) }
  | fetchEnd {ok rest} (h : s.turns = .fetchEnd ok :: rest) (hb : s.tx.cp.busy = true) (h0 : s.tx.cp.n ≠ 0)
      (hle : s.tx.cp.n ≤ s.cfg.txChunk.val) : StepTo s { s with
        turns := rest
        answer := ok
        tx := s.tx.getEnd s.cfg.nTx.val
        txStage := Memory.copyTo (fun k => k) 0 (s.gotBytes .tx) s.txStage
        txpState := if ok then .sendPosted else .idle
        txBusy := ok
        txCount := if ok then s.tx.cp.n else 0
        trace := s.trace ++ [.submit (.send s.tx.cp.n (s.gotBytes .tx))] }
  | reset {rest} (h : s.turns = .reset :: rest) : StepTo s { State.resetWith s.cfg with
      rx := ringAfterReset .rx (s.epoch + 1) s.cfg.nRx.val
      tx := ringAfterReset .tx (s.epoch + 1) s.cfg.nTx.val
      rxC := unspecifiedCount .rxC (s.epoch + 1) s.cfg.rxStage.val
      host := s.host
      turns := rest
      answer := s.answer
      epoch := s.epoch + 1
      trace := s.trace }

/-- The chunk submitted is what was fetched: staging it and reading it back changes no byte. -/
theorem chunkBytes_staged {s : State} {out : List Byte} (h : s.txStage = Memory.copyTo (fun k => k) 0 out m) :
    s.chunkBytes out.length = out := by
  apply List.ext_getElem
  · simp [State.chunkBytes]
  · intro j h1 h2
    have hr := Memory.read_copyTo_at (fun k => k) out m 0 (fun i i' _ h _ => Nat.ne_of_lt h) (j := j) h2
    rw [Nat.zero_add, ← h] at hr
    simp [State.chunkBytes, State.memRead, hr]

theorem gotBytes_length (s : State) (r : Ring) : (s.gotBytes r).length = (s.ring r).cp.n := by
  simp [State.gotBytes]

/-- Presenting moves the host's next command to an empty port and changes nothing else. -/
theorem State.atCommand_eq (s : State) (ok : Bool) (rest : List Turn) :
    { State.present { s with turns := rest } with answer := ok } = s.atCommand ok rest := by
  rcases hp : s.presented with _ | c <;> rcases hh : s.host with _ | ⟨c', later⟩ <;>
    simp [State.atCommand, State.present, hp, hh]

/-- The inversion of `takeFetchEnd`. -/
theorem takeFetchEnd_next {s t : State} (h : takeFetchEnd s = .next t) :
    (s.tx.cp.busy = false ∧ t = s) ∨
    (s.tx.cp.busy = true ∧ s.tx.cp.n = 0 ∧ t = { s with
      tx := s.tx.getEnd s.cfg.nTx.val
      txpState := .idle
      txBusy := false
      txCount := 0
      trace := s.trace ++ (if s.txpState = .sendPosted then [.txDone] else []) }) ∨
    (s.tx.cp.busy = true ∧ s.tx.cp.n ≠ 0 ∧ s.tx.cp.n ≤ s.cfg.txChunk.val ∧ t = { s with
      tx := s.tx.getEnd s.cfg.nTx.val
      txStage := Memory.copyTo (fun k => k) 0 (s.gotBytes .tx) s.txStage
      txpState := if s.answer then .sendPosted else .idle
      txBusy := s.answer
      txCount := if s.answer then s.tx.cp.n else 0
      trace := s.trace ++ [.submit (.send s.tx.cp.n (s.gotBytes .tx))] }) := by
  unfold takeFetchEnd at h
  split at h
  · rename_i hb
    split at h
    · rename_i hle
      simp only [Host.Outcome.next.injEq] at h
      split at h
      · rename_i h0
        refine .inr (.inl ⟨hb, h0, ?_⟩)
        rw [← h]
        by_cases hs : s.txpState = .sendPosted <;>
          simp [hs, State.getEnd_eq, State.txpToIdle, State.emit, State.setRing]
      · rename_i h0
        refine .inr (.inr ⟨hb, h0, hle, ?_⟩)
        have hl : (s.gotBytes .tx).length = s.tx.cp.n := gotBytes_length s .tx
        rw [← h]
        have hc := chunkBytes_staged (s := { s.getEnd .tx with
            txStage := Memory.copyTo (fun k => k) 0 (s.gotBytes .tx) (s.getEnd .tx).txStage
            txCount := s.tx.cp.n
            txBusy := true }) rfl
        rw [hl] at hc
        simp only [hc]
        cases ha : s.answer <;>
          simp [State.getEnd_eq, State.txpToIdle, State.submit, State.emit, State.setRing, ha]
    · cases h
  · rename_i hb
    exact .inl ⟨by simpa using hb, by simpa using h.symm⟩

/-- The inversion of `takeDrainEnd`. -/
theorem takeDrainEnd_next {s t : State} (h : takeDrainEnd s = .next t) :
    (s.rx.pp.busy = false ∧ t = s) ∨
    (s.rx.pp.busy = true ∧ t = { s with
      rx := s.rx.putEnd s.cfg.nRx.val
      rxDrop := if s.rx.pp.n < s.rxC then sat32 (s.rxDrop + (s.rxC - s.rx.pp.n)) else s.rxDrop
      rxpState := if s.answer then s.rxpState else .idle
      trace := s.trace ++ ((if 0 < s.rxC then [.rxReady] else []) ++ [.submit (.receive s.cfg.rxStage.val)]) }) := by
  simp only [takeDrainEnd, Host.Outcome.next.injEq] at h
  split at h
  · rename_i hb
    refine .inr ⟨hb, ?_⟩
    rw [← h]
    by_cases h1 : s.rx.pp.n < s.rxC <;> by_cases h2 : 0 < s.rxC <;> cases ha : s.answer <;>
      simp [h1, h2, ha, State.putEnd_eq, State.raise, State.submit, State.emit, State.setRing]
  · rename_i hb
    exact .inl ⟨by simpa using hb, h.symm⟩

/-- The inversion of `step`: whatever a step does when it goes on is one of the cases of `StepTo`. -/
theorem step_to {s t : State} (h : step s = .next t) : StepTo s t := by
  unfold step at h
  split at h
  · cases h
    exact .noTurn ‹_›
  · rename_i u rest hu
    cases u with
    | command ok =>
      simp only [takeTurn, State.atCommand_eq] at h
      simp only [takeCommand] at h
      split at h
      · rename_i hp
        cases h
        exact .nothingPresented hu hp
      · rename_i c hp
        split at h
        · exact .command hu hp ‹_› (exec_to h)
        · cases h
          exact .illegalCommand hu hp ‹_›
    | event w =>
      simp only [takeTurn, takeEvent] at h
      split at h
      · exact .event hu ‹_› (exec_to h)
      · cases h
        exact .illegalEvent hu ‹_›
    | putEnd =>
      simp only [takeTurn, takePutEnd, Host.Outcome.next.injEq] at h
      split at h
      · exact h ▸ .putEnd hu ‹_›
      · exact h ▸ .putEndPasses hu (by simp_all)
    | getEnd =>
      simp only [takeTurn, takeGetEnd, Host.Outcome.next.injEq] at h
      split at h
      · exact h ▸ .getEnd hu ‹_›
      · exact h ▸ .getEndPasses hu (by simp_all)
    | drainEnd ok =>
      rcases takeDrainEnd_next h with ⟨hb, rfl⟩ | ⟨hb, rfl⟩
      · exact .drainEndPasses hu hb
      · exact .drainEnd hu hb
    | fetchEnd ok =>
      rcases takeFetchEnd_next h with ⟨hb, rfl⟩ | ⟨hb, h0, rfl⟩ | ⟨hb, h0, hle, rfl⟩
      · exact .fetchEndPasses hu hb
      · exact .fetchEndEmpty hu hb h0
      · exact .fetchEnd hu hb h0 hle
    | reset =>
      simp only [takeTurn, takeReset, Host.Outcome.next.injEq] at h
      exact h ▸ .reset hu

end Sys2Proof.Machine
end

