-- ==== Sys2Proof/Laws/Execution.lean ====
section
/-! SUPPORT. Executions: what `State.given` leaves alone, how one step treats an enabled completion step (00_scope.md R13), and how
the bytes a trace says were sent or returned add up. -/

namespace Sys2Proof.Machine

@[simp] theorem State.given_cfg (s : State) (x : Stimulus) : (s.given x).cfg = s.cfg := rfl
@[simp] theorem State.given_rx (s : State) (x : Stimulus) : (s.given x).rx = s.rx := rfl
@[simp] theorem State.given_tx (s : State) (x : Stimulus) : (s.given x).tx = s.tx := rfl
@[simp] theorem State.given_rxpState (s : State) (x : Stimulus) : (s.given x).rxpState = s.rxpState := rfl
@[simp] theorem State.given_rxStage (s : State) (x : Stimulus) : (s.given x).rxStage = s.rxStage := rfl
@[simp] theorem State.given_rxPrev (s : State) (x : Stimulus) : (s.given x).rxPrev = s.rxPrev := rfl
@[simp] theorem State.given_rxDone (s : State) (x : Stimulus) : (s.given x).rxDone = s.rxDone := rfl
@[simp] theorem State.given_rxC (s : State) (x : Stimulus) : (s.given x).rxC = s.rxC := rfl
@[simp] theorem State.given_rxDrop (s : State) (x : Stimulus) : (s.given x).rxDrop = s.rxDrop := rfl
@[simp] theorem State.given_txpState (s : State) (x : Stimulus) : (s.given x).txpState = s.txpState := rfl
@[simp] theorem State.given_txStage (s : State) (x : Stimulus) : (s.given x).txStage = s.txStage := rfl
@[simp] theorem State.given_txCount (s : State) (x : Stimulus) : (s.given x).txCount = s.txCount := rfl
@[simp] theorem State.given_txBusy (s : State) (x : Stimulus) : (s.given x).txBusy = s.txBusy := rfl
@[simp] theorem State.given_txStopPending (s : State) (x : Stimulus) : (s.given x).txStopPending = s.txStopPending := rfl
@[simp] theorem State.given_presented (s : State) (x : Stimulus) : (s.given x).presented = s.presented := rfl
@[simp] theorem State.given_host (s : State) (x : Stimulus) : (s.given x).host = s.host ++ x.commands := rfl
@[simp] theorem State.given_turns (s : State) (x : Stimulus) : (s.given x).turns = [x.turn] := rfl
@[simp] theorem State.given_answer (s : State) (x : Stimulus) : (s.given x).answer = s.answer := rfl
@[simp] theorem State.given_epoch (s : State) (x : Stimulus) : (s.given x).epoch = s.epoch := rfl
@[simp] theorem State.given_trace (s : State) (x : Stimulus) : (s.given x).trace = s.trace := rfl

@[simp] theorem Completion.enabled_given (s : State) (x : Stimulus) (c : Completion) : c.enabled (s.given x) = c.enabled s := by
  cases c <;> rfl

/-- An enabled completion step stays enabled over a step, or it was that step, or the step was `RESET`. -/
theorem Completion.enabled_step {s t : State} {c : Completion} (h : step s = .next t) (he : c.enabled s = true) :
    c.enabled t = true ∨
      (s.turns.head?.bind Turn.completion = some c ∨ s.turns.head? = some .reset) ∧ c.enabled t = false := by
  rcases step_to h with _ | _ | ⟨_, _, _, hx⟩ | _ | ⟨_, _, hx⟩ | _ | _ | _ | _ | _ | _ | _ | _ | _ | _ | _ <;>
    (try cases hx) <;> cases c <;>
    simp_all [Completion.enabled, Turn.completion, State.atCommand, RingState.putEnd, RingState.getEnd, RingState.putBegin,
      RingState.getBegin, State.resetWith, ringAfterReset, RingState.reset]

theorem submittedBytes_append (a b : List Output) : submittedBytes (a ++ b) = submittedBytes a ++ submittedBytes b := by
  induction a with
  | nil => rfl
  | cons x a ih =>
    cases x with
    | submit t => cases t <;> simp [submittedBytes, ih]
    | _ => simp [submittedBytes, ih]

theorem returnedBytes_append (a b : List Output) : returnedBytes (a ++ b) = returnedBytes a ++ returnedBytes b := by
  induction a with
  | nil => rfl
  | cons x a ih => cases x <;> simp [returnedBytes, ih]

end Sys2Proof.Machine
end

