-- ==== Sys2Proof/Laws/PerInstr.lean ====
section
/-! SUPPORT. What is said of every instruction as syntax, one lemma per constructor: the class of its word is 3 exactly when
it belongs to the event port (30_encoding.md R90, R94, R95). -/

namespace Sys2Proof.Laws.EncodedPort

/-- The word of an event is of class 3, the word of a command is not. -/
def Statement (i : Instr) : Prop := clsField (encode i) = 0x3#4 ↔ i.side = .event

theorem rbPut (len : Nat) : Statement (.rbPut len) := by simp [Statement, encode, Instr.side]
theorem rbGet (len : Nat) : Statement (.rbGet len) := by simp [Statement, encode, Instr.side]
theorem rbLen (r : Ring) : Statement (.rbLen r) := by simp [Statement, encode, Instr.side]
theorem rbReset (r : Ring) : Statement (.rbReset r) := by simp [Statement, encode, Instr.side]
theorem rxpStart : Statement .rxpStart := by simp [Statement, encode, Instr.side]
theorem rxpStop : Statement .rxpStop := by simp [Statement, encode, Instr.side]
theorem txpKick : Statement .txpKick := by simp [Statement, encode, Instr.side]
theorem txpStop : Statement .txpStop := by simp [Statement, encode, Instr.side]
theorem evTick (count : Nat) : Statement (.evTick count) := by simp [Statement, encode, Instr.side]
theorem evInDone (count : Nat) : Statement (.evInDone count) := by simp [Statement, encode, Instr.side]
theorem evOutDone (count : Nat) : Statement (.evOutDone count) := by simp [Statement, encode, Instr.side]
theorem evInError : Statement .evInError := by simp [Statement, encode, Instr.side]
theorem evOutError : Statement .evOutError := by simp [Statement, encode, Instr.side]
theorem evInData (byte : Byte) (off : Nat) : Statement (.evInData byte off) := by simp [Statement, encode, Instr.side]
theorem regRead (idx : Nat) : Statement (.regRead idx) := by simp [Statement, encode, Instr.side]

end Sys2Proof.Laws.EncodedPort
end

