-- ==== Sys2Proof/Laws/Queue.lean ====
section
/-! SUPPORT. A ring seen as a queue (40_ringbuffer.md R131, R132): what each ring primitive does to the buffered bytes and to the
bytes of a put in progress. Each lemma asks only that the ring, the parameters and the epoch of the later state are the ones
named, so that it applies to whatever else a step changes. -/

namespace Sys2Proof.Machine

section
variable {s t : State} {r : Ring}

theorem memRead_ring_congr (hm : (t.ring r).mem = (s.ring r).mem) (he : t.epoch = s.epoch) (a : Nat) :
    t.memRead (spaceOf r) a = s.memRead (spaceOf r) a := by
  cases r
  · exact State.memRead_congr (sp := .rxMem) hm he a
  · exact State.memRead_congr (sp := .txMem) hm he a

theorem cap_congr (hc : t.cfg = s.cfg) : t.cap r = s.cap r := by
  simp [State.cap, hc]

/-- The contents depend on the storage and the two counters alone. -/
theorem contents_congr (hm : (t.ring r).mem = (s.ring r).mem) (hw : (t.ring r).wr = (s.ring r).wr)
    (hr : (t.ring r).rd = (s.ring r).rd) (hc : t.cfg = s.cfg) (he : t.epoch = s.epoch) :
    t.contents r = s.contents r := by
  simp only [State.contents, RingState.fill, hw, hr, cap_congr hc, memRead_ring_congr hm he]

theorem pendingBytes_congr (hm : (t.ring r).mem = (s.ring r).mem) (hw : (t.ring r).wr = (s.ring r).wr)
    (hp : (t.ring r).pp = (s.ring r).pp) (hc : t.cfg = s.cfg) (he : t.epoch = s.epoch) :
    t.pendingBytes r = s.pendingBytes r := by
  simp only [State.pendingBytes, hw, hp, cap_congr hc, memRead_ring_congr hm he]

@[simp] theorem length_contents (s : State) (r : Ring) : (s.contents r).length = (s.ring r).fill (s.cap r) := by
  simp [State.contents]

theorem pendingBytes_idle (h : (s.ring r).pp.busy = false) : s.pendingBytes r = [] := by
  simp [State.pendingBytes, PortCtx.pending, h]

/-- A put's completion appends the bytes its begin step stored. -/
theorem contents_putEnd (h : RingInv (s.cap r) (s.ring r)) (hb : (s.ring r).pp.busy = true)
    (ht : t.ring r = (s.ring r).putEnd (s.cap r)) (hc : t.cfg = s.cfg) (he : t.epoch = s.epoch) :
    t.contents r = s.contents r ++ s.pendingBytes r := by
  have hput := h.put_fits
  simp only [PortCtx.pending, hb, if_true] at hput
  have hf := fill_putEnd h.wr_lt h.rd_lt hput
  have hm : (t.ring r).mem = (s.ring r).mem := by rw [ht]; rfl
  have hr : (t.ring r).rd = (s.ring r).rd := by rw [ht]; rfl
  simp only [State.contents, State.pendingBytes, cap_congr hc, memRead_ring_congr hm he, hr, PortCtx.pending, hb, if_true]
  rw [ht, hf, List.range_add, List.map_append, List.map_map]
  congr 1
  apply List.map_congr_left
  intro k _
  simp [pos_wr h.wr_lt h.rd_lt]

/-- A get's completion returns the oldest bytes. -/
theorem gotBytes_eq (h : (s.ring r).cp.n ≤ (s.ring r).fill (s.cap r)) :
    s.gotBytes r = (s.contents r).take (s.ring r).cp.n := by
  simp only [State.gotBytes, State.contents, ← List.map_take, List.take_range, Nat.min_eq_left h]

/-- A get's completion drops them from the front. -/
theorem contents_getEnd (h : RingInv (s.cap r) (s.ring r)) (hb : (s.ring r).cp.busy = true)
    (ht : t.ring r = (s.ring r).getEnd (s.cap r)) (hc : t.cfg = s.cfg) (he : t.epoch = s.epoch) :
    t.contents r = (s.contents r).drop (s.ring r).cp.n := by
  have hget := h.get_fits
  have hput := h.put_fits
  simp only [PortCtx.pending, hb, if_true] at hget
  have hf := fill_getEnd h.wr_lt h.rd_lt (by omega) hget
  have hm : (t.ring r).mem = (s.ring r).mem := by rw [ht]; rfl
  have hr : (t.ring r).rd = advance (s.cap r) (s.ring r).rd (s.ring r).cp.n := by rw [ht]; rfl
  apply List.ext_getElem
  · rw [List.length_drop, length_contents, length_contents, cap_congr hc, ht, hf]
  · intro k h1 h2
    simp [State.contents, cap_congr hc, memRead_ring_congr hm he, hr, pos_advance]

/-- A put's begin step leaves the buffered bytes alone and stores the bytes that fit. -/
theorem contents_putBegin {src : List Byte} {len : Nat} (h : RingInv (s.cap r) (s.ring r))
    (ht : t.ring r = (s.ring r).putBegin (s.cap r) src len) (hc : t.cfg = s.cfg) (he : t.epoch = s.epoch) :
    t.contents r = s.contents r := by
  have hput := h.put_fits
  have hf : (t.ring r).fill (s.cap r) = (s.ring r).fill (s.cap r) := by rw [ht]; rfl
  have hr : (t.ring r).rd = (s.ring r).rd := by rw [ht]; rfl
  simp only [State.contents, cap_congr hc, hf, hr]
  apply List.map_congr_left
  intro k hk
  have hkf := List.mem_range.mp hk
  have hread : (t.ring r).mem.read (pos (s.cap r) (s.ring r).rd k) = (s.ring r).mem.read (pos (s.cap r) (s.ring r).rd k) := by
    rw [ht]
    refine read_putBegin_other src len fun j hj => ?_
    rw [pos_wr h.wr_lt h.rd_lt]
    refine pos_injective (by omega) ?_
    have : (s.ring r).free (s.cap r) = s.cap r - (s.ring r).fill (s.cap r) := rfl
    omega
  cases r <;> simp only [State.memRead, spaceOf, State.space, State.ring] at hread ⊢ <;> rw [hread, he]

theorem pendingBytes_putBegin {src : List Byte} {len : Nat} (hs : src.length = len)
    (ht : t.ring r = (s.ring r).putBegin (s.cap r) src len) (hc : t.cfg = s.cfg) :
    t.pendingBytes r = src.take ((s.ring r).free (s.cap r)) := by
  have hn : (t.ring r).pp = ⟨true, min len ((s.ring r).free (s.cap r))⟩ := by rw [ht]; rfl
  have hw : (t.ring r).wr = (s.ring r).wr := by rw [ht]; rfl
  apply List.ext_getElem
  · simp [State.pendingBytes, PortCtx.pending, hn, hs, Nat.min_comm]
  · intro k h1 h2
    have hk : k < min len ((s.ring r).free (s.cap r)) := by simpa [State.pendingBytes, PortCtx.pending, hn] using h1
    have hread := read_putBegin_at (N := s.cap r) (q := s.ring r) (src := src) hk (by omega)
    rw [← ht] at hread
    have hmr : t.memRead (spaceOf r) (pos (s.cap r) (s.ring r).wr k) = src[k] := by
      cases r
      · exact State.memRead_of_read (sp := .rxMem) hread
      · exact State.memRead_of_read (sp := .txMem) hread
    simp [State.pendingBytes, cap_congr hc, hw, hmr]

end

end Sys2Proof.Machine
end

