-- ==== Sys2Proof/Tests/Slice0.lean ====
section
/-! SUPPORT. Tests: ill-formed instructions are refused, words of 95_test_vectors.md section 2.1 decode, single steps give the
values of its sections 2.2 to 2.5, and every statement with hypotheses has a state that meets them. -/

namespace Sys2Proof.Tests

open Sys2Proof.Machine

/-! ### WellFormed refuses ill-formed terms (R97, R98) -/

theorem test_illformed_rbPut : (Instr.rbPut 65536).wf = false := by decide
theorem test_illformed_rbGet : (Instr.rbGet 65536).wf = false := by decide
theorem test_illformed_evTick : (Instr.evTick 65536).wf = false := by decide
theorem test_illformed_evInDone : (Instr.evInDone 65536).wf = false := by decide
theorem test_illformed_evOutDone : (Instr.evOutDone 65536).wf = false := by decide
theorem test_illformed_evInData : (Instr.evInData 0x41#8 65536).wf = false := by decide
theorem test_illformed_regRead : (Instr.regRead 256).wf = false := by decide
theorem test_illformed_payload : payloadFits (.rbPut 2) [0x41#8] = false := by decide
theorem test_wellformed_bounds : (Instr.rbPut 65535).wf = true ∧ (Instr.regRead 255).wf = true ∧
    payloadFits (.rbPut 1) [0x41#8] = true := by decide

/-! ### Decoding, fields from bit 31 down: `cls fn unit rsv arg` (R91 to R96) -/

theorem test_decode_rbPut : decode 0b0001_0000_0001_0000_0000000001000000#32 = .ok (.rbPut 64) := by decide
theorem test_decode_rbGet : decode 0b0001_0001_0000_0000_0000000001000000#32 = .ok (.rbGet 64) := by decide
theorem test_decode_rbLen : decode 0b0001_0010_0001_0000_0000000000000000#32 = .ok (.rbLen .tx) := by decide
theorem test_decode_rbReset : decode 0b0001_0011_0000_0000_0000000000000000#32 = .ok (.rbReset .rx) := by decide
theorem test_decode_rxpStart : decode 0b0010_0000_0000_0000_0000000000000000#32 = .ok .rxpStart := by decide
theorem test_decode_rxpStop : decode 0b0010_0001_0000_0000_0000000000000000#32 = .ok .rxpStop := by decide
theorem test_decode_txpKick : decode 0b0010_0000_0001_0000_0000000000000000#32 = .ok .txpKick := by decide
theorem test_decode_txpStop : decode 0b0010_0001_0001_0000_0000000000000000#32 = .ok .txpStop := by decide
theorem test_decode_evTick : decode 0b0011_0000_0000_0000_0000000000100000#32 = .ok (.evTick 32) := by decide
theorem test_decode_evInDone : decode 0b0011_0001_0000_0000_0000000001000000#32 = .ok (.evInDone 64) := by decide
theorem test_decode_evOutDone : decode 0b0011_0001_0001_0000_0000000000000001#32 = .ok (.evOutDone 1) := by decide
theorem test_decode_evInError : decode 0b0011_0010_0000_0000_0000000000000000#32 = .ok .evInError := by decide
theorem test_decode_evOutError : decode 0b0011_0010_0001_0000_0000000000000000#32 = .ok .evOutError := by decide
theorem test_decode_evInData : decode 0b0011_0011_01000001_0000000000000011#32 = .ok (.evInData 0x41#8 3) := by decide
theorem test_decode_evInData_ones : decode 0x33FFFFFF#32 = .ok (.evInData 0xFF#8 65535) := by decide
theorem test_decode_regRead : decode 0b0100_0000_0000_0000_00000000_00010000#32 = .ok (.regRead 0x10) := by decide

/-- The illegal words of section 2.1, each with the reason the table gives. -/
theorem test_decode_illegal :
    decode 0xFFFFFFFF#32 = .error .cls ∧ decode 0x50000000#32 = .error .cls ∧ decode 0x11100001#32 = .error .unit ∧
    decode 0x12000001#32 = .error .arg ∧ decode 0x12200000#32 = .error .unit ∧ decode 0x14000000#32 = .error .fn ∧
    decode 0x20000001#32 = .error .arg ∧ decode 0x22000000#32 = .error .fn ∧ decode 0x21200000#32 = .error .unit ∧
    decode 0x30100000#32 = .error .unit ∧ decode 0x32000001#32 = .error .arg ∧ decode 0x31200000#32 = .error .unit ∧
    decode 0x34000000#32 = .error .fn ∧ decode 0x41000000#32 = .error .fn := by decide

theorem test_decode_wrong_port : decodeOn .command 0x30000020#32 = .error .port ∧
    decodeOn .event 0x20000000#32 = .error .port := by decide

theorem test_encode_words : encode (.rbPut 65535) = 0x1010FFFF#32 ∧ encode (.evInData 0x41#8 3) = 0x33410003#32 ∧
    encode (.rbReset .tx) = 0x13100000#32 ∧ encode (.regRead 0x0C) = 0x4000000C#32 := by decide

/-- The host's two probes evaluate: decoding a table word, and running it as the first operation after reset. -/
theorem test_table_word : decodeTableWord 32 0x31100040 = some (.evOutDone 64) ∧ decodeTableWord 32 0 = none := by decide

theorem test_fetch_word_command : ∃ t, step (State.reset.withFetchWord 32 0x12000000) = .next t ∧
    t.trace = [.result .ok 0] := ⟨_, rfl, by decide⟩
theorem test_fetch_word_event : ∃ t, step (State.reset.withFetchWord 32 0x33410003) = .next t ∧
    t.rxStage = [(3, 0x41#8)] := ⟨_, rfl, by decide⟩

/-! ### A small block: rings of 4 bytes, a staging buffer of 4, chunks of 3 -/

def params : Params :=
  { nRx := ⟨4, by decide, by decide⟩
    nTx := ⟨4, by decide, by decide⟩
    rxStage := ⟨4, by decide, by decide⟩
    txChunk := ⟨3, by decide, by decide⟩
    delayedClose := true }

def base : State := State.resetWith params

/-- `A`, `B`, `C` at positions 0 to 2. -/
def abc : Memory := [(0, 0x41#8), (1, 0x42#8), (2, 0x43#8)]

/-- A ring holding `A`, `B`, `C`. -/
def three : RingState := { RingState.reset with mem := abc, wr := 3 }

/-- Armed, with `A`, `B`, `C` staged. -/
def posted : State := { base with rxpState := .receivePosted, rxStage := abc }

/-- Draining three bytes into an empty ring. -/
def draining : State :=
  { posted with rxPrev := 3, rxDone := true, rxC := 3, rx := { RingState.reset with mem := abc, pp := ⟨true, 3⟩ } }

/-- A get of two of three buffered bytes is in progress. -/
def getting : State := { posted with rx := { three with cp := ⟨true, 2⟩ } }

/-- `A`, `B`, `C` wait in the TX ring. -/
def filled : State := { base with tx := three }

/-- A put of `D` behind them is in progress. -/
def putting : State := { base with tx := { three with mem := abc ++ [(3, 0x44#8)], pp := ⟨true, 1⟩ } }

/-- A fetch of them, begun by a kick, is in progress. -/
def fetching : State := { base with tx := { three with cp := ⟨true, 3⟩ } }

/-- `A`, `B`, `C` are in flight and wait in the ring once more. -/
def sending : State := { filled with txpState := .sendPosted, txCount := 3, txBusy := true, txStage := abc }

/-- As `sending`, with a deferred close. -/
def stopping : State := { sending with txStopPending := true }

/-- The facts of `RingInv`, as a decidable proposition. -/
abbrev ringFacts (N : Nat) (q : RingState) : Prop :=
  q.wr < 2 * N ∧ q.rd < 2 * N ∧ q.fill N + q.pp.pending ≤ N ∧ q.cp.pending ≤ q.fill N ∧ q.pp.n ≤ N ∧ q.cp.n ≤ N ∧
    Memory.wf N q.mem ∧ ∀ k, k < q.fill N + q.pp.pending → (q.mem.read (pos N q.rd k)).isSome = true

/-- The facts of `State.Inv`, as a decidable proposition. -/
abbrev invFacts (s : State) : Prop :=
  ringFacts (s.cap .rx) s.rx ∧ ringFacts (s.cap .tx) s.tx ∧ s.rxPrev < 65536 ∧ s.rxC ≤ s.cfg.rxStage.val ∧
    (s.rx.pp.busy = true → s.rx.pp.n ≤ s.rxC) ∧ s.rxDrop ≤ 0xFFFFFFFF ∧
    (s.rx.pp.busy = true → s.rxpState = .receivePosted) ∧ s.txCount ≤ s.cfg.txChunk.val ∧
    (s.tx.cp.busy = true → s.tx.cp.n ≤ s.cfg.txChunk.val) ∧ (s.txBusy = true ↔ s.txpState = .sendPosted) ∧
    (s.txStopPending = true → s.txpState = .sendPosted ∧ s.tx.cp.busy = false) ∧
    (s.txpState = .idle → s.txCount = 0) ∧ (s.txpState = .sendPosted → 0 < s.txCount) ∧
    Memory.wf s.cfg.rxStage.val s.rxStage ∧ Memory.wf s.cfg.txChunk.val s.txStage ∧
    (s.txpState = .sendPosted → ∀ k, k < s.txCount → (s.txStage.read k).isSome = true)

theorem ringInv_of_facts {N : Nat} {q : RingState} : ringFacts N q → RingInv N q :=
  fun ⟨h1, h2, h3, h4, h5, h6, h7, h8⟩ => ⟨h1, h2, h3, h4, h5, h6, h7, h8⟩

theorem inv_of_facts {s : State} : invFacts s → s.Inv :=
  fun ⟨r, t, h1, h2, h3, h4, h5, h6, h7, h8, h9, h10, h11, h12, h13, h14⟩ =>
    ⟨ringInv_of_facts r, ringInv_of_facts t, h1, h2, h3, h4, h5, h6, h7, h8, h9, h10, h11, h12, h13, h14⟩

theorem test_inv_posted : posted.Inv := inv_of_facts (by decide)
theorem test_inv_draining : draining.Inv := inv_of_facts (by decide)
theorem test_inv_getting : getting.Inv := inv_of_facts (by decide)
theorem test_inv_filled : filled.Inv := inv_of_facts (by decide)
theorem test_inv_putting : putting.Inv := inv_of_facts (by decide)
theorem test_inv_fetching : fetching.Inv := inv_of_facts (by decide)
theorem test_inv_sending : sending.Inv := inv_of_facts (by decide)
theorem test_inv_stopping : stopping.Inv := inv_of_facts (by decide)

/-- A command presented, the command port's turn next. -/
def withCommand (s : State) (i : Instr) (data : List Byte) (ok : Bool) : State :=
  { s with presented := some ⟨encode i, data⟩, turns := [.command ok] }

/-- An event's turn next. -/
def withEvent (s : State) (i : Instr) : State := { s with turns := [.event (encode i)] }

/-- One turn next. -/
def withTurn (s : State) (u : Turn) : State := { s with turns := [u] }

/-! ### Ring primitives: vectors V1, V2, V4 and V6 of section 2.2 -/

/-- V1, row 5: four of `D..H` fit, at positions 3, 4, 0, 1. -/
def v1Ring : RingState :=
  { mem := [(0, 0x41#8), (1, 0x42#8), (2, 0x43#8)], wr := 3, rd := 2, pp := ⟨false, 3⟩, cp := ⟨false, 2⟩ }

theorem test_v1_put_wraps : (v1Ring.putBegin 5 [0x44#8, 0x45#8, 0x46#8, 0x47#8, 0x48#8] 5).mem =
      [(0, 0x46#8), (1, 0x47#8), (2, 0x43#8), (3, 0x44#8), (4, 0x45#8)] ∧
    (v1Ring.putBegin 5 [0x44#8, 0x45#8, 0x46#8, 0x47#8, 0x48#8] 5).pp = ⟨true, 4⟩ := by decide

/-- V1, row 12: `(7 + 4) mod 10 = 1`, fill `(1 - 7) mod 10 = 4`. -/
theorem test_v1_putEnd_wraps : (RingState.putEnd 5 { v1Ring with wr := 7, rd := 7, pp := ⟨true, 4⟩ }).wr = 1 ∧
    RingState.fill 5 { v1Ring with wr := 1, rd := 7 } = 4 := by decide

/-- V6: the fill of `(wr, rd)` for capacity 5, positions and an index update. -/
theorem test_v6_arithmetic :
    [(0, 0), (5, 0), (7, 2), (1, 7), (0, 5), (9, 9), (2, 9)].map (fun c => modSub c.1 c.2 10) = [0, 5, 5, 4, 5, 0, 3] ∧
    [7, 5, 9].map (fun idx => pos 5 idx 0) = [2, 0, 4] ∧ advance 5 9 5 = 4 := by decide

/-- V2: with one byte of capacity the counters are 0 and 1. -/
theorem test_v2_one_byte : advance 1 1 1 = 0 ∧ modSub 0 1 2 = 1 ∧ pos 1 1 0 = 0 := by decide

/-! ### Single steps -/

/-- V4: a put of nothing is busy between its two steps. -/
theorem test_rbPut_empty : ∃ t, step (withCommand base (.rbPut 0) [] true) = .next t ∧ t.tx.pp = ⟨true, 0⟩ :=
  ⟨_, rfl, by decide⟩

/-- One byte of two fits: the first, at position 3. -/
theorem test_rbPut_short : ∃ t, step (withCommand filled (.rbPut 2) [0x44#8, 0x45#8] true) = .next t ∧
    t.tx.pp = ⟨true, 1⟩ ∧ t.tx.mem = abc ++ [(3, 0x44#8)] ∧ t.tx.wr = 3 := ⟨_, rfl, by decide⟩

theorem test_putEnd : ∃ t, step (withTurn putting .putEnd) = .next t ∧ t.tx.wr = 4 ∧ t.trace = [.result .ok 1] :=
  ⟨_, rfl, by decide⟩

/-- V4: a get of more than the fill. -/
theorem test_rbGet_short : ∃ t, step (withCommand { base with rx := three } (.rbGet 65535) [] true) = .next t ∧
    t.rx.cp = ⟨true, 3⟩ := ⟨_, rfl, by decide⟩

theorem test_getEnd : ∃ t, step (withTurn getting .getEnd) = .next t ∧ t.rx.rd = 2 ∧
    t.trace = [.resultData .ok 2 [0x41#8, 0x42#8]] := ⟨_, rfl, by decide⟩

/-- V5: the fill without the pending bytes. -/
theorem test_rbLen_pending : ∃ t, step (withCommand putting (.rbLen .tx) [] true) = .next t ∧ t.trace = [.result .ok 3] :=
  ⟨_, rfl, by decide⟩

/-- V1, last row: the counters are 0, the storage is unchanged. -/
theorem test_rbReset : ∃ t, step (withCommand filled (.rbReset .tx) [] true) = .next t ∧ t.tx.wr = 0 ∧ t.tx.mem = abc ∧
    t.trace = [.result .ok 0] := ⟨_, rfl, by decide⟩

/-- V11: refused, then accepted. -/
theorem test_rxpStart_refused : ∃ t, step (withCommand base .rxpStart [] false) = .next t ∧ t.rxpState = .idle ∧
    t.trace = [.submit (.receive 4), .result .notAttached 0] := ⟨_, rfl, by decide⟩
theorem test_rxpStart_armed : ∃ t, step (withCommand base .rxpStart [] true) = .next t ∧ t.rxpState = .receivePosted ∧
    t.trace = [.submit (.receive 4), .result .ok 0] := ⟨_, rfl, by decide⟩

/-- V12. -/
theorem test_rxpStop : ∃ t, step (withCommand { posted with rxPrev := 9 } .rxpStop [] true) = .next t ∧
    t.rxpState = .idle ∧ t.rxPrev = 0 ∧ t.trace = [.abortIn, .result .ok 0] := ⟨_, rfl, by decide⟩
theorem test_evInError : ∃ t, step (withEvent { posted with rxPrev := 9 } .evInError) = .next t ∧
    t.rxpState = .idle ∧ t.rxPrev = 0 ∧ t.trace = [.xferError .bulkIn] := ⟨_, rfl, by decide⟩

/-- V13: the last position is written, the one after it is not. -/
theorem test_evInData_last : ∃ t, step (withEvent base (.evInData 0x7E#8 3)) = .next t ∧ t.rxStage = [(3, 0x7E#8)] :=
  ⟨_, rfl, by decide⟩
theorem test_evInData_beyond : ∃ t, step (withEvent base (.evInData 0x7E#8 4)) = .next t ∧ t.rxStage = [] :=
  ⟨_, rfl, by decide⟩

/-- V7: a second tick with the same count begins the delivery. -/
theorem test_evTick_delivers : ∃ t, step (withEvent { posted with rxPrev := 3 } (.evTick 3)) = .next t ∧
    t.rxDone = true ∧ t.rxC = 3 ∧ t.rx.pp = ⟨true, 3⟩ ∧ t.rx.mem = abc := ⟨_, rfl, by decide⟩

/-- V7: "`EV_TICK 0` | 0, 0 | ignored (unchanged and zero)". -/
theorem test_evTick_zero : ∃ t, step (withEvent posted (.evTick 0)) = .next t ∧ t.rxDone = false ∧ t.rx.pp.busy = false :=
  ⟨_, rfl, by decide⟩

/-- V9: a completion of no bytes begins a delivery of none. -/
theorem test_evInDone_zero : ∃ t, step (withEvent posted (.evInDone 0)) = .next t ∧ t.rxDone = true ∧ t.rxC = 0 ∧
    t.rx.pp = ⟨true, 0⟩ := ⟨_, rfl, by decide⟩

/-- Program C, step 5, in small: two bytes fit, one is dropped and counted. -/
theorem test_drainEnd_drops : ∃ t, step (withTurn { draining with rx := { draining.rx with pp := ⟨true, 2⟩ } }
      (.drainEnd true)) = .next t ∧ t.rx.wr = 2 ∧ t.rxDrop = 1 ∧ t.trace = [.rxReady, .submit (.receive 4)] :=
  ⟨_, rfl, by decide⟩

/-- V11: a refused re-arm. -/
theorem test_drainEnd_refused : ∃ t, step (withTurn draining (.drainEnd false)) = .next t ∧ t.rxpState = .idle ∧
    t.rxPrev = 3 ∧ t.trace = [.rxReady, .submit (.receive 4)] := ⟨_, rfl, by decide⟩

/-- V14, V15. -/
theorem test_txpKick : ∃ t, step (withCommand filled .txpKick [] true) = .next t ∧ t.tx.cp = ⟨true, 3⟩ ∧
    t.txpState = .idle ∧ t.trace = [.result .ok 0] := ⟨_, rfl, by decide⟩
theorem test_fetchEnd_empty : ∃ t, step (withTurn { base with tx := { RingState.reset with cp := ⟨true, 0⟩ } }
      (.fetchEnd true)) = .next t ∧ t.txpState = .idle ∧ t.trace = [] := ⟨_, rfl, by decide⟩
theorem test_fetchEnd : ∃ t, step (withTurn fetching (.fetchEnd true)) = .next t ∧ t.tx.rd = 3 ∧ t.txCount = 3 ∧
    t.txBusy = true ∧ t.txpState = .sendPosted ∧ t.trace = [.submit (.send 3 [0x41#8, 0x42#8, 0x43#8])] :=
  ⟨_, rfl, by decide⟩

/-- V16: a refused submission: the bytes are lost. -/
theorem test_fetchEnd_refused : ∃ t, step (withTurn fetching (.fetchEnd false)) = .next t ∧ t.tx.rd = 3 ∧
    t.txpState = .idle ∧ t.txBusy = false ∧ t.txCount = 0 := ⟨_, rfl, by decide⟩

/-- V17. -/
theorem test_txpStop_idle : ∃ t, step (withCommand base .txpStop [] true) = .next t ∧
    t.trace = [.txReleased, .result .ok 0] := ⟨_, rfl, by decide⟩
theorem test_txpStop_deferred : ∃ t, step (withCommand sending .txpStop [] true) = .next t ∧
    t.txStopPending = true ∧ t.trace = [.result .deferred 0] := ⟨_, rfl, by decide⟩
theorem test_evOutDone_releases : ∃ t, step (withEvent stopping (.evOutDone 3)) = .next t ∧ t.txpState = .idle ∧
    t.txStopPending = false ∧ t.tx.cp.busy = false ∧ t.trace = [.txReleased] := ⟨_, rfl, by decide⟩
theorem test_evOutDone_fetches : ∃ t, step (withEvent sending (.evOutDone 3)) = .next t ∧ t.tx.cp = ⟨true, 3⟩ ∧
    t.txpState = .sendPosted := ⟨_, rfl, by decide⟩

/-- V18. -/
theorem test_evOutError_pending : ∃ t, step (withEvent stopping .evOutError) = .next t ∧ t.txpState = .idle ∧
    t.trace = [.xferError .bulkOut, .txReleased] := ⟨_, rfl, by decide⟩

/-- V19, V20. -/
theorem test_regRead_config : ∃ t, step (withCommand base (.regRead 0x10) [] true) = .next t ∧ t.trace = [.result .ok 1] :=
  ⟨_, rfl, by decide⟩
theorem test_regRead_txpStatus : ∃ t, step (withCommand stopping (.regRead 0x0C) [] true) = .next t ∧
    t.trace = [.result .ok 7] := ⟨_, rfl, by decide⟩
theorem test_portStatus : State.portStatus { draining with tx := fetching.tx } = 9#32 := by decide

/-- V21: `RESET` in mid-operation. -/
theorem test_reset : ∃ t, step (withTurn putting .reset) = .next t ∧ t.tx.wr = 0 ∧ t.tx.pp.busy = false ∧ t.trace = [] :=
  ⟨_, rfl, rfl, rfl, rfl⟩

/-! ### Witnesses: states and operands that meet the hypotheses of the statements

Each name ends in the statement's. A statement by cases has a witness for every case. -/

theorem test_witness_DecodeAfterEncodeIsIdentity : (Instr.evInData 0xFF#8 65535).wf = true ∧
    decode (encode (.evInData 0xFF#8 65535)) = .ok (.evInData 0xFF#8 65535) := by decide
theorem test_witness_EncodeAfterDecodeIsIdentity : decode 0x4000000C#32 = .ok (.regRead 0x0C) := by decide
theorem test_witness_DecoderFollowsTheOpcodeMap :
    opcodeRow 0x12100000#32 = some ⟨"RB_LEN", 0x12000000#32, 0xFFEFFFFF#32⟩ ∧ opcodeRow 0x12200000#32 = none := by decide

theorem test_witness_StepRunsThePresentedCommand :
    (withCommand base (.rbLen .rx) [] true).turns = [.command true] ∧
    decodeOn .command (encode (.rbLen .rx)) = .ok (.rbLen .rx) ∧
    (withCommand base (.rbLen .rx) [] true).presented = some ⟨encode (.rbLen .rx), []⟩ := by decide
theorem test_witness_StepRunsThePresentedCommand_host :
    State.presented { base with host := [⟨encode (.rbLen .rx), []⟩], turns := [.command true] } = none ∧
    decodeOn .command (encode (.rbLen .rx)) = .ok (.rbLen .rx) := by decide
theorem test_witness_StepRunsTheArrivingEvent : (withEvent base .evInError).turns = [.event (encode .evInError)] ∧
    decodeOn .event (encode .evInError) = .ok .evInError := by decide

theorem test_witness_IllegalWordsChangeNothing :
    decodeOn .command 0x30000020#32 = .error .port ∧ decodeOn .command 0x00000000#32 = .error .cls ∧
    decodeOn .event 0x20000000#32 = .error .port ∧ decode 0x30000020#32 = .ok (.evTick 32) ∧
    decode 0x40000011#32 = .ok (.regRead 0x11) ∧ 0x10 < 0x11 := by decide

/-- An illegal word that the host has ready and the port takes in this turn. -/
theorem test_witness_IllegalWordsChangeNothing_host :
    ∃ t, step { base with host := [⟨0x00000000#32, []⟩], turns := [.command true] } = .next t ∧
      base.presented = none ∧ t.presented = none ∧ t.host = [] ∧ t.trace = [.result .illegal 0] := ⟨_, rfl, by decide⟩

theorem test_witness_CommandsAreAcceptedExactlyWhen :
    (withCommand filled (.rbPut 1) [0x44#8] true).payload.length = 1 ∧ filled.tx.pp.busy = false ∧
    (withCommand putting (.rbPut 1) [0x44#8] true).payload.length = 1 ∧ putting.tx.pp.busy = true ∧
    getting.rx.cp.busy = true ∧ getting.rx.pp.busy = false ∧ draining.rx.pp.busy = true ∧ draining.rx.cp.busy = false ∧
    fetching.tx.cp.busy = true ∧ fetching.tx.pp.busy = false ∧ filled.tx.cp.busy = false ∧ Instr.evInError.side = .event ∧
    (State.presented { withCommand base .rxpStop [] true with presented := some ⟨0x00000000#32, []⟩ }) =
      some ⟨0x00000000#32, []⟩ ∧ decodeOn .command 0x00000000#32 = .error .cls ∧
    decodeOn .event 0x20000000#32 = .error .port := by decide
theorem test_witness_MalformedPayloadIsRefused : (withCommand base (.rbPut 2) [0x44#8] true).payload.length ≠ 2 ∧
    (withCommand putting (.rbPut 2) [0x44#8] true).payload.length ≠ 2 ∧ putting.tx.pp.busy = true := by decide

theorem test_witness_ResetStepRestoresEveryField : (withTurn putting .reset).turns = [.reset] := by decide
/-- Six completions and terminal events after a `RESET` in mid-operation. -/
def resetRun : State :=
  { putting with turns := [.reset, .putEnd, .getEnd, .drainEnd true, .fetchEnd false, .event (encode (.evInDone 3)),
      .event (encode .evOutError)] }

theorem test_witness_ResetCancelsOperationsInProgress : ∃ t, step resetRun = .next t ∧
    (∀ u ∈ resetRun.turns.tail, u.completion.isSome = true ∨ u = .event (encode (.evInDone 3)) ∨
      u = .event (encode .evOutError)) ∧
    decode (encode (.evInDone 3)) = .ok (.evInDone 3) ∧ decode (encode .evOutError) = .ok .evOutError ∧
    ∃ v, Host.Core.run Sys2Proof.core 6 t = .next v ∧ State.turns v = [] ∧ State.trace v = [] :=
  ⟨_, rfl, by decide, by decide, by decide, _, rfl, rfl, rfl⟩

/-- A run after `RESET` in which no operation begins. -/
theorem test_witness_ResetCancelsOperationsInProgress_run : ∃ t v, step resetRun = .next t ∧
    Host.Core.run Sys2Proof.core 1 t = .next v ∧ State.nextInstr t = none := ⟨_, _, rfl, rfl, rfl⟩

theorem test_witness_StepKeepsTheInvariant : ∃ t, (withTurn draining (.drainEnd true)).Inv ∧
    step (withTurn draining (.drainEnd true)) = .next t := ⟨_, inv_of_facts (by decide), rfl⟩
theorem test_witness_InvariantStatesNeverFault : (withCommand filled (.rbPut 2) [0x44#8] true).Inv ∧
    step (withCommand filled (.rbPut 2) [0x44#8] true) = .refused (.malformedPayload 2 1) :=
  ⟨inv_of_facts (by decide), rfl⟩
theorem test_witness_FaultsAreChunksBeyondTheStage :
    step { filled with tx := { three with cp := ⟨true, 4⟩ }, turns := [.fetchEnd true] } =
      .fault (.noSuchPosition .txStg 3) := rfl
theorem test_witness_ParametersNeverChange : ∃ t, step (withTurn putting .reset) = .next t ∧ t.cfg = params := ⟨_, rfl, rfl⟩
theorem test_witness_TraceOnlyGrows : ∃ t, step (withEvent stopping .evOutError) = .next t ∧ t.trace.length = 2 :=
  ⟨_, rfl, by decide⟩

theorem test_witness_EachCounterHasOneWriter :
    (∃ t, step (withTurn draining (.drainEnd true)) = .next t ∧ t.rx.wr ≠ draining.rx.wr) ∧
    (∃ t, step (withTurn getting .getEnd) = .next t ∧ t.rx.rd ≠ getting.rx.rd) ∧
    (∃ t, step (withTurn putting .putEnd) = .next t ∧ t.tx.wr ≠ putting.tx.wr) ∧
    ∃ t, step (withTurn fetching (.fetchEnd true)) = .next t ∧ t.tx.rd ≠ fetching.tx.rd :=
  ⟨⟨_, rfl, by decide⟩, ⟨_, rfl, by decide⟩, ⟨_, rfl, by decide⟩, ⟨_, rfl, by decide⟩⟩

theorem test_witness_PendingOperationsAreUndisturbed :
    (∃ t, step (withTurn draining .getEnd) = .next t ∧ draining.rx.pp.busy = true) ∧
    (∃ t, step (withTurn getting .putEnd) = .next t ∧ getting.rx.cp.busy = true) ∧
    (∃ t, step (withTurn putting .getEnd) = .next t ∧ putting.tx.pp.busy = true) ∧
    ∃ t, step (withTurn fetching .putEnd) = .next t ∧ fetching.tx.cp.busy = true :=
  ⟨⟨_, rfl, by decide⟩, ⟨_, rfl, by decide⟩, ⟨_, rfl, by decide⟩, ⟨_, rfl, by decide⟩⟩

theorem test_witness_NotificationsComeOnlyFrom :
    (∃ t, step (withTurn draining (.drainEnd true)) = .next t ∧ .rxReady ∈ t.trace) ∧
    (∃ t, step (withTurn { sending with tx := { RingState.reset with cp := ⟨true, 0⟩ } } (.fetchEnd true)) = .next t ∧
      .txDone ∈ t.trace) ∧
    (∃ t, step (withEvent posted .evInError) = .next t ∧ .xferError .bulkIn ∈ t.trace) ∧
    (∃ t, step (withEvent stopping .evOutError) = .next t ∧ .xferError .bulkOut ∈ t.trace ∧ .txReleased ∈ t.trace) ∧
    ∃ t, step (withCommand posted .rxpStop [] true) = .next t ∧ .abortIn ∈ t.trace :=
  ⟨⟨_, rfl, by decide⟩, ⟨_, rfl, by decide⟩, ⟨_, rfl, by decide⟩, ⟨_, rfl, by decide⟩, ⟨_, rfl, by decide⟩⟩
/-- `tx_released` from a stop of an `Idle` pump. -/
theorem test_witness_NotificationsComeOnlyFrom_stop : (withCommand base .txpStop [] true).Inv ∧
    ∃ t, step (withCommand base .txpStop [] true) = .next t ∧ .txReleased ∈ t.trace ∧
      (withCommand base .txpStop [] true).nextInstr = some .txpStop :=
  ⟨inv_of_facts (by decide), _, rfl, by decide, by decide⟩

theorem test_witness_NotificationsComeOnlyFrom_inv : (withTurn draining (.drainEnd true)).Inv ∧
    (withTurn { sending with tx := { RingState.reset with cp := ⟨true, 0⟩ } } (.fetchEnd true)).Inv ∧
    (withEvent posted .evInError).Inv ∧ (withEvent stopping .evOutError).Inv ∧
    (withCommand posted .rxpStop [] true).Inv :=
  ⟨inv_of_facts (by decide), inv_of_facts (by decide), inv_of_facts (by decide), inv_of_facts (by decide),
    inv_of_facts (by decide)⟩

/-- The results of an illegal word, of a completed put and of a completed get. -/
theorem test_witness_StatusesComeOnlyFrom_results :
    (∃ t, step { base with presented := some ⟨0x30000020#32, []⟩, turns := [.command true] } = .next t ∧
      t.trace = [.result .illegal 0] ∧ decodeOn .command 0x30000020#32 = .error .port) ∧
    (∃ t, step (withTurn putting .putEnd) = .next t ∧ t.trace = [.result .ok 1] ∧ putting.tx.pp.busy = true) ∧
    ∃ t, step (withTurn getting .getEnd) = .next t ∧ t.trace = [.resultData .ok 2 [0x41#8, 0x42#8]] ∧
      getting.rx.cp.busy = true := ⟨⟨_, rfl, by decide⟩, ⟨_, rfl, by decide⟩, ⟨_, rfl, by decide⟩⟩

theorem test_witness_StatusesComeOnlyFrom :
    (∃ t, step (withCommand { sending with cfg := { params with delayedClose := false } } .txpStop [] true) = .next t ∧
      t.trace = [.result .busy 0]) ∧
    (∃ t, step (withCommand sending .txpStop [] true) = .next t ∧ t.trace = [.result .deferred 0]) ∧
    (∃ t, step (withCommand base .rxpStart [] false) = .next t ∧ .result .notAttached 0 ∈ t.trace) ∧
    ∃ t, step (withCommand base (.regRead 0x11) [] true) = .next t ∧ t.trace = [.result .illegal 0] :=
  ⟨⟨_, rfl, by decide⟩, ⟨_, rfl, by decide⟩, ⟨_, rfl, by decide⟩, ⟨_, rfl, by decide⟩⟩

theorem test_witness_PumpsAreIndependent : (∃ t, exec .evInError posted = .next t ∧ t.rxpState = .idle) ∧
    ∃ t, exec .evOutError sending = .next t ∧ t.txpState = .idle := ⟨⟨_, rfl, by decide⟩, ⟨_, rfl, by decide⟩⟩

theorem test_witness_RbPutStoresWhatFits :
    (withCommand filled (.rbPut 2) [0x44#8, 0x45#8] true).payload.length = 2 ∧ filled.tx.pp.busy = false ∧
    (withCommand putting (.rbPut 1) [0x44#8] true).payload.length = 1 ∧ putting.tx.pp.busy = true ∧
    (withTurn putting .putEnd).turns = [.putEnd] ∧ (withTurn filled .putEnd).turns = [.putEnd] := by decide
theorem test_witness_RbGetReturnsTheOldestBytes : getting.rx.cp.busy = true ∧ posted.rx.cp.busy = false ∧
    (withTurn getting .getEnd).turns = [.getEnd] ∧ (withTurn posted .getEnd).turns = [.getEnd] := by decide
theorem test_witness_RbLenReturnsTheFill : getting.Inv ∧ getting.rx.fill 4 = 3 := ⟨test_inv_getting, by decide⟩
theorem test_witness_RbResetEmptiesOneRing : draining.rx.pp.busy = true ∧ getting.rx.cp.busy = true ∧
    putting.tx.pp.busy = true ∧ fetching.tx.cp.busy = true ∧ filled.tx.pp.busy = false ∧ filled.tx.cp.busy = false ∧
    posted.rx.pp.busy = false ∧ posted.rx.cp.busy = false := by decide
theorem test_witness_CounterArithmeticWithoutRemainders : RingInv 4 three ∧
    RingInv 1 { RingState.reset with mem := [(0, 0x41#8)], wr := 0, rd := 1 } :=
  ⟨ringInv_of_facts (by decide), ringInv_of_facts (by decide)⟩

/-- Two bytes offered where one fits. -/
def offering : State := withCommand filled (.rbPut 2) [0x44#8, 0x45#8] true

theorem test_witness_BackpressureKeepsBufferedBytes :
    offering.Inv ∧ offering.payload.length = 2 ∧ offering.tx.pp.busy = false ∧
    offering.tx.free offering.cfg.nTx.val < 2 ∧
    ∃ t u, exec (.rbPut 2) { offering with turns := [.putEnd] } = .next t ∧ t.turns = [.putEnd] ∧ step t = .next u :=
  ⟨inv_of_facts (by decide), by decide, by decide, by decide, _, _, rfl, rfl, rfl⟩

theorem test_witness_RingRefinesAQueue :
    (∃ t, (withTurn putting .putEnd).Inv ∧ step (withTurn putting .putEnd) = .next t) ∧
    (∃ t, (withTurn draining (.drainEnd true)).Inv ∧ step (withTurn draining (.drainEnd true)) = .next t) ∧
    (∃ t, (withTurn getting .getEnd).Inv ∧ step (withTurn getting .getEnd) = .next t) ∧
    (∃ t, (withTurn fetching (.fetchEnd true)).Inv ∧ step (withTurn fetching (.fetchEnd true)) = .next t) ∧
    ∃ t, (withEvent putting (.evTick 1)).Inv ∧ step (withEvent putting (.evTick 1)) = .next t :=
  ⟨⟨_, inv_of_facts (by decide), rfl⟩, ⟨_, inv_of_facts (by decide), rfl⟩, ⟨_, inv_of_facts (by decide), rfl⟩,
    ⟨_, inv_of_facts (by decide), rfl⟩, ⟨_, inv_of_facts (by decide), rfl⟩⟩
theorem test_witness_RingRefinesAQueue_noReset : (withEvent putting (.evTick 1)).turns.head? ≠ some .reset ∧
    (withEvent putting (.evTick 1)).nextInstr = some (.evTick 1) := by decide

/-- A put completes, then a get begins and completes, then a fetch. -/
def busyRun : State :=
  { putting with rx := getting.rx, turns := [.putEnd, .getEnd, .command true, .fetchEnd true], host := [⟨encode .txpKick, []⟩] }

theorem test_witness_SubmittedBytesAreTheAcceptedBytes : busyRun.Inv ∧ busyRun.noReset .tx ∧
    ∃ t, Host.Core.run Sys2Proof.core 4 busyRun = .next t ∧ submittedBytes (State.trace t) = [0x41#8, 0x42#8, 0x43#8] :=
  ⟨inv_of_facts (by decide), ⟨by decide, by decide, by decide⟩, _, rfl, by decide⟩
theorem test_witness_ReturnedBytesAreTheDeliveredBytes : busyRun.Inv ∧ busyRun.noReset .rx ∧
    ∃ t, Host.Core.run Sys2Proof.core 4 busyRun = .next t ∧ returnedBytes (State.trace t) = [0x41#8, 0x42#8] :=
  ⟨inv_of_facts (by decide), ⟨by decide, by decide, by decide⟩, _, rfl, by decide⟩

/-- Program E, steps 3 to 5, in small: the put begins before the fetch ends. -/
def staleRun : State :=
  { fetching with presented := some ⟨encode (.rbPut 2), [0x44#8, 0x45#8]⟩, turns := [.command true, .fetchEnd true, .putEnd] }

theorem test_witness_StaleSnapshotGivesAShortCount : staleRun.Inv ∧ decode (encode (.rbPut 2)) = .ok (.rbPut 2) ∧
    staleRun.tx.pp.busy = false ∧ staleRun.tx.cp.busy = true ∧ 0 < staleRun.tx.cp.n ∧
    ∃ t, Host.Core.run Sys2Proof.core 3 staleRun = .next t ∧ (State.trace t).getLast? = some (.result .ok 1) :=
  ⟨inv_of_facts (by decide), by decide, by decide, by decide, by decide, _, rfl, by decide⟩

/-- The symmetric case: a get that begins on an empty ring before a delivery of three bytes completes. -/
def staleGet : State :=
  { draining with presented := some ⟨encode (.rbGet 4), []⟩, turns := [.command true, .drainEnd true, .getEnd] }

theorem test_witness_StaleSnapshotGivesAShortCount_get : staleGet.Inv ∧ decode (encode (.rbGet 4)) = .ok (.rbGet 4) ∧
    staleGet.rx.cp.busy = false ∧ staleGet.rx.pp.busy = true ∧ 0 < staleGet.rx.pp.n ∧
    ∃ t, Host.Core.run Sys2Proof.core 3 staleGet = .next t ∧ (State.trace t).getLast? = some (.resultData .ok 0 []) ∧
      (State.rx t).wr = 3 :=
  ⟨inv_of_facts (by decide), by decide, by decide, by decide, by decide, _, rfl, by decide, by decide⟩

theorem test_witness_RxpStartArmsReception : draining.rx.pp.busy = true ∧ base.rx.pp.busy = false ∧ base.rxpState = .idle ∧
    base.answer = false ∧ State.answer { base with answer := true } = true ∧ posted.rx.pp.busy = false ∧
    posted.rxpState = .receivePosted := by decide
theorem test_witness_RxpStopAbortsReception : draining.rx.pp.busy = true ∧ posted.rx.pp.busy = false ∧
    posted.rxpState = .receivePosted ∧ base.rx.pp.busy = false ∧ base.rxpState = .idle := by decide
theorem test_witness_EvInDataStagesOneByte : base.cfg.rxStage.val ≤ 4 ∧ 3 < base.cfg.rxStage.val := by decide
theorem test_witness_EvTickDetectsAStalledCount : base.rxpState = .idle ∧ draining.rx.pp.busy = true ∧
    posted.rxpState = .receivePosted ∧ posted.rx.pp.busy = false ∧ 1 ≠ posted.rxPrev ∧ 0 = posted.rxPrev ∧
    State.rxPrev { posted with rxPrev := 3 } = 3 ∧ posted.rxDone = false ∧
    State.rxDone { posted with rxPrev := 3, rxDone := true } = true := by decide
theorem test_witness_EvInDoneBeginsADelivery : base.rxpState = .idle ∧ posted.rxpState = .receivePosted ∧
    posted.rx.pp.busy = false := by decide
theorem test_witness_EvInErrorIdlesTheRxPump : base.rxpState = .idle ∧ draining.rx.pp.busy = true ∧
    posted.rxpState = .receivePosted ∧ posted.rx.pp.busy = false := by decide
theorem test_witness_DrainEndCountsNotifiesAndRearms :
    (withTurn draining (.drainEnd false)).turns = [.drainEnd false] ∧ draining.rx.pp.busy = true ∧
    (withTurn posted (.drainEnd true)).turns = [.drainEnd true] ∧ posted.rx.pp.busy = false := by decide

/-- Scenario S2 in small: three bytes staged, five ticks. -/
def idleFrame : State :=
  { posted with turns := .event (encode (.evTick 3)) :: .event (encode (.evTick 3)) :: .drainEnd true ::
      List.replicate 2 (.event (encode (.evTick 3))) }

theorem test_witness_IdleFrameNotifiesExactlyOnce : idleFrame.Inv ∧ idleFrame.rxpState = .receivePosted ∧
    idleFrame.rx.pp.busy = false ∧ idleFrame.rxPrev ≠ 3 ∧
    ∃ t, Host.Core.run Sys2Proof.core 5 idleFrame = .next t ∧ (State.trace t) = [.rxReady, .submit (.receive 4)] ∧
      (State.rx t).wr = 3 :=
  ⟨inv_of_facts (by decide), by decide, by decide, by decide, _, rfl, by decide, by decide⟩

theorem test_witness_TxpKickBeginsAFetch : fetching.tx.cp.busy = true ∧ filled.tx.cp.busy = false ∧ filled.txpState = .idle ∧
    sending.tx.cp.busy = false ∧ sending.txpState = .sendPosted := by decide
theorem test_witness_TxpStopReleasesDefersOrRefuses : fetching.tx.cp.busy = true ∧ filled.tx.cp.busy = false ∧
    filled.txpState = .idle ∧ sending.tx.cp.busy = false ∧ sending.txpState = .sendPosted ∧
    sending.cfg.delayedClose = true ∧
    (State.cfg { sending with cfg := { params with delayedClose := false } }).delayedClose = false := by decide
theorem test_witness_EvOutDoneFetchesOrReleases : filled.txpState = .idle ∧ fetching.tx.cp.busy = true ∧
    sending.txpState = .sendPosted ∧ sending.tx.cp.busy = false ∧ sending.txStopPending = false ∧
    stopping.txpState = .sendPosted ∧ stopping.tx.cp.busy = false ∧ stopping.txStopPending = true := by decide
theorem test_witness_EvOutErrorIdlesTheTxPump : filled.txpState = .idle ∧ fetching.tx.cp.busy = true ∧
    sending.txpState = .sendPosted ∧ sending.tx.cp.busy = false ∧ sending.txStopPending = false ∧
    stopping.txpState = .sendPosted ∧ stopping.tx.cp.busy = false ∧ stopping.txStopPending = true := by decide

/-- The chunk is as long as the staging buffer (the bound of the hypothesis), empty, or not there. -/
theorem test_witness_FetchEndStagesAndSubmits :
    (withTurn fetching (.fetchEnd false)).turns = [.fetchEnd false] ∧ fetching.tx.cp.n = fetching.cfg.txChunk.val ∧
    fetching.tx.cp.busy = true ∧ filled.tx.cp.busy = false ∧ filled.tx.cp.n = 0 ∧
    (State.tx { sending with tx := { three with cp := ⟨true, 0⟩ } }).cp = ⟨true, 0⟩ := by decide
/-- An idle port with a count above the chunk size: the turn passes. -/
theorem test_witness_FetchEndStagesAndSubmits_idle :
    ∃ t, step { filled with tx := { three with cp := ⟨false, 4⟩ }, turns := [.fetchEnd true] } = .next t ∧ t.tx.cp.n = 4 :=
  ⟨_, rfl, rfl⟩
theorem test_witness_TxStageChangesOnlyAtFetchEnd : ∃ t, step (withTurn fetching (.fetchEnd true)) = .next t ∧
    t.txStage ≠ fetching.txStage := ⟨_, rfl, by decide⟩
theorem test_witness_ReleaseNeverPrecedesTheTerminalEvent :
    (∃ t, (withEvent stopping (.evOutDone 3)).Inv ∧ stopping.txpState = .sendPosted ∧
      step (withEvent stopping (.evOutDone 3)) = .next t ∧ .txReleased ∈ t.trace) ∧
    ∃ t, sending.txpState = .sendPosted ∧ sending.tx.cp.busy = false ∧ exec .txpStop sending = .next t :=
  ⟨⟨_, inv_of_facts (by decide), by decide, rfl, by decide⟩, ⟨_, by decide, by decide, rfl⟩⟩

/-- Two rounds send the three buffered bytes in one chunk. -/
def rounds : State :=
  { sending with turns := (List.replicate 2 [Turn.event (encode (.evOutDone 3)), Turn.fetchEnd true]).flatten }

theorem test_witness_RoundsTransmitEveryBufferedByte : rounds.Inv ∧ rounds.txpState = .sendPosted ∧
    rounds.tx.cp.busy = false ∧ rounds.txStopPending = false ∧ rounds.tx.fill rounds.cfg.nTx.val ≤ 1 * rounds.cfg.txChunk.val ∧
    ∃ t, Host.Core.run Sys2Proof.core 4 rounds = .next t ∧
      (State.trace t) = [.submit (.send 3 [0x41#8, 0x42#8, 0x43#8]), .txDone] :=
  ⟨inv_of_facts (by decide), by decide, by decide, by decide, by decide, _, rfl, by decide⟩

theorem test_witness_RegReadReturnsTheRegister : stopping.Inv ∧ ∃ t, exec (.regRead 0x0D) stopping = .next t ∧
    t.trace = [.result .ok 3] := ⟨test_inv_stopping, _, rfl, by decide⟩

/-- A delivery of staged bytes only, and a get. -/
theorem test_witness_UnspecifiedBytesAreNeverObserved :
    (∃ t, (withEvent { posted with rxPrev := 3 } (.evTick 3)).Inv ∧
      step (withEvent { posted with rxPrev := 3 } (.evTick 3)) = .next t ∧
      ∀ k, k < min 3 4 → (posted.rxStage.read k).isSome = true) ∧
    ∃ t, (withTurn getting .getEnd).Inv ∧ step (withTurn getting .getEnd) = .next t ∧
      (withTurn getting .getEnd).nextInstr = none :=
  ⟨⟨_, inv_of_facts (by decide), rfl, by decide⟩, ⟨_, inv_of_facts (by decide), rfl, by decide⟩⟩

/-- Ticks that deliver nothing, with unwritten positions below the count: one records, one is ignored. -/
theorem test_witness_UnspecifiedBytesAreNeverObserved_recording : (withEvent posted (.evTick 4)).Inv ∧
    (posted.rxStage.read 3).isSome = false ∧ 4 ≠ posted.rxPrev ∧ ∃ t, step (withEvent posted (.evTick 4)) = .next t :=
  ⟨inv_of_facts (by decide), by decide, by decide, _, rfl⟩

/-- A write of two bytes where one fits. -/
def writing : State :=
  { filled with host := writeCommands [0x44#8, 0x45#8], turns := writeTurns }

theorem test_witness_WritePutsThenKicks : writing.Inv ∧ writing.presented = none ∧ writing.tx.pp.busy = false ∧
    writing.tx.cp.busy = false ∧ writing.txpState = .idle ∧
    ∃ t, Host.Core.run Sys2Proof.core 3 writing = .next t ∧ (State.trace t) = [.result .ok 1, .result .ok 0] ∧
      (State.tx t).cp = ⟨true, 3⟩ :=
  ⟨inv_of_facts (by decide), by decide, by decide, by decide, by decide, _, rfl, by decide, by decide⟩

/-- An attach that the transport refuses. -/
def attaching : State :=
  { filled with rx := three, host := attachCommands, turns := [.command false, .command false, .command false] }

theorem test_witness_AttachEmptiesRingsAndArms : attaching.presented = none ∧ attaching.rx.pp.busy = false ∧
    attaching.rx.cp.busy = false ∧ attaching.tx.pp.busy = false ∧ attaching.tx.cp.busy = false ∧
    attaching.rxpState = .idle ∧
    ∃ t, Host.Core.run Sys2Proof.core 3 attaching = .next t ∧
      (State.trace t) = [.result .ok 0, .result .ok 0, .submit (.receive 4), .result .notAttached 0] :=
  ⟨by decide, by decide, by decide, by decide, by decide, by decide, _, rfl, by decide⟩

/-! ### A fair execution in normal operation (R13, R189) -/

/-- `WRITE` of two bytes, the chunk, its completion, the empty fetch; then nothing is ever enabled again. -/
def normalInputs : Nat → Stimulus
  | 0 => ⟨.command true, [⟨encode (.rbPut 2), [0x44#8, 0x45#8]⟩]⟩
  | 1 => ⟨.putEnd, []⟩
  | 2 => ⟨.command true, [bareCommand .txpKick]⟩
  | 3 => ⟨.fetchEnd true, []⟩
  | 4 => ⟨.event (encode (.evOutDone 2)), []⟩
  | 5 => ⟨.fetchEnd true, []⟩
  | _ => ⟨.getEnd, []⟩

/-- The states of that execution. -/
def normalStates : Nat → State
  | 0 => base
  | k + 1 =>
    match step ((normalStates k).given (normalInputs k)) with
    | .next t => t
    | .fault _ => normalStates k
    | .refused _ => normalStates k

theorem normalStates_end (d : Nat) : normalStates (d + 6) = normalStates 6 := by
  induction d with
  | zero => rfl
  | succ d ih =>
    show (match step ((normalStates (d + 6)).given ⟨.getEnd, []⟩) with
      | .next t => t
      | .fault _ => normalStates (d + 6)
      | .refused _ => normalStates (d + 6)) = _
    rw [ih]
    rfl

theorem normal_cases {P : Nat → Prop} (h : ∀ k, k < 6 → P k) (h' : ∀ d, P (d + 6)) (k : Nat) : P k := by
  by_cases hk : k < 6
  · exact h k hk
  · have := h' (k - 6)
    rwa [Nat.sub_add_cancel (by omega)] at this

theorem normal_execution : Execution normalInputs normalStates := by
  refine normal_cases (fun k hk => ?_) fun d => ?_
  · match k, hk with
    | 0, _ => rfl
    | 1, _ => rfl
    | 2, _ => rfl
    | 3, _ => rfl
    | 4, _ => rfl
    | 5, _ => rfl
  · show step ((normalStates (d + 6)).given ⟨.getEnd, []⟩) = .next (normalStates (d + 1 + 6))
    rw [normalStates_end d, normalStates_end (d + 1)]
    rfl

theorem normal_fair : WeaklyFair normalInputs normalStates := by
  intro c k h
  have := h (k + 6) (by omega)
  rw [normalStates_end] at this
  cases c <;> exact absurd this (by decide)

theorem normal_instr (d : Nat) : instrAt normalInputs normalStates (d + 6) = none := rfl

theorem normal_transmission : NormalTransmission normalInputs normalStates where
  accepted := normal_cases (by
    intro k hk ok h hb
    match k, hk with
    | 0, _ => cases h
    | 1, _ => cases h
    | 2, _ => cases h
    | 3, _ => cases h; rfl
    | 4, _ => cases h
    | 5, _ => cases h; rfl) (fun d ok h => nomatch h)
  answered := normal_cases (by
    intro k hk h hb
    refine ⟨4, 2, ?_, by decide⟩
    revert h hb
    revert hk
    revert k
    decide) (fun d h => by
      rw [normalStates_end] at h
      exact absurd h (by decide))
  noError := normal_cases (by decide) fun d => by simp [normal_instr]
  noStop := normal_cases (by decide) fun d => by simp [normal_instr]
  noRingReset := normal_cases (by decide) fun d => by simp [normal_instr]
  noReset := normal_cases (by decide) fun d => by simp [normalInputs]
  kicked := normal_cases (by
    intro k hk h hb
    refine ⟨2, ?_, by decide, by decide⟩
    revert h hb
    revert hk
    revert k
    decide) (fun d h => nomatch h)

theorem test_witness_FairExecutionsCompleteEveryOperation : Execution normalInputs normalStates ∧
    WeaklyFair normalInputs normalStates ∧ Completion.enabled .putEnd (normalStates 1) = true ∧
    Completion.enabled .fetchEnd (normalStates 3) = true := ⟨normal_execution, normal_fair, by decide, by decide⟩

theorem test_witness_AcceptedBytesAreEventuallySubmitted : Execution normalInputs normalStates ∧
    WeaklyFair normalInputs normalStates ∧ NormalTransmission normalInputs normalStates ∧ (normalStates 0).Inv ∧
    (normalStates 0).contents .tx = [] ∧ (normalStates 0).txStopPending = false ∧
    acceptedBytes normalInputs normalStates 2 = [0x44#8, 0x45#8] ∧ transmittedBytes normalStates 4 = [0x44#8, 0x45#8] :=
  ⟨normal_execution, normal_fair, normal_transmission, inv_of_facts (by decide), by decide, by decide, by decide, by decide⟩

end Sys2Proof.Tests
end

section
/-! The statements of 00_scope.md: a turn of either port runs the decoded instruction (R12), no step changes a parameter (R5 to
R9) or rewrites the trace (R16), and an operation in progress is undisturbed until its completion step, which a weakly fair
execution takes (R13). Statements about all steps are proved of `ExecTo` first and carried to `StepTo`. -/

namespace Sys2Proof.Machine

/-! ### The turns of the two ports -/

theorem State.present_of_presented {s : State} {c : Command} (h : s.presented = some c) : s.present = s := by
  simp [State.present, h]

theorem State.present_of_host {s : State} {c : Command} {later : List Command} (hp : s.presented = none)
    (hh : s.host = c :: later) : s.present = { s with presented := some c, host := later } := by
  simp [State.present, hp, hh]

theorem step_of_turn {s : State} {u : Turn} {rest : List Turn} (h : s.turns = u :: rest) :
    step s = takeTurn u { s with turns := rest } := by
  simp [step, h]

theorem takeCommand_of_decode {s : State} {c : Command} {i : Instr} (hp : s.presented = some c)
    (hd : decodeOn .command c.word = .ok i) : takeCommand s = exec i s := by
  simp [takeCommand, hp, hd]

theorem takeEvent_of_decode {w : Word} {i : Instr} (s : State) (hd : decodeOn .event w = .ok i) :
    takeEvent w s = exec i s := by
  simp [takeEvent, hd]

/-- R110: whichever command the port looks at, the one presented before or the host's next, its turn runs it. -/
theorem step_of_command {s : State} {ok : Bool} {rest : List Turn} {c : Command} {i : Instr}
    (ht : s.turns = .command ok :: rest) (hp : s.present.presented = some c) (hd : decodeOn .command c.word = .ok i) :
    step s = exec i (s.atCommand ok rest) := by
  calc step s = takeCommand { State.present { s with turns := rest } with answer := ok } := step_of_turn ht
    _ = takeCommand (s.atCommand ok rest) := by rw [State.atCommand_eq]
    _ = exec i (s.atCommand ok rest) := takeCommand_of_decode hp hd

/-- Settles O6, by what `State.present` does with a presented command and with none. -/
theorem stepRunsThePresentedCommand : Obligations.StepRunsThePresentedCommand := by
  intro s ok rest c i ht hd
  refine ⟨fun hp => ?_, fun later hp hh => ?_⟩
  · have hs : s.present = s := State.present_of_presented hp
    rw [step_of_command ht (by rw [hs, hp]) hd, State.atCommand, hs]
  · have hs := State.present_of_host hp hh
    rw [step_of_command ht (by rw [hs]) hd, State.atCommand, hs]

/-- Settles O7: the turn hands its word to the event port, whose decoder accepts it. -/
theorem stepRunsTheArrivingEvent : Obligations.StepRunsTheArrivingEvent := by
  intro s w rest i ht hd
  calc step s = takeEvent w { s with turns := rest } := step_of_turn ht
    _ = exec i { s with turns := rest } := takeEvent_of_decode _ hd

/-! ### The parameters and the trace -/

theorem ExecTo.cfg_eq {s t : State} {i : Instr} (h : ExecTo s i t) : t.cfg = s.cfg := by
  cases h <;> rfl

theorem StepTo.cfg_eq {s t : State} (h : StepTo s t) : t.cfg = s.cfg := by
  cases h with
  | command _ _ _ he => exact he.cfg_eq
  | event _ _ he => exact he.cfg_eq
  | _ => rfl

/-- Settles O18: no case of `StepTo` touches the parameters, `RESET` restores the state with those it finds. -/
theorem parametersNeverChange : Obligations.ParametersNeverChange :=
  fun _ _ h => (step_to h).cfg_eq

/-- What an instruction emits: nothing, one symbol, or two. -/
theorem ExecTo.trace_append {s t : State} {i : Instr} (h : ExecTo s i t) :
    ∃ out, t.trace = s.trace ++ out ∧ out.length ≤ 2 := by
  cases h with
  | held | rbPut | rbGet | tickIgnored | tickRecorded | tickDelivers | inDoneIgnored | inDoneDelivers | inErrorIgnored
  | outDoneIgnored | outDoneFetches | outErrorIgnored | inDataIgnored | inDataStaged =>
    exact ⟨[], (List.append_nil _).symm, by simp⟩
  | rbLen | rbResetRx | rbResetTx | rxpStartPosted | rxpStopIdle | txpKickIdle | txpKickPosted | txpStopDeferred
  | txpStopBusy | inErrorTaken | outDoneReleases | outErrorTaken | regRead | regReadIllegal =>
    exact ⟨[_], rfl, by simp⟩
  | rxpStartArmed | rxpStartRefused | rxpStopPosted | txpStopIdle | outErrorReleases =>
    exact ⟨[_, _], rfl, by simp⟩

theorem StepTo.trace_append {s t : State} (h : StepTo s t) : ∃ out, t.trace = s.trace ++ out ∧ out.length ≤ 2 := by
  cases h with
  | command _ _ _ he => exact he.trace_append
  | event _ _ he => exact he.trace_append
  | noTurn | nothingPresented | illegalEvent | putEndPasses | getEndPasses | drainEndPasses | fetchEndPasses | reset =>
    exact ⟨[], (List.append_nil _).symm, by simp⟩
  | illegalCommand | putEnd | getEnd | fetchEnd => exact ⟨[_], rfl, by simp⟩
  | drainEnd => exact ⟨_, rfl, by split <;> simp⟩
  | fetchEndEmpty => exact ⟨_, rfl, by split <;> simp⟩

/-- Settles O19: the longest outputs are the two symbols of a pump operation or of `RXP.DRAIN_END`. -/
theorem traceOnlyGrows : Obligations.TraceOnlyGrows :=
  fun _ _ h => (step_to h).trace_append

/-! ### Operations in progress

One lemma per port: the begin steps of a port need it idle, and no other instruction assigns its context. -/

theorem ExecTo.rx_pp_eq {s t : State} {i : Instr} (h : ExecTo s i t) (hb : s.rx.pp.busy = true) :
    t.rx.pp = s.rx.pp ∧ t.rxC = s.rxC := by
  cases h with
  | tickDelivers hidle | inDoneDelivers hidle => simp [hb] at hidle
  | _ => exact ⟨rfl, rfl⟩

theorem ExecTo.rx_cp_eq {s t : State} {i : Instr} (h : ExecTo s i t) (hb : s.rx.cp.busy = true) : t.rx.cp = s.rx.cp := by
  cases h with
  | rbGet hidle => simp [hb] at hidle
  | _ => rfl

theorem ExecTo.tx_pp_eq {s t : State} {i : Instr} (h : ExecTo s i t) (hb : s.tx.pp.busy = true) : t.tx.pp = s.tx.pp := by
  cases h with
  | rbPut _ hidle => simp [hb] at hidle
  | _ => rfl

/-- While a fetch is in progress the TxPump ignores the terminal events (R187), so `txp_state` stays too. -/
theorem ExecTo.tx_cp_eq {s t : State} {i : Instr} (h : ExecTo s i t) (hb : s.tx.cp.busy = true) :
    t.tx.cp = s.tx.cp ∧ t.txpState = s.txpState := by
  cases h with
  | txpKickIdle hidle | outDoneReleases hidle | outDoneFetches hidle | outErrorReleases hidle | outErrorTaken hidle =>
    simp [hb] at hidle
  | _ => exact ⟨rfl, rfl⟩

section
variable {s t : State} (h : StepTo s t) (hr : s.turns.head? ≠ some .reset)
include h hr

theorem StepTo.rx_pp_eq (hb : s.rx.pp.busy = true) (hd : ∀ ok, s.turns.head? ≠ some (.drainEnd ok)) :
    t.rx.pp = s.rx.pp ∧ t.rxC = s.rxC := by
  cases h with
  | command _ _ _ he => exact he.rx_pp_eq hb
  | event _ _ he => exact he.rx_pp_eq hb
  | drainEnd ht => simp [ht] at hd
  | reset ht => simp [ht] at hr
  | _ => exact ⟨rfl, rfl⟩

theorem StepTo.rx_cp_eq (hb : s.rx.cp.busy = true) (hg : s.turns.head? ≠ some .getEnd) : t.rx.cp = s.rx.cp := by
  cases h with
  | command _ _ _ he => exact he.rx_cp_eq hb
  | event _ _ he => exact he.rx_cp_eq hb
  | getEnd ht => simp [ht] at hg
  | reset ht => simp [ht] at hr
  | _ => rfl

theorem StepTo.tx_pp_eq (hb : s.tx.pp.busy = true) (hp : s.turns.head? ≠ some .putEnd) : t.tx.pp = s.tx.pp := by
  cases h with
  | command _ _ _ he => exact he.tx_pp_eq hb
  | event _ _ he => exact he.tx_pp_eq hb
  | putEnd ht => simp [ht] at hp
  | reset ht => simp [ht] at hr
  | _ => rfl

theorem StepTo.tx_cp_eq (hb : s.tx.cp.busy = true) (hf : ∀ ok, s.turns.head? ≠ some (.fetchEnd ok)) :
    t.tx.cp = s.tx.cp ∧ t.txpState = s.txpState := by
  cases h with
  | command _ _ _ he => exact he.tx_cp_eq hb
  | event _ _ he => exact he.tx_cp_eq hb
  | fetchEndEmpty ht | fetchEnd ht => simp [ht] at hf
  | reset ht => simp [ht] at hr
  | _ => exact ⟨rfl, rfl⟩

end

/-- Settles O21, port by port. -/
theorem pendingOperationsAreUndisturbed : Obligations.PendingOperationsAreUndisturbed :=
  fun _ _ h hr => have hs := step_to h
    ⟨hs.rx_pp_eq hr, hs.rx_cp_eq hr, hs.tx_pp_eq hr, hs.tx_cp_eq hr⟩

/-! ### Weak fairness -/

/-- A turn of a completion step leaves that step disabled: it ended the operation or found none. -/
theorem Completion.disabled_of_turn {s t : State} {c : Completion} (h : StepTo s t)
    (hc : s.turns.head?.bind Turn.completion = some c) : c.enabled t = false := by
  cases h with
  | putEnd ht | getEnd ht | drainEnd ht | fetchEndEmpty ht | fetchEnd ht =>
    obtain rfl : _ = c := by simpa [ht, Turn.completion] using hc
    rfl
  | putEndPasses ht hb | getEndPasses ht hb | drainEndPasses ht hb | fetchEndPasses ht hb =>
    obtain rfl : _ = c := by simpa [ht, Turn.completion] using hc
    exact hb
  | noTurn ht | nothingPresented ht | command ht | illegalCommand ht | event ht | illegalEvent ht | reset ht =>
    simp [ht, Turn.completion] at hc

section
variable {inputs : Nat → Stimulus} {states : Nat → State} {c : Completion} {k : Nat}

theorem Execution.disabled_of_turn (hx : Execution inputs states) (hc : (inputs k).turn.completion = some c) :
    c.enabled (states (k + 1)) = false :=
  Completion.disabled_of_turn (step_to (hx k)) hc

/-- Between an enabled completion step and the next point at which it is disabled stands its own turn or `RESET`. -/
theorem Execution.turn_of_disabled (hx : Execution inputs states) (he : c.enabled (states k) = true)
    (hd : c.enabled (states (k + 1)) = false) :
    (inputs k).turn.completion = some c ∨ (inputs k).turn = .reset := by
  rcases Completion.enabled_step (hx k) (by simpa using he) with hon | ⟨hturn, -⟩
  · rw [hd] at hon
    cases hon
  · simpa using hturn

/-- An enabled completion step is disabled at some later point: were it enabled for good, fairness would have it taken. -/
theorem WeaklyFair.exists_disabled (hf : WeaklyFair inputs states) (hx : Execution inputs states)
    (he : c.enabled (states k) = true) : ∃ d, c.enabled (states (k + d + 1)) = false := by
  by_contra hnever
  have hon : ∀ j, k ≤ j → c.enabled (states j) = true := by
    intro j hj
    obtain ⟨d, rfl⟩ := Nat.exists_eq_add_of_le hj
    cases d with
    | zero => exact he
    | succ d => exact eq_true_of_ne_false fun hd => hnever ⟨d, hd⟩
  obtain ⟨j, hj, hturn⟩ := hf c k hon
  have hoff := hx.disabled_of_turn hturn
  rw [hon (j + 1) (by omega)] at hoff
  cases hoff

end

/-- Settles O22: the step asked for is the one before the first point at which the completion step is disabled. -/
theorem fairExecutionsCompleteEveryOperation : Obligations.FairExecutionsCompleteEveryOperation := by
  intro inputs states hx hf c k he
  have hex := hf.exists_disabled hx he
  have hoff : c.enabled (states (k + Nat.find hex + 1)) = false := Nat.find_spec hex
  have hon : ∀ i, k ≤ i → i ≤ k + Nat.find hex → c.enabled (states i) = true := by
    intro i hki hi
    obtain ⟨d, rfl⟩ := Nat.exists_eq_add_of_le hki
    cases d with
    | zero => exact he
    | succ d => exact eq_true_of_ne_false (Nat.find_min hex (m := d) (by omega))
  exact ⟨k + Nat.find hex, Nat.le_add_right _ _, hon, hx.turn_of_disabled (hon _ (Nat.le_add_right _ _) le_rfl) hoff, hoff⟩

end Sys2Proof.Machine
end

section
/-! What the decoder lets through: an instruction read from a word is well-formed (30_encoding.md R97) and belongs to the port
it was presented on (R90, R100). -/

namespace Sys2Proof

theorem withoutArg_wf {w : Word} {i j : Instr} (h : withoutArg w i = .ok j) (hi : i.wf = true) : j.wf = true := by
  unfold withoutArg at h
  split at h
  · exact Except.ok.inj h ▸ hi
  · cases h

theorem decodeRing_wf {w : Word} {i : Instr} (h : decodeRing w = .ok i) : i.wf = true := by
  have harg := argField_lt w
  unfold decodeRing at h
  grind [withoutArg_wf]

theorem decodePump_wf {w : Word} {i : Instr} (h : decodePump w = .ok i) : i.wf = true := by
  unfold decodePump at h
  grind [withoutArg_wf]

theorem decodeEvent_wf {w : Word} {i : Instr} (h : decodeEvent w = .ok i) : i.wf = true := by
  have harg := argField_lt w
  unfold decodeEvent at h
  grind [withoutArg_wf]

theorem decodeSystem_wf {w : Word} {i : Instr} (h : decodeSystem w = .ok i) : i.wf = true := by
  unfold decodeSystem at h
  grind

/-- R97: every operand read from a word is within its field. -/
theorem decode_wf {w : Word} {i : Instr} (h : decode w = .ok i) : i.wf = true := by
  unfold decode at h
  split_ifs at h
  · exact decodeRing_wf h
  · exact decodePump_wf h
  · exact decodeEvent_wf h
  · exact decodeSystem_wf h

/-- A port runs what decodes and belongs to it. -/
theorem decodeOn_eq_ok {p : Side} {w : Word} {i : Instr} : decodeOn p w = .ok i ↔ decode w = .ok i ∧ i.side = p := by
  unfold decodeOn
  rcases decode w with e | j
  · simp
  · by_cases hs : j.side = p
    · simp only [hs, if_true, Except.ok.injEq]
      exact ⟨fun h => ⟨h, h ▸ hs⟩, And.left⟩
    · simp only [hs, if_false, Except.ok.injEq, reduceCtorEq, false_iff]
      exact fun ⟨h, hside⟩ => hs (h ▸ hside)

end Sys2Proof
end

section
/-! The converses of `exec_to` and `step_to`: each case of `ExecTo` and `StepTo` is what the model does, but for a `RB_PUT`
whose payload does not fit its `len`, which is refused (30_encoding.md R98). With `exec_iff` and `step_iff` a statement about
next states is proved by giving the case. -/

namespace Sys2Proof.Machine

/-! ### One instruction -/

/-- A held command leaves everything as it is (R109). -/
theorem exec_of_not_accepts {s : State} {i : Instr} (ha : s.accepts i = false) (hp : payloadFits i s.payload = true) :
    exec i s = .next s := by
  cases i with
  | rbPut => simp only [exec, execRbPut, hp, if_true, ha, onCommand_held]
  | rbGet | rbReset | rxpStart | rxpStop | txpKick | txpStop =>
    simp only [exec, execRbGet, execRbReset, execRxpStart, execRxpStop, execTxpKick, execTxpStop, ha, onCommand_held]
  | _ => nomatch ha

/-- The converse of `exec_to`: under the guards of a case the instruction runs into its next state. -/
theorem ExecTo.exec_eq {s t : State} {i : Instr} (h : ExecTo s i t) (hfit : payloadFits i s.payload = true) :
    exec i s = .next t := by
  cases h with
  | held ha => exact exec_of_not_accepts ha hfit
  | rbPut _ hb =>
    simp only [exec, execRbPut, hfit, if_true, State.accepts, hb, Bool.not_false, onCommand_accepted]
    rfl
  | rbGet hb =>
    simp only [exec, execRbGet, State.accepts, hb, Bool.not_false, onCommand_accepted]
    rfl
  | rbLen => rfl
  | rbResetRx hpp hcp | rbResetTx hpp hcp =>
    simp [exec, execRbReset, State.accepts, hpp, hcp, onCommand, State.setRing, State.ring, State.result, State.emit,
      State.accept]
  | rxpStartArmed hb hs ha | rxpStartRefused hb hs ha =>
    simp [exec, execRxpStart, State.accepts, hb, hs, ha, onCommand, State.clearDetector, State.submit, State.raise,
      State.result, State.emit, State.accept]
  | rxpStartPosted hb hs =>
    simp [exec, execRxpStart, State.accepts, hb, hs, onCommand, State.result, State.emit, State.accept]
  | rxpStopIdle hb hs | rxpStopPosted hb hs =>
    simp [exec, execRxpStop, State.accepts, hb, hs, onCommand, State.rxpToIdle, State.clearDetector, State.result,
      State.emit, State.accept]
  | txpKickIdle hb hs | txpKickPosted hb hs =>
    simp [exec, execTxpKick, State.accepts, hb, hs, onCommand, State.txFetchBegin_eq, State.result, State.emit,
      State.accept]
  | txpStopIdle hb hs =>
    simp [exec, execTxpStop, State.accepts, hb, hs, onCommand, State.result, State.emit, State.accept]
  | txpStopDeferred hb hs hd | txpStopBusy hb hs hd =>
    simp [exec, execTxpStop, State.accepts, hb, hs, hd, onCommand, State.raise, State.result, State.emit, State.accept]
  | tickIgnored h => rcases h with hl | ⟨rfl, h0 | hd⟩ <;> simp [exec, execEvTick, *]
  | tickRecorded hb hs hn => simp [exec, execEvTick, State.rxpListens_iff, hb, hs, hn]
  | tickDelivers hb hs hn h0 hd =>
    have hl := s.rxpListens_iff.mpr ⟨hs, hb⟩
    simp only [exec, execEvTick, hl, if_true, hn, ne_eq, not_true_eq_false, if_false, hn ▸ h0, not_false_eq_true, hd,
      and_self]
    rfl
  | inDoneIgnored hl => simp [exec, execEvInDone, hl]
  | inDoneDelivers hb hs =>
    have hl := s.rxpListens_iff.mpr ⟨hs, hb⟩
    simp only [exec, execEvInDone, hl, if_true]
    rfl
  | inErrorIgnored hl => simp [exec, execEvInError, hl]
  | inErrorTaken hb hs =>
    simp [exec, execEvInError, State.rxpListens_iff, hb, hs, State.raise, State.rxpToIdle, State.clearDetector, State.emit]
  | outDoneIgnored hl => simp [exec, execEvOutDone, hl]
  | outDoneReleases hb hs hp | outDoneFetches hb hs hp =>
    simp [exec, execEvOutDone, State.txpListens_iff, hb, hs, hp, State.txFetchBegin_eq, State.txpToIdle, State.emit]
  | outErrorIgnored hl => simp [exec, execEvOutError, hl]
  | outErrorReleases hb hs hp | outErrorTaken hb hs hp =>
    simp [exec, execEvOutError, State.txpListens_iff, hb, hs, hp, State.raise, State.txpToIdle, State.emit]
  | inDataIgnored hoff => simp [exec, execEvInData, Nat.not_lt.mpr hoff]
  | inDataStaged hoff => simp [exec, execEvInData, hoff]
  | regRead hr =>
    simp only [exec, execRegRead, State.accepts, onCommand_accepted, State.register_accept, hr]
    rfl
  | regReadIllegal hidx =>
    simp only [exec, execRegRead, State.accepts, onCommand_accepted, State.register_eq_none.mpr hidx]
    rfl

theorem payloadFits_of_exec {s t : State} {i : Instr} (h : exec i s = .next t) : payloadFits i s.payload = true := by
  cases i with
  | rbPut =>
    simp only [exec, execRbPut] at h
    split at h
    · assumption
    · cases h
  | _ => rfl

theorem exec_iff {s t : State} {i : Instr} : exec i s = .next t ↔ ExecTo s i t ∧ payloadFits i s.payload = true :=
  ⟨fun h => ⟨exec_to h, payloadFits_of_exec h⟩, fun ⟨h, hp⟩ => h.exec_eq hp⟩

/-! ### One step -/

theorem payloadFits_iff {i : Instr} {data : List Byte} :
    payloadFits i data = true ↔ ∀ len, i = .rbPut len → data.length = len := by
  cases i <;> simp [payloadFits]

/-- The two ways the next step runs an instruction: by the command port or by the event port. -/
theorem nextInstr_eq_some {s : State} {i : Instr} : s.nextInstr = some i ↔
    (∃ ok rest c, s.turns = .command ok :: rest ∧ s.present.presented = some c ∧ decodeOn .command c.word = .ok i) ∨
    (∃ w rest, s.turns = .event w :: rest ∧ decodeOn .event w = .ok i) := by
  have htoOption : ∀ x : Except Illegal Instr, x.toOption = some i ↔ x = .ok i := by
    rintro (_ | _) <;> simp [Except.toOption]
  rcases ht : s.turns with _ | ⟨u, rest⟩
  · simp [State.nextInstr, ht]
  · cases u with
    | command ok =>
      rcases hp : s.present.presented with _ | c <;> simp [State.nextInstr, ht, hp, htoOption]
    | event w => simp [State.nextInstr, ht, htoOption]
    | _ => simp [State.nextInstr, ht]

theorem step_of_event {s : State} {w : Word} {rest : List Turn} {i : Instr} (ht : s.turns = .event w :: rest)
    (hd : decodeOn .event w = .ok i) : step s = exec i { s with turns := rest } :=
  (step_of_turn ht).trans (takeEvent_of_decode _ hd)

/-- A step that goes on refused no payload (R98). -/
theorem payload_length_of_step {s t : State} (h : step s = .next t) {len : Nat} (hn : s.nextInstr = some (.rbPut len)) :
    s.present.payload.length = len := by
  rcases nextInstr_eq_some.mp hn with ⟨ok, rest, c, ht, hp, hd⟩ | ⟨w, rest, -, hd⟩
  · rw [step_of_command ht hp hd] at h
    exact payloadFits_iff.mp (payloadFits_of_exec h) len rfl
  · nomatch (decodeOn_eq_ok.mp hd).2

/-- `RXP.DRAIN_END`, when enabled, always goes on. -/
theorem takeDrainEnd_eq {s : State} (hb : s.rx.pp.busy = true) : takeDrainEnd s = .next { s with
    rx := s.rx.putEnd s.cfg.nRx.val
    rxDrop := if s.rx.pp.n < s.rxC then sat32 (s.rxDrop + (s.rxC - s.rx.pp.n)) else s.rxDrop
    rxpState := if s.answer then s.rxpState else .idle
    trace := s.trace ++ ((if 0 < s.rxC then [.rxReady] else []) ++ [.submit (.receive s.cfg.rxStage.val)]) } := by
  obtain ⟨t, ht⟩ : ∃ t, takeDrainEnd s = .next t := ⟨_, rfl⟩
  rcases takeDrainEnd_next ht with ⟨hidle, -⟩ | ⟨-, rfl⟩
  · nomatch hb.symm.trans hidle
  · exact ht

/-- `TXP.FETCH_END` faults on nothing but a chunk longer than the staging buffer (log 10). -/
theorem takeFetchEnd_next_of_le {s : State} (hle : s.tx.cp.n ≤ s.cfg.txChunk.val) : ∃ t, takeFetchEnd s = .next t := by
  unfold takeFetchEnd
  rw [if_pos hle]
  split <;> exact ⟨_, rfl⟩

/-- The converse of `step_to`: under the guards of a case the step goes on to its next state. -/
theorem StepTo.step_eq {s t : State} (h : StepTo s t)
    (hfit : ∀ len, s.nextInstr = some (.rbPut len) → s.present.payload.length = len) : step s = .next t := by
  cases h with
  | noTurn ht => simp [step, ht]
  | nothingPresented ht hp =>
    rw [step_of_turn ht, takeTurn, State.atCommand_eq, takeCommand]
    simp [State.atCommand, hp]
  | illegalCommand ht hp hd =>
    rw [step_of_turn ht, takeTurn, State.atCommand_eq, takeCommand]
    simp [State.atCommand, hp, hd, State.illegalCommand, State.raise, State.result, State.emit, State.accept]
  | command ht hp hd he =>
    rw [step_of_command ht hp hd]
    refine he.exec_eq (payloadFits_iff.mpr ?_)
    rintro len rfl
    exact hfit len (nextInstr_eq_some.mpr (.inl ⟨_, _, _, ht, hp, hd⟩))
  | event ht hd he =>
    rw [step_of_event ht hd]
    refine he.exec_eq (payloadFits_iff.mpr ?_)
    rintro len rfl
    nomatch (decodeOn_eq_ok.mp hd).2
  | illegalEvent ht hd => simp [step_of_turn ht, takeTurn, takeEvent, hd]
  | putEndPasses ht hb => simp [step_of_turn ht, takeTurn, takePutEnd, hb]
  | putEnd ht hb =>
    simp only [step_of_turn ht, takeTurn, takePutEnd, hb, if_true]
    rfl
  | getEndPasses ht hb => simp [step_of_turn ht, takeTurn, takeGetEnd, hb]
  | getEnd ht hb =>
    simp only [step_of_turn ht, takeTurn, takeGetEnd, hb, if_true]
    rfl
  | drainEndPasses ht hb => simp [step_of_turn ht, takeTurn, takeDrainEnd, hb]
  | drainEnd ht hb => exact (step_of_turn ht).trans (takeDrainEnd_eq hb)
  | fetchEndPasses ht hb => simp [step_of_turn ht, takeTurn, takeFetchEnd, hb]
  | @fetchEndEmpty ok rest ht hb h0 =>
    obtain ⟨t, hnext⟩ := takeFetchEnd_next_of_le (s := { s with turns := rest, answer := ok }) (h0 ▸ Nat.zero_le _)
    rcases takeFetchEnd_next hnext with ⟨hidle, -⟩ | ⟨-, -, rfl⟩ | ⟨-, hne, -⟩
    · nomatch hb.symm.trans hidle
    · exact (step_of_turn ht).trans hnext
    · exact absurd h0 hne
  | @fetchEnd ok rest ht hb h0 hle =>
    obtain ⟨t, hnext⟩ := takeFetchEnd_next_of_le (s := { s with turns := rest, answer := ok }) hle
    rcases takeFetchEnd_next hnext with ⟨hidle, -⟩ | ⟨-, hz, -⟩ | ⟨-, -, -, rfl⟩
    · nomatch hb.symm.trans hidle
    · exact absurd hz h0
    · exact (step_of_turn ht).trans hnext
  | reset ht => exact step_of_turn ht

theorem step_iff {s t : State} : step s = .next t ↔
    StepTo s t ∧ ∀ len, s.nextInstr = some (.rbPut len) → s.present.payload.length = len :=
  ⟨fun h => ⟨step_to h, fun _ => payload_length_of_step h⟩, fun ⟨h, hfit⟩ => h.step_eq hfit⟩

end Sys2Proof.Machine
end

section
/-! The statements of 10_state.md about reset and the invariant: the state after reset meets it (R50), and every step keeps it
(R28, R40 to R42, R130, R159, R187). A next state is shown to meet it by naming the clauses that speak of a changed field. -/

namespace Sys2Proof.Machine

/-! ### After reset -/

/-- R50: the state after reset is empty and idle. -/
theorem State.Inv.ofReset (p : Params) : (State.resetWith p).Inv where
  rx := RingInv.afterReset p.nRx.pos (Nat.zero_le _) (Nat.zero_le _)
  tx := RingInv.afterReset p.nTx.pos (Nat.zero_le _) (Nat.zero_le _)
  rxPrev_lt := by simp [State.resetWith]
  rxC_le := Nat.zero_le _
  drain_le := nofun
  drop_le := Nat.zero_le _
  drain_posted := nofun
  txCount_le := Nat.zero_le _
  fetch_le := nofun
  txBusy_iff := ⟨nofun, nofun⟩
  stop_posted := nofun
  idle_count := fun _ => rfl
  posted_count := nofun
  rxStage_wf := Memory.wf_nil _
  txStage_wf := Memory.wf_nil _
  chunk_written := nofun

/-- Settles O14: every clause is about an empty ring, an idle pump or a value 0. -/
theorem resetMeetsTheInvariant : Obligations.ResetMeetsTheInvariant := State.Inv.ofReset

/-- Settles O11: `State.resetWith` is written from the table of R50, and `State.reset` is one of its values. -/
theorem resetHoldsTheSpecsValues : Obligations.ResetHoldsTheSpecsValues :=
  ⟨fun _ => ⟨rfl, rfl, rfl, rfl, rfl, rfl, rfl, rfl, rfl, rfl, rfl, rfl, rfl, rfl, rfl, rfl, rfl⟩, _, rfl⟩

theorem unspecifiedCount_le (field : CountField) (epoch bound : Nat) : unspecifiedCount field epoch bound ≤ bound :=
  Nat.le_of_lt_succ (Nat.mod_lt _ (Nat.succ_pos _))

/-- The free counts of R50 are within the ring, so a ring after `RESET` meets its invariant. -/
theorem RingInv.afterResetStep {N : Nat} (hN : 0 < N) (r : Ring) (epoch : Nat) : RingInv N (ringAfterReset r epoch N) :=
  RingInv.afterReset hN (unspecifiedCount_le _ _ _) (unspecifiedCount_le _ _ _)

/-- R260: the `RESET` step leads to a state that meets the invariant, whatever stood before. -/
theorem State.Inv.ofResetStep (s : State) (rest : List Turn) : State.Inv { State.resetWith s.cfg with
    rx := ringAfterReset .rx (s.epoch + 1) s.cfg.nRx.val
    tx := ringAfterReset .tx (s.epoch + 1) s.cfg.nTx.val
    rxC := unspecifiedCount .rxC (s.epoch + 1) s.cfg.rxStage.val
    host := s.host
    turns := rest
    answer := s.answer
    epoch := s.epoch + 1
    trace := s.trace } :=
  { State.Inv.ofReset s.cfg with
    rx := .afterResetStep s.cfg.nRx.pos _ _
    tx := .afterResetStep s.cfg.nTx.pos _ _
    rxC_le := unspecifiedCount_le _ _ _
    drain_le := nofun
    drain_posted := nofun
    fetch_le := nofun
    stop_posted := nofun }

/-! ### The instructions -/

theorem State.stagedBytes_length (s : State) (c : Nat) : (s.stagedBytes c).length = c := by
  simp [State.stagedBytes]

/-- A delivery begin (R157), with the detector set as `EV_IN_DONE` sets it. -/
theorem State.Inv.delivering {s : State} (hI : s.Inv) (hs : s.rxpState = .receivePosted)
    {n : Nat} (hn : n < 65536) : State.Inv { s with
      rxPrev := n
      rxDone := true
      rxC := min n s.cfg.rxStage.val
      rx := s.rx.putBegin s.cfg.nRx.val (s.stagedBytes (min n s.cfg.rxStage.val)) (min n s.cfg.rxStage.val) } :=
  { hI with
    rx := hI.rx.putBegin s.cfg.nRx.pos (s.stagedBytes_length _)
    rxPrev_lt := hn
    rxC_le := Nat.min_le_right _ _
    drain_le := fun _ => Nat.min_le_left _ _
    drain_posted := fun _ => hs }

/-- A fetch begin (R185) is allowed while no close is deferred (R187). -/
theorem State.Inv.fetching {s : State} (hI : s.Inv) (hp : s.txStopPending = false) :
    State.Inv { s with tx := s.tx.getBegin s.cfg.nTx.val s.cfg.txChunk.val } :=
  { hI with
    tx := hI.tx.getBegin _
    fetch_le := fun _ => Nat.min_le_left _ _
    stop_posted := fun h => nomatch hp.symm.trans h }

/-- The RxPump may become `Idle` when it is not draining (R159). -/
theorem State.Inv.rxpIdle {s : State} (hI : s.Inv) (hb : s.rx.pp.busy = false) :
    State.Inv { s with rxPrev := 0, rxDone := false, rxpState := .idle } :=
  { hI with
    rxPrev_lt := Nat.succ_pos _
    drain_posted := fun h => nomatch hb.symm.trans h }

/-- The TxPump may become `Idle` with nothing in flight and no close deferred (R40 to R42). -/
theorem State.Inv.txpIdle {s : State} (hI : s.Inv) :
    State.Inv { s with txpState := .idle, txBusy := false, txCount := 0, txStopPending := false } :=
  { hI with
    txCount_le := Nat.zero_le _
    txBusy_iff := ⟨nofun, nofun⟩
    stop_posted := nofun
    idle_count := fun _ => rfl
    posted_count := nofun
    chunk_written := nofun }

theorem State.Inv.not_stopPending_of_idle {s : State} (hI : s.Inv) (hs : s.txpState = .idle) : s.txStopPending = false :=
  eq_false_of_ne_true fun h => nomatch hs.symm.trans (hI.stop_posted h).1

/-- Every instruction an encoded word can name keeps the invariant; `rx_prev` takes counts of 16 bits (R34, R97). -/
theorem ExecTo.inv {s t : State} {i : Instr} (h : ExecTo s i t) (hI : s.Inv) (hi : i.wf = true) : t.Inv := by
  cases h with
  | rbPut hlen hb => exact { hI with tx := hI.tx.putBegin s.cfg.nTx.pos hlen }
  | rbGet hb => exact { hI with rx := hI.rx.getBegin _ }
  | rbResetRx hp hc => exact { hI with rx := hI.rx.emptied s.cfg.nRx.pos hp hc }
  | rbResetTx hp hc => exact { hI with tx := hI.tx.emptied s.cfg.nTx.pos hp hc }
  | rxpStartArmed => exact { hI with rxPrev_lt := Nat.succ_pos _, drain_posted := fun _ => rfl }
  | rxpStartRefused => exact { hI with rxPrev_lt := Nat.succ_pos _ }
  | rxpStopPosted hb => exact { hI.rxpIdle hb with }
  | inErrorTaken hb => exact { hI.rxpIdle hb with }
  | txpKickIdle hb hs => exact { hI.fetching (hI.not_stopPending_of_idle hs) with }
  | outDoneFetches hb hs hp => exact { hI.fetching hp with }
  | txpStopDeferred hb hs => exact { hI with stop_posted := fun _ => ⟨hs, hb⟩ }
  | tickRecorded => exact { hI with rxPrev_lt := of_decide_eq_true hi }
  | tickDelivers _ hs => exact { hI.delivering hs (of_decide_eq_true hi) with rxPrev_lt := hI.rxPrev_lt }
  | inDoneDelivers _ hs => exact hI.delivering hs (of_decide_eq_true hi)
  | outDoneReleases => exact { hI.txpIdle with }
  | outErrorReleases => exact { hI.txpIdle with }
  | outErrorTaken _ _ hp => exact { hI.txpIdle with stop_posted := fun h => nomatch hp.symm.trans h }
  | inDataStaged hoff => exact { hI with rxStage_wf := Memory.wf_write hI.rxStage_wf hoff _ }
  | held | tickIgnored | inDoneIgnored | inErrorIgnored | outDoneIgnored | outErrorIgnored | inDataIgnored => exact hI
  | rbLen | rxpStartPosted | rxpStopIdle | txpKickPosted | txpStopIdle | txpStopBusy | regRead | regReadIllegal =>
    exact { hI with }

/-! ### The end of a fetch -/

/-- After an empty fetch or a refused submission the pump is `Idle` (R186); a fetch was in progress, so no close is deferred
(R187). -/
theorem State.Inv.fetchEnded {s : State} (hI : s.Inv) (hb : s.tx.cp.busy = true) :
    State.Inv { s with tx := s.tx.getEnd s.cfg.nTx.val, txpState := .idle, txBusy := false, txCount := 0 } :=
  { hI.txpIdle with
    tx := hI.tx.getEnd s.cfg.nTx.pos hb
    fetch_le := nofun
    stop_posted := fun h => nomatch hb.symm.trans (hI.stop_posted h).2 }

/-- The fetched chunk fits the staging buffer (R60). -/
theorem State.Inv.txStage_wf_staged {s : State} (hI : s.Inv) (hle : s.tx.cp.n ≤ s.cfg.txChunk.val) :
    Memory.wf s.cfg.txChunk.val (Memory.copyTo (fun k => k) 0 (s.gotBytes .tx) s.txStage) := by
  refine Memory.wf_copyTo _ _ hI.txStage_wf 0 fun j _ hj => ?_
  rw [gotBytes_length, Nat.zero_add] at hj
  exact Nat.lt_of_lt_of_le hj hle

/-- The whole chunk is written when it is staged (R39). -/
theorem isSome_read_staged {s : State} {m : Memory} {k : Nat} (hk : k < s.tx.cp.n) :
    ((Memory.copyTo (fun k => k) 0 (s.gotBytes .tx) m).read k).isSome = true := by
  have hread := Memory.read_copyTo_at (fun k => k) (s.gotBytes .tx) m 0 (fun _ _ _ hij _ => Nat.ne_of_lt hij) (j := k)
    (by rwa [gotBytes_length])
  rw [Nat.zero_add] at hread
  rw [hread]
  rfl

/-- After an accepted submission the fetched chunk is in flight (R186). -/
theorem State.Inv.sent {s : State} (hI : s.Inv) (hb : s.tx.cp.busy = true) (h0 : s.tx.cp.n ≠ 0)
    (hle : s.tx.cp.n ≤ s.cfg.txChunk.val) : State.Inv { s with
      tx := s.tx.getEnd s.cfg.nTx.val
      txStage := Memory.copyTo (fun k => k) 0 (s.gotBytes .tx) s.txStage
      txpState := .sendPosted
      txBusy := true
      txCount := s.tx.cp.n } :=
  { hI with
    tx := hI.tx.getEnd s.cfg.nTx.pos hb
    txCount_le := hle
    fetch_le := nofun
    txBusy_iff := by simp
    stop_posted := fun _ => ⟨rfl, rfl⟩
    idle_count := nofun
    posted_count := fun _ => Nat.pos_of_ne_zero h0
    txStage_wf := hI.txStage_wf_staged hle
    chunk_written := fun _ _ hk => isSome_read_staged hk }

/-! ### The step -/

/-- The step lemma of the invariant: the ports run well-formed instructions only. -/
theorem StepTo.inv {s t : State} (h : StepTo s t) (hI : s.Inv) : t.Inv := by
  cases h with
  | command _ _ hd he => exact he.inv { hI with } (decode_wf (decodeOn_eq_ok.mp hd).1)
  | event _ hd he => exact he.inv { hI with } (decode_wf (decodeOn_eq_ok.mp hd).1)
  | putEnd _ hb => exact { hI with tx := hI.tx.putEnd s.cfg.nTx.pos hb }
  | getEnd _ hb => exact { hI with rx := hI.rx.getEnd s.cfg.nRx.pos hb }
  | drainEnd _ hb =>
    refine { hI with
      rx := hI.rx.putEnd s.cfg.nRx.pos hb, drain_le := nofun, drain_posted := nofun, drop_le := ?_ }
    show (if s.rx.pp.n < s.rxC then sat32 (s.rxDrop + (s.rxC - s.rx.pp.n)) else s.rxDrop) ≤ _
    split
    · exact Nat.min_le_right _ _
    · exact hI.drop_le
  | fetchEndEmpty _ hb => exact { hI.fetchEnded hb with }
  | @fetchEnd ok _ _ hb h0 hle =>
    cases ok
    · exact { hI.fetchEnded hb with txStage_wf := hI.txStage_wf_staged hle, chunk_written := nofun }
    · exact { hI.sent hb h0 hle with }
  | reset => exact .ofResetStep s _
  | noTurn => exact hI
  | nothingPresented | illegalCommand | illegalEvent | putEndPasses | getEndPasses | drainEndPasses | fetchEndPasses =>
    exact { hI with }

/-- Settles O15, by cases on what a step can do. -/
theorem stepKeepsTheInvariant : Obligations.StepKeepsTheInvariant :=
  fun _ _ hI h => (step_to h).inv hI

end Sys2Proof.Machine
end

section
/-! R29: each index counter has one writer, besides the two resets. -/

namespace Sys2Proof.Machine

/-- The turn at which the consumer of a ring completes: `RB_GET.END` for RX, `TXP.FETCH_END` for TX (R29); the producer's is
`Turn.commits`. -/
def Turn.releases (u : Turn) (r : Ring) : Bool :=
  match u, r with
  | .getEnd, .rx => true
  | .fetchEnd _, .tx => true
  | _, _ => false

theorem Turn.eq_drainEnd_of_commits {u : Turn} (h : u.commits .rx = true) : ∃ ok, u = .drainEnd ok := by
  cases u with
  | drainEnd ok => exact ⟨ok, rfl⟩
  | _ => nomatch h

theorem Turn.eq_putEnd_of_commits {u : Turn} (h : u.commits .tx = true) : u = .putEnd := by
  cases u with
  | putEnd => rfl
  | _ => nomatch h

theorem Turn.eq_getEnd_of_releases {u : Turn} (h : u.releases .rx = true) : u = .getEnd := by
  cases u with
  | getEnd => rfl
  | _ => nomatch h

theorem Turn.eq_fetchEnd_of_releases {u : Turn} (h : u.releases .tx = true) : ∃ ok, u = .fetchEnd ok := by
  cases u with
  | fetchEnd ok => exact ⟨ok, rfl⟩
  | _ => nomatch h

/-- No instruction but `RB_RESET r` moves a counter of ring `r`: the begin steps fix counts only (R122, R125). -/
theorem ExecTo.counters_eq {s t : State} {i : Instr} (h : ExecTo s i t) {r : Ring} (hi : i ≠ .rbReset r) :
    (t.ring r).wr = (s.ring r).wr ∧ (t.ring r).rd = (s.ring r).rd := by
  cases h with
  | rbResetRx =>
    cases r with
    | rx => exact absurd rfl hi
    | tx => exact ⟨rfl, rfl⟩
  | rbResetTx =>
    cases r with
    | rx => exact ⟨rfl, rfl⟩
    | tx => exact absurd rfl hi
  | _ => cases r <;> exact ⟨rfl, rfl⟩

/-- Without a reset, `wr` moves only at its producer's completion and `rd` at its consumer's. -/
theorem StepTo.counters_eq {s t : State} (h : StepTo s t) {r : Ring} (hreset : s.turns.head? ≠ some .reset)
    (hring : s.nextInstr ≠ some (.rbReset r)) :
    ((t.ring r).wr = (s.ring r).wr ∨ ∃ u, s.turns.head? = some u ∧ u.commits r = true) ∧
    ((t.ring r).rd = (s.ring r).rd ∨ ∃ u, s.turns.head? = some u ∧ u.releases r = true) := by
  cases h with
  | command ht hp hd he =>
    rw [nextInstr_eq_some.mpr (.inl ⟨_, _, _, ht, hp, hd⟩)] at hring
    exact (he.counters_eq fun hi => hring (congrArg some hi)).imp .inl .inl
  | event ht hd he =>
    rw [nextInstr_eq_some.mpr (.inr ⟨_, _, ht, hd⟩)] at hring
    exact (he.counters_eq fun hi => hring (congrArg some hi)).imp .inl .inl
  | reset ht => exact absurd (congrArg List.head? ht) hreset
  | drainEnd ht =>
    cases r with
    | rx => exact ⟨.inr ⟨_, congrArg List.head? ht, rfl⟩, .inl rfl⟩
    | tx => exact ⟨.inl rfl, .inl rfl⟩
  | putEnd ht =>
    cases r with
    | rx => exact ⟨.inl rfl, .inl rfl⟩
    | tx => exact ⟨.inr ⟨_, congrArg List.head? ht, rfl⟩, .inl rfl⟩
  | getEnd ht =>
    cases r with
    | rx => exact ⟨.inl rfl, .inr ⟨_, congrArg List.head? ht, rfl⟩⟩
    | tx => exact ⟨.inl rfl, .inl rfl⟩
  | fetchEndEmpty ht | fetchEnd ht =>
    cases r with
    | rx => exact ⟨.inl rfl, .inl rfl⟩
    | tx => exact ⟨.inl rfl, .inr ⟨_, congrArg List.head? ht, rfl⟩⟩
  | _ => cases r <;> exact ⟨.inl rfl, .inl rfl⟩

/-- A write counter that changes was moved by its producer's completion or by one of the two resets. -/
theorem StepTo.wr_writer {s t : State} (h : StepTo s t) {r : Ring} (hne : (t.ring r).wr ≠ (s.ring r).wr) :
    (∃ u, s.turns.head? = some u ∧ u.commits r = true) ∨ s.turns.head? = some .reset ∨
      s.nextInstr = some (.rbReset r) := by
  by_contra hno
  obtain ⟨hturn, hreset, hring⟩ : _ ∧ _ ∧ _ := by simpa only [not_or] using hno
  obtain ⟨hw, -⟩ := h.counters_eq hreset hring
  exact hw.elim hne hturn

/-- The same of the read counter and its consumer. -/
theorem StepTo.rd_writer {s t : State} (h : StepTo s t) {r : Ring} (hne : (t.ring r).rd ≠ (s.ring r).rd) :
    (∃ u, s.turns.head? = some u ∧ u.releases r = true) ∨ s.turns.head? = some .reset ∨
      s.nextInstr = some (.rbReset r) := by
  by_contra hno
  obtain ⟨hturn, hreset, hring⟩ : _ ∧ _ ∧ _ := by simpa only [not_or] using hno
  obtain ⟨-, hr⟩ := h.counters_eq hreset hring
  exact hr.elim hne hturn

/-- Settles O20, counter by counter: the one turn at which a ring's producer or consumer completes is its writer. -/
theorem eachCounterHasOneWriter : Obligations.EachCounterHasOneWriter := by
  intro s t h
  have hs := step_to h
  refine ⟨fun hne => (hs.wr_writer (r := .rx) hne).imp_left ?_, fun hne => (hs.rd_writer (r := .rx) hne).imp_left ?_,
    fun hne => (hs.wr_writer (r := .tx) hne).imp_left ?_, fun hne => (hs.rd_writer (r := .tx) hne).imp_left ?_⟩
  · rintro ⟨u, hu, hc⟩
    obtain ⟨ok, rfl⟩ := Turn.eq_drainEnd_of_commits hc
    exact ⟨ok, hu⟩
  · rintro ⟨u, hu, hc⟩
    exact Turn.eq_getEnd_of_releases hc ▸ hu
  · rintro ⟨u, hu, hc⟩
    exact Turn.eq_putEnd_of_commits hc ▸ hu
  · rintro ⟨u, hu, hc⟩
    obtain ⟨ok, rfl⟩ := Turn.eq_fetchEnd_of_releases hc
    exact ⟨ok, hu⟩

end Sys2Proof.Machine
end

section
/-! Which steps depend on an unspecified byte (10_state.md R50, 40_ringbuffer.md R132, 70_reset_and_hazards.md R272): none but
`RESET` and a delivery that copies unwritten staging positions. The free bytes are named by `epoch` (log 3), so a case of
`StepTo` has to stay one when `epoch` is varied. Bytes are read in three places: at the end of a get and of a fetch, where the
invariant says they are written, and at the begin of a delivery, where that is the statement's premise. -/

namespace Sys2Proof.Machine

/-- `s` with other free bytes at its unwritten positions (log 3). -/
def State.atEpoch (s : State) (e : Nat) : State := { s with epoch := e }

/-- If instruction `x` begins a delivery (R154, R155), the staging positions the delivery copies into the ring, the first
`min(count, RX_STAGE, free)`, have been written since reset. -/
def State.CopiesWritten (s : State) (x : Option Instr) : Prop :=
  ∀ n, s.rxpState = .receivePosted → s.rx.pp.busy = false →
    (x = some (.evTick n) ∧ n = s.rxPrev ∧ n ≠ 0 ∧ s.rxDone = false ∨ x = some (.evInDone n)) →
    ∀ k, k < min (min n s.cfg.rxStage.val) (s.rx.free s.cfg.nRx.val) → (s.rxStage.read k).isSome = true

/-- A written byte does not depend on the free ones. -/
theorem State.memRead_atEpoch {s : State} {sp : Space} {a : Nat} (h : (Memory.read (s.space sp) a).isSome = true)
    (e : Nat) : (s.atEpoch e).memRead sp a = s.memRead sp a := by
  obtain ⟨b, hb⟩ := Option.isSome_iff_exists.mp h
  have hb' : Memory.read ((s.atEpoch e).space sp) a = some b := by cases sp <;> exact hb
  rw [State.memRead_of_read hb, State.memRead_of_read hb']

/-- A put's begin step reads no byte of its source beyond those that fit (R122). -/
theorem RingState.putBegin_congr {N len : Nat} {q : RingState} {src src' : List Byte}
    (h : src.take (min len (q.free N)) = src'.take (min len (q.free N))) :
    q.putBegin N src len = q.putBegin N src' len := by
  simp only [RingState.putBegin, h]

/-- What a delivery copies, when it copies written positions only. -/
theorem State.delivered_atEpoch {s : State} {c : Nat}
    (h : ∀ k, k < min c (s.rx.free s.cfg.nRx.val) → (s.rxStage.read k).isSome = true) (e : Nat) :
    s.rx.putBegin s.cfg.nRx.val ((s.atEpoch e).stagedBytes c) c = s.rx.putBegin s.cfg.nRx.val (s.stagedBytes c) c := by
  apply RingState.putBegin_congr
  simp only [State.stagedBytes, ← List.map_take, List.take_range]
  refine List.map_congr_left fun k hk => State.memRead_atEpoch (sp := .rxStg) (h k ?_) e
  have := List.mem_range.mp hk
  omega

/-- Every position a get in progress will read has been written (R132). -/
theorem RingInv.isSome_read_get {N : Nat} {q : RingState} (h : RingInv N q) (hb : q.cp.busy = true) {k : Nat}
    (hk : k < q.cp.n) : (q.mem.read (pos N q.rd k)).isSome = true := by
  have hget := h.get_fits
  simp only [PortCtx.pending, hb, if_true] at hget
  exact h.written k (by omega)

/-- What a get in progress will return has been written. -/
theorem State.gotBytes_atEpoch {s : State} {r : Ring} (h : RingInv (s.cap r) (s.ring r))
    (hb : (s.ring r).cp.busy = true) (e : Nat) : (s.atEpoch e).gotBytes r = s.gotBytes r := by
  cases r
  · exact List.map_congr_left fun k hk =>
      State.memRead_atEpoch (sp := .rxMem) (h.isSome_read_get hb (List.mem_range.mp hk)) e
  · exact List.map_congr_left fun k hk =>
      State.memRead_atEpoch (sp := .txMem) (h.isSome_read_get hb (List.mem_range.mp hk)) e

/-- An instruction keeps its case when the free bytes vary; only a delivery begin reads any. -/
theorem ExecTo.atEpoch {s t : State} {i : Instr} (h : ExecTo s i t) (hc : s.CopiesWritten (some i)) (e : Nat) :
    ExecTo (s.atEpoch e) i (t.atEpoch e) := by
  cases h with
  | tickDelivers hb hs hn h0 hd =>
    rw [← State.delivered_atEpoch (hc _ hs hb (.inl ⟨rfl, hn, h0, hd⟩)) e]
    exact .tickDelivers hb hs hn h0 hd
  | inDoneDelivers hb hs =>
    rw [← State.delivered_atEpoch (hc _ hs hb (.inr rfl)) e]
    exact .inDoneDelivers hb hs
  | tickIgnored h => exact .tickIgnored h
  | inDoneIgnored h => exact .inDoneIgnored h
  | inErrorIgnored h => exact .inErrorIgnored h
  | outDoneIgnored h => exact .outDoneIgnored h
  | outErrorIgnored h => exact .outErrorIgnored h
  | inDataIgnored h => exact .inDataIgnored h
  | _ => constructor <;> assumption

theorem State.present_atEpoch (s : State) (e : Nat) : (s.atEpoch e).present = s.present.atEpoch e := by
  rcases hp : s.presented with _ | c <;> rcases hh : s.host with _ | ⟨c', later⟩ <;>
    simp [State.present, State.atEpoch, hp, hh]

theorem State.atCommand_atEpoch (s : State) (ok : Bool) (rest : List Turn) (e : Nat) :
    (s.atEpoch e).atCommand ok rest = (s.atCommand ok rest).atEpoch e := by
  rw [State.atCommand, State.present_atEpoch]
  rfl

theorem State.nextInstr_atEpoch (s : State) (e : Nat) : (s.atEpoch e).nextInstr = s.nextInstr := by
  rw [State.nextInstr, State.present_atEpoch]
  rfl

/-- A step keeps its case when the free bytes vary. -/
theorem StepTo.atEpoch {s t : State} (h : StepTo s t) (hI : s.Inv) (hr : s.turns.head? ≠ some .reset)
    (hc : s.CopiesWritten s.nextInstr) (e : Nat) : StepTo (s.atEpoch e) (t.atEpoch e) := by
  have hsame : (s.atEpoch e).present.presented = s.present.presented := by
    rw [State.present_atEpoch]
    rfl
  cases h with
  | nothingPresented ht hp => exact State.atCommand_atEpoch s _ _ e ▸ .nothingPresented ht (hsame.trans hp)
  | illegalCommand ht hp hd =>
    have hstep := StepTo.illegalCommand (s := s.atEpoch e) ht (hsame.trans hp) hd
    rwa [State.atCommand_atEpoch] at hstep
  | command ht hp hd he =>
    refine .command ht (hsame.trans hp) hd ?_
    rw [State.atCommand_atEpoch]
    rw [nextInstr_eq_some.mpr (.inl ⟨_, _, _, ht, hp, hd⟩)] at hc
    exact he.atEpoch hc e
  | event ht hd he =>
    rw [nextInstr_eq_some.mpr (.inr ⟨_, _, ht, hd⟩)] at hc
    exact .event ht hd (he.atEpoch hc e)
  | getEnd ht hb =>
    rw [← State.gotBytes_atEpoch hI.rx hb e]
    exact .getEnd ht hb
  | fetchEnd ht hb h0 hle =>
    rw [← State.gotBytes_atEpoch hI.tx hb e]
    exact .fetchEnd ht hb h0 hle
  | reset ht => simp [ht] at hr
  | noTurn ht => exact .noTurn ht
  | illegalEvent ht hd => exact .illegalEvent ht hd
  | putEndPasses ht hb => exact .putEndPasses ht hb
  | putEnd ht hb => exact .putEnd ht hb
  | getEndPasses ht hb => exact .getEndPasses ht hb
  | drainEndPasses ht hb => exact .drainEndPasses ht hb
  | drainEnd ht hb => exact .drainEnd ht hb
  | fetchEndPasses ht hb => exact .fetchEndPasses ht hb
  | fetchEndEmpty ht hb h0 => exact .fetchEndEmpty ht hb h0

/-- Settles O54: the step's case is the same at every epoch, and so is what the payload check of R98 looks at. -/
theorem unspecifiedBytesAreNeverObserved : Obligations.UnspecifiedBytesAreNeverObserved := by
  intro s t e hI h hr hc
  refine ((step_to h).atEpoch hI hr hc e).step_eq fun len hn => ?_
  rw [State.nextInstr_atEpoch] at hn
  rw [State.present_atEpoch]
  exact payload_length_of_step h hn

end Sys2Proof.Machine
end

section
/-! The statements of 20_memory.md about `TXSTG`: `TXP.FETCH_END` is its one writer besides `RESET` (R75), and the one step
that could store beyond it, where the machine faults (R60; log 10). -/

namespace Sys2Proof.Machine

/-! ### Where the machine faults -/

/-- An instruction goes on, but for `RB_PUT`, which may be refused (R98): none faults. -/
theorem exec_ne_fault (i : Instr) (s : State) (f : Fault) : exec i s ≠ .fault f := by
  cases i with
  | rbPut len =>
    simp only [exec, execRbPut]
    split
    · exact nofun
    · exact nofun
  | _ => exact nofun

theorem takeCommand_ne_fault (s : State) (f : Fault) : takeCommand s ≠ .fault f := by
  unfold takeCommand
  split
  · exact nofun
  · split
    · exact exec_ne_fault _ s f
    · exact nofun

theorem takeEvent_ne_fault (w : Word) (s : State) (f : Fault) : takeEvent w s ≠ .fault f := by
  unfold takeEvent
  split
  · exact exec_ne_fault _ s f
  · exact nofun

/-- The other side of `takeFetchEnd_next_of_le`: a longer chunk faults, at the first position beyond the buffer. -/
theorem takeFetchEnd_of_lt {s : State} (hb : s.tx.cp.busy = true) (hlt : s.cfg.txChunk.val < s.tx.cp.n) :
    takeFetchEnd s = .fault (.noSuchPosition .txStg s.cfg.txChunk.val) := by
  rw [takeFetchEnd, if_pos hb, if_neg (Nat.not_le.mpr hlt)]

theorem takeFetchEnd_of_idle {s : State} (hb : s.tx.cp.busy = false) : takeFetchEnd s = .next s := by
  simp [takeFetchEnd, hb]

theorem takeFetchEnd_eq_fault {s : State} {f : Fault} : takeFetchEnd s = .fault f ↔
    s.tx.cp.busy = true ∧ s.cfg.txChunk.val < s.tx.cp.n ∧ f = .noSuchPosition .txStg s.cfg.txChunk.val := by
  constructor
  · intro h
    have hb : s.tx.cp.busy = true := eq_true_of_ne_false fun hidle => nomatch (takeFetchEnd_of_idle hidle).symm.trans h
    have hlt : s.cfg.txChunk.val < s.tx.cp.n := Nat.lt_of_not_le fun hle =>
      have ⟨_, hnext⟩ := takeFetchEnd_next_of_le hle
      nomatch hnext.symm.trans h
    have hf := (takeFetchEnd_of_lt hb hlt).symm.trans h
    exact ⟨hb, hlt, (Host.Outcome.fault.inj hf).symm⟩
  · rintro ⟨hb, hlt, rfl⟩
    exact takeFetchEnd_of_lt hb hlt

/-- Of all turns only `TXP.FETCH_END` can fault. -/
theorem turn_of_step_fault {s : State} {f : Fault} (h : step s = .fault f) :
    ∃ ok rest, s.turns = .fetchEnd ok :: rest := by
  rcases ht : s.turns with _ | ⟨u, rest⟩
  · simp [step, ht] at h
  · rw [step_of_turn ht] at h
    cases u with
    | fetchEnd ok => exact ⟨ok, rest, rfl⟩
    | command ok => exact absurd h (takeCommand_ne_fault _ f)
    | event w => exact absurd h (takeEvent_ne_fault w _ f)
    | putEnd | getEnd | drainEnd | reset => nomatch h

theorem step_of_fetchEnd {s : State} {ok : Bool} {rest : List Turn} (ht : s.turns = .fetchEnd ok :: rest) :
    step s = takeFetchEnd { s with turns := rest, answer := ok } := step_of_turn ht

/-- Settles O17: a fault is one of `TXP.FETCH_END`, which looks at the pending fetch and the buffer's size only. -/
theorem faultsAreChunksBeyondTheStage : Obligations.FaultsAreChunksBeyondTheStage := by
  intro s f
  constructor
  · intro h
    obtain ⟨ok, rest, ht⟩ := turn_of_step_fault h
    rw [step_of_fetchEnd ht] at h
    have hfault := takeFetchEnd_eq_fault.mp h
    exact ⟨⟨ok, rest, ht⟩, hfault⟩
  · rintro ⟨⟨ok, rest, ht⟩, hfault⟩
    rw [step_of_fetchEnd ht]
    exact takeFetchEnd_eq_fault.mpr hfault

/-! ### Who writes `tx_stage` -/

/-- No instruction writes `tx_stage`: `EV_IN_DATA` stores into `rx_stage`, the puts into the rings (R60). -/
theorem ExecTo.txStage_eq {s t : State} {i : Instr} (h : ExecTo s i t) : t.txStage = s.txStage := by
  cases h <;> rfl

theorem StepTo.txStage_eq_or {s t : State} (h : StepTo s t) : t.txStage = s.txStage ∨
    ((∃ ok, s.turns.head? = some (.fetchEnd ok)) ∧ s.tx.cp.busy = true ∧ 0 < s.tx.cp.n) ∨
    s.turns.head? = some .reset := by
  cases h with
  | command _ _ _ he => exact .inl he.txStage_eq
  | event _ _ he => exact .inl he.txStage_eq
  | fetchEnd ht hb h0 => exact .inr (.inl ⟨⟨_, congrArg List.head? ht⟩, hb, Nat.pos_of_ne_zero h0⟩)
  | reset ht => exact .inr (.inr (congrArg List.head? ht))
  | _ => exact .inl rfl

/-- Settles O49: only the end of a non-empty fetch and `RESET` assign the field. -/
theorem txStageChangesOnlyAtFetchEnd : Obligations.TxStageChangesOnlyAtFetchEnd :=
  fun _ _ h hne => (step_to h).txStage_eq_or.resolve_left hne

end Sys2Proof.Machine
end

section
/-! Decoder and encoder undo each other (30_encoding.md R91 to R97, R99): decoding the word of a well-formed instruction gives the
instruction back, and a word that decodes is the word of what it decodes to. One lemma per class of the decoder. -/

namespace Sys2Proof

/-! ### Decoding a word built from fields -/

theorem toNat_ofNat_operand {n : Nat} (h : n < 65536) : (BitVec.ofNat 16 n).toNat = n := by
  rw [BitVec.toNat_ofNat, Nat.mod_eq_of_lt h]

/-- The two halves a data byte is encoded in (R95) make up the byte again. -/
theorem byteField_wordOf_halves (c f : BitVec 4) (b : Byte) (a : BitVec 16) :
    byteField (wordOf c f (b.extractLsb' 4 4) (b.extractLsb' 0 4) a) = b := by
  apply BitVec.eq_of_toNat_eq
  have := b.isLt
  rw [byteField_wordOf, BitVec.extractLsb'_toNat, BitVec.extractLsb'_toNat, Nat.shiftRight_eq_div_pow]
  omega

theorem decode_of_ring {w : Word} (h : clsField w = 0x1#4) : decode w = decodeRing w := by
  simp [decode, h]
theorem decode_of_pump {w : Word} (h : clsField w = 0x2#4) : decode w = decodePump w := by
  simp [decode, h]
theorem decode_of_event {w : Word} (h : clsField w = 0x3#4) : decode w = decodeEvent w := by
  simp [decode, h]
theorem decode_of_system {w : Word} (h : clsField w = 0x4#4) : decode w = decodeSystem w := by
  simp [decode, h]

/-- Settles O2: the class selects the format, whose fields are those the word was built from. -/
theorem decodeAfterEncodeIsIdentity : Obligations.DecodeAfterEncodeIsIdentity := by
  intro i hi
  cases i with
  | rbPut len | rbGet len =>
    have harg := toNat_ofNat_operand (of_decide_eq_true hi)
    rw [encode, decode_of_ring (clsField_wordOf ..)]
    simp [decodeRing, harg]
  | rbLen r | rbReset r =>
    rw [encode, decode_of_ring (clsField_wordOf ..)]
    simp [decodeRing, withoutArg]
  | rxpStart | rxpStop | txpKick | txpStop =>
    rw [encode, decode_of_pump (clsField_wordOf ..)]
    simp [decodePump, ringOfUnit, withoutArg]
  | evTick count | evInDone count | evOutDone count =>
    have harg := toNat_ofNat_operand (of_decide_eq_true hi)
    rw [encode, decode_of_event (clsField_wordOf ..)]
    simp [decodeEvent, ringOfUnit, harg]
  | evInError | evOutError =>
    rw [encode, decode_of_event (clsField_wordOf ..)]
    simp [decodeEvent, ringOfUnit, withoutArg]
  | evInData byte off =>
    have harg := toNat_ofNat_operand (of_decide_eq_true hi)
    rw [encode, decode_of_event (clsField_wordOf ..)]
    simp [decodeEvent, byteField_wordOf_halves, harg]
  | regRead idx =>
    have hidx : idx < 256 := of_decide_eq_true hi
    have harg := toNat_ofNat_operand (n := idx) (by omega)
    rw [encode, decode_of_system (clsField_wordOf ..)]
    simp [decodeSystem, harg, hidx]

/-! ### The word of a decoded instruction -/

theorem withoutArg_eq_ok {w : Word} {i j : Instr} : withoutArg w i = .ok j ↔ argField w = 0 ∧ i = j := by
  unfold withoutArg
  split <;> simp [*]

theorem ringOfUnit_eq_some {u : BitVec 4} {r : Ring} : ringOfUnit u = some r ↔ u = unitOfRing r := by
  revert u r
  rintro u (_ | _) <;> revert u <;> decide

/-- `wordOf_fields`, for fields whose values are known. -/
theorem wordOf_eq {w : Word} {c f u r : BitVec 4} {n : Nat} (hc : clsField w = c) (hf : fnField w = f)
    (hu : unitField w = u) (hr : rsvField w = r) (ha : argField w = n) : wordOf c f u r (BitVec.ofNat 16 n) = w := by
  rw [← hc, ← hf, ← hu, ← hr, ← ha, wordOf_fields]

theorem encode_of_decodeRing {w : Word} {i : Instr} (hc : clsField w = 0x1#4) (h : decodeRing w = .ok i) :
    encode i = w := by
  unfold decodeRing at h
  split_ifs at h with hr hf hu hf hu hf hf
  all_goals rw [not_not] at hr
  · exact Except.ok.inj h ▸ wordOf_eq hc hf hu hr rfl
  · exact Except.ok.inj h ▸ wordOf_eq hc hf hu hr rfl
  all_goals
    split at h
    · obtain ⟨ha, rfl⟩ := withoutArg_eq_ok.mp h
      exact wordOf_eq hc hf (ringOfUnit_eq_some.mp ‹_›) hr ha
    · cases h

theorem encode_of_decodePump {w : Word} {i : Instr} (hc : clsField w = 0x2#4) (h : decodePump w = .ok i) :
    encode i = w := by
  unfold decodePump at h
  split_ifs at h with hr hf hf
  all_goals
    rw [not_not] at hr
    split at h
    · obtain ⟨ha, rfl⟩ := withoutArg_eq_ok.mp h
      exact wordOf_eq hc hf (ringOfUnit_eq_some.mp ‹_›) hr ha
    · obtain ⟨ha, rfl⟩ := withoutArg_eq_ok.mp h
      exact wordOf_eq hc hf (ringOfUnit_eq_some.mp ‹_›) hr ha
    · cases h

/-- In format D the bits of `unit` and `rsv` are the halves of the data byte (R95). -/
theorem extractLsb'_byteField_high (w : Word) : (byteField w).extractLsb' 4 4 = unitField w := by
  apply BitVec.eq_of_toNat_eq
  rw [BitVec.extractLsb'_toNat, Nat.shiftRight_eq_div_pow, toNat_byteField, toNat_unitField]
  omega

theorem extractLsb'_byteField_low (w : Word) : (byteField w).extractLsb' 0 4 = rsvField w := by
  apply BitVec.eq_of_toNat_eq
  rw [BitVec.extractLsb'_toNat, Nat.shiftRight_zero, toNat_byteField, toNat_rsvField]
  omega

theorem encode_evInData {w : Word} (hc : clsField w = 0x3#4) (hf : fnField w = 0x3#4) :
    encode (.evInData (byteField w) (argField w)) = w :=
  wordOf_eq hc hf (extractLsb'_byteField_high w).symm (extractLsb'_byteField_low w).symm rfl

theorem encode_of_decodeEvent {w : Word} {i : Instr} (hc : clsField w = 0x3#4) (h : decodeEvent w = .ok i) :
    encode i = w := by
  unfold decodeEvent at h
  split_ifs at h with hf hr hf hu hf hf
  · exact Except.ok.inj h ▸ encode_evInData hc hf
  all_goals rw [not_not] at hr
  · exact Except.ok.inj h ▸ wordOf_eq hc hf hu hr rfl
  · split at h
    · exact Except.ok.inj h ▸ wordOf_eq hc hf (ringOfUnit_eq_some.mp ‹_›) hr rfl
    · exact Except.ok.inj h ▸ wordOf_eq hc hf (ringOfUnit_eq_some.mp ‹_›) hr rfl
    · cases h
  · split at h
    · obtain ⟨ha, rfl⟩ := withoutArg_eq_ok.mp h
      exact wordOf_eq hc hf (ringOfUnit_eq_some.mp ‹_›) hr ha
    · obtain ⟨ha, rfl⟩ := withoutArg_eq_ok.mp h
      exact wordOf_eq hc hf (ringOfUnit_eq_some.mp ‹_›) hr ha
    · cases h

theorem encode_of_decodeSystem {w : Word} {i : Instr} (hc : clsField w = 0x4#4) (h : decodeSystem w = .ok i) :
    encode i = w := by
  unfold decodeSystem at h
  split_ifs at h with hr hf hu ha
  rw [not_not] at hr hf hu
  exact Except.ok.inj h ▸ wordOf_eq hc hf hu hr rfl

/-- Settles O3: in each class the decoder has looked at every field that is no operand, so the word is the one built from the
fields it found. -/
theorem encodeAfterDecodeIsIdentity : Obligations.EncodeAfterDecodeIsIdentity := by
  refine fun w i h => ⟨decode_wf h, ?_⟩
  unfold decode at h
  split_ifs at h with hc hc hc hc
  · exact encode_of_decodeRing hc h
  · exact encode_of_decodePump hc h
  · exact encode_of_decodeEvent hc h
  · exact encode_of_decodeSystem hc h

end Sys2Proof
end

section
/-! The opcode map (30_encoding.md R99): its masks select field by field, so a word matches a row exactly when it is the word of
an instruction of that row. -/

namespace Sys2Proof

/-! ### Masked words -/

theorem wordOf_and_wordOf (c f u r c' f' u' r' : BitVec 4) (a a' : BitVec 16) :
    wordOf c f u r a &&& wordOf c' f' u' r' a' = wordOf (c &&& c') (f &&& f') (u &&& u') (r &&& r') (a &&& a') := by
  have h : (c ++ (f ++ (u ++ (r ++ a)))) &&& (c' ++ (f' ++ (u' ++ (r' ++ a')))) =
      (c &&& c') ++ ((f &&& f') ++ ((u &&& u') ++ ((r &&& r') ++ (a &&& a')))) := by
    simp only [BitVec.and_append]
  exact congrArg (BitVec.cast _) h

theorem wordOf_inj {c f u r c' f' u' r' : BitVec 4} {a a' : BitVec 16} :
    wordOf c f u r a = wordOf c' f' u' r' a' ↔ c = c' ∧ f = f' ∧ u = u' ∧ r = r' ∧ a = a' := by
  refine ⟨fun h => ⟨?_, ?_, ?_, ?_, BitVec.eq_of_toNat_eq ?_⟩, fun ⟨hc, hf, hu, hr, ha⟩ => by rw [hc, hf, hu, hr, ha]⟩
  · simpa using congrArg clsField h
  · simpa using congrArg fnField h
  · simpa using congrArg unitField h
  · simpa using congrArg rsvField h
  · simpa using congrArg argField h

/-- A mask selects field by field. -/
theorem and_wordOf_eq_iff {w : Word} {mc mf mu mr c f u r : BitVec 4} {ma a : BitVec 16} :
    w &&& wordOf mc mf mu mr ma = wordOf c f u r a ↔
      clsField w &&& mc = c ∧ fnField w &&& mf = f ∧ unitField w &&& mu = u ∧ rsvField w &&& mr = r ∧
        BitVec.ofNat 16 (argField w) &&& ma = a := by
  conv_lhs => rw [← wordOf_fields w, wordOf_and_wordOf, wordOf_inj]

theorem and_ones4 (x : BitVec 4) : x &&& 0xF#4 = x := BitVec.and_allOnes
theorem and_ones16 (x : BitVec 16) : x &&& 0xFFFF#16 = x := BitVec.and_allOnes
theorem and_ones32 (w : Word) : w &&& 0xFFFFFFFF#32 = w := BitVec.and_allOnes

theorem ofNat_argField_eq_zero {w : Word} : BitVec.ofNat 16 (argField w) = 0#16 ↔ argField w = 0 := by
  rw [← BitVec.toNat_inj, toNat_ofNat_operand (argField_lt w)]
  rfl

theorem and_ringBit_eq_zero {u : BitVec 4} : u &&& 0xE#4 = 0#4 ↔ ∃ r, u = unitOfRing r := by
  constructor
  · intro h
    have hu : u = unitOfRing .rx ∨ u = unitOfRing .tx := by
      revert u
      decide
    exact hu.elim (⟨_, ·⟩) (⟨_, ·⟩)
  · rintro ⟨_ | _, rfl⟩ <;> rfl

theorem argField_and_high_eq_zero {w : Word} : BitVec.ofNat 16 (argField w) &&& 0xFF00#16 = 0#16 ↔ argField w < 256 := by
  have hmask : ∀ a : BitVec 16, a &&& 0xFF00#16 = a >>> 8 <<< 8 := fun _ =>
    (BitVec.shiftLeft_ushiftRight (n := 8)).symm
  have hlt := argField_lt w
  rw [hmask, ← BitVec.toNat_inj, BitVec.toNat_shiftLeft, BitVec.toNat_ushiftRight, toNat_ofNat_operand hlt,
    Nat.shiftRight_eq_div_pow, Nat.shiftLeft_eq]
  simp only [BitVec.toNat_ofNat]
  omega

/-- The mask of a row whose free field is `arg`. -/
theorem and_argMask_iff {w : Word} (c f u r : BitVec 4) : w &&& 0xFFFF0000#32 = wordOf c f u r 0#16 ↔
    clsField w = c ∧ fnField w = f ∧ unitField w = u ∧ rsvField w = r := by
  rw [show 0xFFFF0000#32 = wordOf 0xF#4 0xF#4 0xF#4 0xF#4 0#16 from rfl, and_wordOf_eq_iff]
  simp only [and_ones4, BitVec.and_zero, and_true]

/-- The mask of a row whose free bit is the ring. -/
theorem and_ringMask_iff {w : Word} (c f : BitVec 4) : w &&& 0xFFEFFFFF#32 = wordOf c f 0#4 0#4 0#16 ↔
    clsField w = c ∧ fnField w = f ∧ (∃ r, unitField w = unitOfRing r) ∧ rsvField w = 0#4 ∧ argField w = 0 := by
  rw [show 0xFFEFFFFF#32 = wordOf 0xF#4 0xF#4 0xE#4 0xF#4 0xFFFF#16 from rfl, and_wordOf_eq_iff]
  simp only [and_ones4, and_ones16, and_ringBit_eq_zero, ofNat_argField_eq_zero]

/-- The mask of the row whose free fields are a data byte and an offset. -/
theorem and_dataMask_iff {w : Word} (c f : BitVec 4) : w &&& 0xFF000000#32 = wordOf c f 0#4 0#4 0#16 ↔
    clsField w = c ∧ fnField w = f := by
  rw [show 0xFF000000#32 = wordOf 0xF#4 0xF#4 0#4 0#4 0#16 from rfl, and_wordOf_eq_iff]
  simp only [and_ones4, BitVec.and_zero, and_true]

/-- The mask of the row whose free field is a register number. -/
theorem and_idxMask_iff {w : Word} (c f u r : BitVec 4) : w &&& 0xFFFFFF00#32 = wordOf c f u r 0#16 ↔
    clsField w = c ∧ fnField w = f ∧ unitField w = u ∧ rsvField w = r ∧ argField w < 256 := by
  rw [show 0xFFFFFF00#32 = wordOf 0xF#4 0xF#4 0xF#4 0xF#4 0xFF00#16 from rfl, and_wordOf_eq_iff]
  simp only [and_ones4, argField_and_high_eq_zero]

/-! ### The rows -/

/-- The word of an instruction matches its row. -/
theorem exists_row_of_wf {i : Instr} (hi : i.wf = true) : ∃ row ∈ opcodeMap, encode i &&& row.mask = row.pattern := by
  cases i with
  | rbPut => exact ⟨opcodeMap[0], by decide, (and_argMask_iff 1 0 1 0).mpr (by simp [encode])⟩
  | rbGet => exact ⟨opcodeMap[1], by decide, (and_argMask_iff 1 1 0 0).mpr (by simp [encode])⟩
  | rbLen => exact ⟨opcodeMap[2], by decide, (and_ringMask_iff 1 2).mpr (by simp [encode])⟩
  | rbReset => exact ⟨opcodeMap[3], by decide, (and_ringMask_iff 1 3).mpr (by simp [encode])⟩
  | rxpStart => exact ⟨opcodeMap[4], by decide, rfl⟩
  | rxpStop => exact ⟨opcodeMap[5], by decide, rfl⟩
  | txpKick => exact ⟨opcodeMap[6], by decide, rfl⟩
  | txpStop => exact ⟨opcodeMap[7], by decide, rfl⟩
  | evTick => exact ⟨opcodeMap[8], by decide, (and_argMask_iff 3 0 0 0).mpr (by simp [encode])⟩
  | evInDone => exact ⟨opcodeMap[9], by decide, (and_argMask_iff 3 1 0 0).mpr (by simp [encode])⟩
  | evOutDone => exact ⟨opcodeMap[10], by decide, (and_argMask_iff 3 1 1 0).mpr (by simp [encode])⟩
  | evInError => exact ⟨opcodeMap[11], by decide, rfl⟩
  | evOutError => exact ⟨opcodeMap[12], by decide, rfl⟩
  | evInData => exact ⟨opcodeMap[13], by decide, (and_dataMask_iff 3 3).mpr (by simp [encode])⟩
  | regRead idx =>
    have hidx : idx < 256 := of_decide_eq_true hi
    have harg := toNat_ofNat_operand (n := idx) (by omega)
    exact ⟨opcodeMap[14], by decide, (and_idxMask_iff 4 0 0 0).mpr (by simp [encode, harg, hidx])⟩

/-- `w` decodes to an operation of this mnemonic, its operands the free fields (R99). -/
def Selects (w : Word) (mnemonic : String) : Prop :=
  ∃ i, decode w = .ok i ∧ i.mnemonic = mnemonic ∧ i.operandsAre w

theorem Selects.ofEncode {w : Word} {i : Instr} (hi : i.wf = true) (h : encode i = w) (ho : i.operandsAre w) :
    Selects w i.mnemonic :=
  ⟨i, h ▸ decodeAfterEncodeIsIdentity i hi, rfl, ho⟩

/-- Bit 20 is the ring (R92). -/
theorem eq_tx_iff_getLsbD {w : Word} {r : Ring} (h : unitField w = unitOfRing r) : r = .tx ↔ w.getLsbD 20 = true := by
  have hbit : w.getLsbD 20 = (unitField w).getLsbD 0 := by simp [unitField]
  rw [hbit, h]
  cases r <;> decide

/-- An argument of 8 bits is the operand `idx` (R96). -/
theorem argField_eq_idx {w : Word} (h : argField w < 256) : argField w = (w.extractLsb' 0 8).toNat := by
  rw [BitVec.extractLsb'_toNat, Nat.shiftRight_zero]
  rw [argField_eq] at h ⊢
  omega

/-- A word that matches a row selects its operation: the fixed fields are those of the operation's word, the free ones its
operands. -/
theorem selects_of_row {w : Word} {row : OpRow} (hm : row ∈ opcodeMap) (h : w &&& row.mask = row.pattern) :
    Selects w row.mnemonic := by
  have hfixed : ∀ p : Word, w &&& 0xFFFFFFFF#32 = p → p = w := fun p hp => hp.symm.trans (and_ones32 w)
  have harg : decide (argField w < 65536) = true := decide_eq_true (argField_lt w)
  simp only [opcodeMap, List.mem_cons, List.not_mem_nil, or_false] at hm
  rcases hm with rfl | rfl | rfl | rfl | rfl | rfl | rfl | rfl | rfl | rfl | rfl | rfl | rfl | rfl | rfl
  · obtain ⟨hc, hf, hu, hr⟩ := (and_argMask_iff 1 0 1 0).mp h
    exact .ofEncode (i := .rbPut _) harg (wordOf_eq hc hf hu hr rfl) rfl
  · obtain ⟨hc, hf, hu, hr⟩ := (and_argMask_iff 1 1 0 0).mp h
    exact .ofEncode (i := .rbGet _) harg (wordOf_eq hc hf hu hr rfl) rfl
  · obtain ⟨hc, hf, ⟨r, hu⟩, hr, ha⟩ := (and_ringMask_iff 1 2).mp h
    exact .ofEncode (i := .rbLen r) rfl (wordOf_eq hc hf hu hr ha) (eq_tx_iff_getLsbD hu)
  · obtain ⟨hc, hf, ⟨r, hu⟩, hr, ha⟩ := (and_ringMask_iff 1 3).mp h
    exact .ofEncode (i := .rbReset r) rfl (wordOf_eq hc hf hu hr ha) (eq_tx_iff_getLsbD hu)
  · exact .ofEncode (i := .rxpStart) rfl (hfixed _ h) trivial
  · exact .ofEncode (i := .rxpStop) rfl (hfixed _ h) trivial
  · exact .ofEncode (i := .txpKick) rfl (hfixed _ h) trivial
  · exact .ofEncode (i := .txpStop) rfl (hfixed _ h) trivial
  · obtain ⟨hc, hf, hu, hr⟩ := (and_argMask_iff 3 0 0 0).mp h
    exact .ofEncode (i := .evTick _) harg (wordOf_eq hc hf hu hr rfl) rfl
  · obtain ⟨hc, hf, hu, hr⟩ := (and_argMask_iff 3 1 0 0).mp h
    exact .ofEncode (i := .evInDone _) harg (wordOf_eq hc hf hu hr rfl) rfl
  · obtain ⟨hc, hf, hu, hr⟩ := (and_argMask_iff 3 1 1 0).mp h
    exact .ofEncode (i := .evOutDone _) harg (wordOf_eq hc hf hu hr rfl) rfl
  · exact .ofEncode (i := .evInError) rfl (hfixed _ h) trivial
  · exact .ofEncode (i := .evOutError) rfl (hfixed _ h) trivial
  · obtain ⟨hc, hf⟩ := (and_dataMask_iff 3 3).mp h
    exact .ofEncode (i := .evInData _ _) harg (encode_evInData hc hf) ⟨rfl, rfl⟩
  · obtain ⟨hc, hf, hu, hr, ha⟩ := (and_idxMask_iff 4 0 0 0).mp h
    exact .ofEncode (i := .regRead _) (decide_eq_true ha) (wordOf_eq hc hf hu hr rfl) (argField_eq_idx ha)

/-- Two rows differ in a bit that both their masks select. -/
theorem opcodeMap_exclusive : ∀ row ∈ opcodeMap, ∀ row' ∈ opcodeMap,
    row.pattern &&& row'.mask = row'.pattern &&& row.mask → row = row' := by decide

/-- Settles O4: a matched row selects its operation, and a word that decodes, being the word of its instruction, matches a row. -/
theorem decoderFollowsTheOpcodeMap : Obligations.DecoderFollowsTheOpcodeMap := by
  refine ⟨rfl, fun row hm row' hm' w h h' => ?_, fun w => ⟨fun row hrow => ?_, fun hnone => ?_⟩⟩
  · refine opcodeMap_exclusive row hm row' hm' ?_
    rw [← h, ← h', BitVec.and_assoc, BitVec.and_assoc, BitVec.and_comm row.mask]
  · have hmatch := List.find?_some (p := fun row : OpRow => decide (w &&& row.mask = row.pattern)) hrow
    exact selects_of_row (List.mem_of_find?_eq_some hrow) (of_decide_eq_true hmatch)
  · rcases hd : decode w with e | i
    · exact ⟨e, rfl⟩
    · obtain ⟨hi, rfl⟩ := encodeAfterDecodeIsIdentity w i hd
      obtain ⟨row, hm, hrow⟩ := exists_row_of_wf hi
      exact absurd (decide_eq_true hrow) (List.find?_eq_none.mp hnone row hm)

end Sys2Proof
end

section
/-! The list of illegal encodings (30_encoding.md R100): what each class of the decoder refuses, clause by clause. -/

namespace Sys2Proof

theorem withoutArg_refuses {w : Word} {i : Instr} : (∃ e, withoutArg w i = .error e) ↔ argField w ≠ 0 := by
  unfold withoutArg
  split <;> simp [*]

theorem ringOfUnit_eq_none {u : BitVec 4} : ringOfUnit u = none ↔ 1#4 < u := by
  revert u
  decide

theorem not_one_lt_of_ring {u : BitVec 4} {r : Ring} (h : ringOfUnit u = some r) : ¬1#4 < u :=
  fun hlt => nomatch h.symm.trans (ringOfUnit_eq_none.mpr hlt)

theorem decodeRing_refuses {w : Word} : (∃ e, decodeRing w = .error e) ↔
    3#4 < fnField w ∨ 1#4 < unitField w ∨ (fnField w = 0#4 ∧ unitField w = 0#4) ∨ (fnField w = 1#4 ∧ unitField w = 1#4) ∨
      rsvField w ≠ 0#4 ∨ (argField w ≠ 0 ∧ (fnField w = 2#4 ∨ fnField w = 3#4)) := by
  unfold decodeRing
  split_ifs with hr hf hu hf hu hf hf
  · simp [hr]
  · simp [hf, hu, hr]
  · have hunit : 1#4 < unitField w ∨ unitField w = 0#4 := by bv_omega
    simp [hf, hunit, ← or_assoc]
  · simp [hf, hu, hr]
  · have hunit : 1#4 < unitField w ∨ unitField w = 1#4 := by bv_omega
    simp [hf, hunit, ← or_assoc]
  · split
    · simp [withoutArg_refuses, hf, hr, not_one_lt_of_ring ‹_›]
    · simp [ringOfUnit_eq_none.mp ‹_›]
  · split
    · simp [withoutArg_refuses, hf, hr, not_one_lt_of_ring ‹_›]
    · simp [ringOfUnit_eq_none.mp ‹_›]
  · have hgt : 3#4 < fnField w := by bv_omega
    simp [hgt]

theorem decodePump_refuses {w : Word} : (∃ e, decodePump w = .error e) ↔
    1#4 < fnField w ∨ 1#4 < unitField w ∨ rsvField w ≠ 0#4 ∨ argField w ≠ 0 := by
  unfold decodePump
  split_ifs with hr hf hf
  · simp [hr]
  · split
    · simp [withoutArg_refuses, hf, hr, not_one_lt_of_ring ‹_›]
    · simp [withoutArg_refuses, hf, hr, not_one_lt_of_ring ‹_›]
    · simp [ringOfUnit_eq_none.mp ‹_›]
  · split
    · simp [withoutArg_refuses, hf, hr, not_one_lt_of_ring ‹_›]
    · simp [withoutArg_refuses, hf, hr, not_one_lt_of_ring ‹_›]
    · simp [ringOfUnit_eq_none.mp ‹_›]
  · have hgt : 1#4 < fnField w := by bv_omega
    simp [hgt]

theorem decodeEvent_refuses {w : Word} : (∃ e, decodeEvent w = .error e) ↔
    3#4 < fnField w ∨ (1#4 < unitField w ∧ fnField w ≠ 3#4) ∨ (rsvField w ≠ 0#4 ∧ fnField w ≠ 3#4) ∨
      (argField w ≠ 0 ∧ fnField w = 2#4) ∨ (fnField w = 0#4 ∧ unitField w ≠ 0#4) := by
  unfold decodeEvent
  split_ifs with hf hr hf hu hf hf
  · simp [hf]
  · simp [hr, hf]
  · simp [hf, hu, hr]
  · simp [hf, hu]
  · split
    · simp [hf, hr, not_one_lt_of_ring ‹_›]
    · simp [hf, hr, not_one_lt_of_ring ‹_›]
    · simp [hf, ringOfUnit_eq_none.mp ‹_›]
  · split
    · simp [withoutArg_refuses, hf, hr, not_one_lt_of_ring ‹_›]
    · simp [withoutArg_refuses, hf, hr, not_one_lt_of_ring ‹_›]
    · simp [hf, ringOfUnit_eq_none.mp ‹_›]
  · have hgt : 3#4 < fnField w := by bv_omega
    simp [hgt]

theorem decodeSystem_refuses {w : Word} : (∃ e, decodeSystem w = .error e) ↔
    fnField w ≠ 0#4 ∨ 1#4 < unitField w ∨ rsvField w ≠ 0#4 ∨ unitField w ≠ 0#4 ∨ 256 ≤ argField w := by
  unfold decodeSystem
  split_ifs with hr hf hu ha
  · simp [hr]
  · simp [hf]
  · simp [hu]
  · rw [not_not] at hr hf hu
    simp [hr, hf, hu, ha]
  · simp [Nat.not_lt.mp ha]

theorem class_cases (c : BitVec 4) : (c = 0#4 ∨ 5#4 ≤ c) ∨ c = 1#4 ∨ c = 2#4 ∨ c = 3#4 ∨ c = 4#4 := by
  revert c
  decide

theorem decode_of_unusedClass {w : Word} (h : clsField w = 0#4 ∨ 5#4 ≤ clsField w) : decode w = .error .cls := by
  have h1 : clsField w ≠ 1#4 := by bv_omega
  have h2 : clsField w ≠ 2#4 := by bv_omega
  have h3 : clsField w ≠ 3#4 := by bv_omega
  have h4 : clsField w ≠ 4#4 := by bv_omega
  simp [decode, h1, h2, h3, h4]

theorem argBits_ne_zero {w : Word} : w.extractLsb' 0 16 ≠ 0#16 ↔ argField w ≠ 0 := by
  rw [ne_eq, ← BitVec.toNat_inj]
  rfl

theorem argBits_high_ne_zero {w : Word} : (w.extractLsb' 0 16).extractLsb' 8 8 ≠ 0#8 ↔ 256 ≤ argField w := by
  have hlt := argField_lt w
  rw [ne_eq, ← BitVec.toNat_inj, BitVec.extractLsb'_toNat, Nat.shiftRight_eq_div_pow]
  change ¬argField w / 2 ^ 8 % 2 ^ 8 = 0 ↔ _
  omega

/-- Settles O5: with the class known, the clauses that are left are those of its part of the decoder. -/
theorem listedEncodingsAreIllegal : Obligations.ListedEncodingsAreIllegal := by
  intro w
  simp only [argBits_ne_zero, argBits_high_ne_zero, show w.extractLsb' 28 4 = clsField w from rfl,
    show w.extractLsb' 24 4 = fnField w from rfl, show w.extractLsb' 20 4 = unitField w from rfl,
    show w.extractLsb' 16 4 = rsvField w from rfl]
  rcases class_cases (clsField w) with h | h | h | h | h
  · simp [h, decode_of_unusedClass h]
  · rw [decode_of_ring h, decodeRing_refuses]
    simp [h]
  · rw [decode_of_pump h, decodePump_refuses]
    simp [h]
  · rw [decode_of_event h, decodeEvent_refuses]
    simp [h]
  · rw [decode_of_system h, decodeSystem_refuses]
    simp [h]

end Sys2Proof
end

section
/-! The acceptance of commands (30_encoding.md R98, R109): an instruction goes on unless it is a `RB_PUT` with a payload of another
length, so a state that meets the invariant has a next one or meets that refusal. -/

namespace Sys2Proof.Machine

/-! ### One instruction -/

/-- Settles O10: the payload check comes before the acceptance test (log 13). -/
theorem malformedPayloadIsRefused : Obligations.MalformedPayloadIsRefused := by
  intro s len hne
  have hfit : payloadFits (.rbPut len) s.payload = false := decide_eq_false hne
  simp only [exec, execRbPut, hfit, Bool.false_eq_true, if_false]

theorem exec_of_payloadFits {s : State} {i : Instr} (h : payloadFits i s.payload = true) : ∃ t, exec i s = .next t := by
  cases i with
  | rbPut len =>
    rw [exec, execRbPut, if_pos h]
    exact ⟨_, rfl⟩
  | _ => exact ⟨_, rfl⟩

/-- A refusal is that of a malformed `RB_PUT` (R98). -/
theorem exec_refused {s : State} {i : Instr} {r : Refusal} (h : exec i s = .refused r) :
    ∃ len, i = .rbPut len ∧ s.payload.length ≠ len ∧ r = .malformedPayload len s.payload.length := by
  have hnot : ¬payloadFits i s.payload = true := fun hfit => by
    obtain ⟨t, ht⟩ := exec_of_payloadFits hfit
    nomatch ht.symm.trans h
  obtain ⟨len, rfl, hne⟩ : ∃ len, i = .rbPut len ∧ s.payload.length ≠ len := by
    simpa only [payloadFits_iff, not_forall, exists_prop] using hnot
  rw [malformedPayloadIsRefused s len hne] at h
  exact ⟨len, rfl, hne, (Host.Outcome.refused.inj h).symm⟩

/-- An accepted command leaves the port (R110). -/
theorem ExecTo.presented_eq_none {s t : State} {i : Instr} (h : ExecTo s i t) (hside : i.side = .command)
    (ha : s.accepts i = true) : t.presented = none := by
  cases h with
  | held hn => nomatch ha.symm.trans hn
  | tickIgnored | tickRecorded | tickDelivers | inDoneIgnored | inDoneDelivers | inErrorIgnored | inErrorTaken
  | outDoneIgnored | outDoneReleases | outDoneFetches | outErrorIgnored | outErrorReleases | outErrorTaken
  | inDataIgnored | inDataStaged => nomatch hside
  | _ => rfl

/-- What R109 says of one command, whose row of the table is `condition`. -/
theorem exec_command_iff {s : State} {i : Instr} {condition : Prop} (hside : i.side = .command)
    (hfit : payloadFits i s.payload = true) (hc : s.accepts i = true ↔ condition) :
    (condition → ∃ t, exec i s = .next t ∧ t.presented = none) ∧ (¬condition → exec i s = .next s) := by
  constructor
  · intro h
    obtain ⟨t, ht⟩ := exec_of_payloadFits hfit
    exact ⟨t, ht, (exec_to ht).presented_eq_none hside (hc.mpr h)⟩
  · intro h
    exact exec_of_not_accepts (eq_false_of_ne_true fun ha => h (hc.mp ha)) hfit

theorem payloadFits_of_event {i : Instr} (h : i.side = .event) (data : List Byte) : payloadFits i data = true :=
  payloadFits_iff.mpr fun _ hi => nomatch hi ▸ h

/-! ### One step -/

theorem step_of_illegalCommand {s : State} {ok : Bool} {rest : List Turn} {c : Command} {e : Illegal}
    (ht : s.turns = .command ok :: rest) (hp : s.present.presented = some c) (hd : decodeOn .command c.word = .error e) :
    step s = .next { s.atCommand ok rest with presented := none, trace := s.trace ++ [.result .illegal 0] } := by
  have hnone : s.nextInstr = none := by simp [State.nextInstr, ht, hp, hd, Except.toOption]
  exact (StepTo.illegalCommand ht hp hd).step_eq fun _ hn => nomatch hnone.symm.trans hn

theorem step_of_illegalEvent {s : State} {w : Word} {rest : List Turn} {e : Illegal} (ht : s.turns = .event w :: rest)
    (hd : decodeOn .event w = .error e) : step s = .next { s with turns := rest } := by
  have hnone : s.nextInstr = none := by simp [State.nextInstr, ht, hd, Except.toOption]
  exact (StepTo.illegalEvent ht hd).step_eq fun _ hn => nomatch hnone.symm.trans hn

theorem step_of_nothingPresented {s : State} {ok : Bool} {rest : List Turn} (ht : s.turns = .command ok :: rest)
    (hp : s.present.presented = none) : step s = .next (s.atCommand ok rest) := by
  have hnone : s.nextInstr = none := by simp [State.nextInstr, ht, hp]
  exact (StepTo.nothingPresented ht hp).step_eq fun _ hn => nomatch hnone.symm.trans hn

/-- The command a turn of the port looks at: the one presented, or with none the host's next (R110). -/
theorem State.present_presented_of_ready {s : State} {c : Command}
    (h : s.presented = some c ∨ s.presented = none ∧ ∃ later, s.host = c :: later) : s.present.presented = some c := by
  rcases h with hp | ⟨hp, later, hh⟩
  · rw [State.present_of_presented hp, hp]
  · rw [State.present_of_host hp hh]

/-- Settles O9: each command's row is `State.accepts` of it, an illegal word is consumed whoever presented it. -/
theorem commandsAreAcceptedExactlyWhen : Obligations.CommandsAreAcceptedExactlyWhen := by
  intro s
  refine ⟨fun len hlen => exec_command_iff rfl (decide_eq_true hlen) ?_, fun len => exec_command_iff rfl rfl ?_,
    fun r => exec_command_iff rfl rfl ?_, exec_command_iff rfl rfl ?_, exec_command_iff rfl rfl ?_,
    exec_command_iff rfl rfl ?_, exec_command_iff rfl rfl ?_, exec_command_iff rfl rfl ?_,
    exec_command_iff rfl rfl ?_, fun idx => exec_command_iff rfl rfl ?_,
    fun i hside => exec_of_payloadFits (payloadFits_of_event hside _),
    fun ok rest c e ht hc hd => ⟨_, step_of_illegalCommand ht (State.present_presented_of_ready hc) hd, rfl⟩,
    fun w rest e ht hd => ⟨_, step_of_illegalEvent ht hd⟩⟩
  all_goals simp [State.accepts]

theorem takeFetchEnd_ne_refused (s : State) (r : Refusal) : takeFetchEnd s ≠ .refused r := by
  unfold takeFetchEnd
  split
  · split
    · exact nofun
    · exact nofun
  · exact nofun

/-- The one refusal a step can meet: the next operation is a malformed `RB_PUT` (R98). -/
theorem step_refused {s : State} {r : Refusal} (h : step s = .refused r) :
    ∃ len n, s.nextInstr = some (.rbPut len) ∧ n ≠ len ∧ r = .malformedPayload len n := by
  rcases ht : s.turns with _ | ⟨u, rest⟩
  · simp [step, ht] at h
  · cases u with
    | command ok =>
      rcases hp : s.present.presented with _ | c
      · nomatch (step_of_nothingPresented ht hp).symm.trans h
      · rcases hd : decodeOn .command c.word with e | i
        · nomatch (step_of_illegalCommand ht hp hd).symm.trans h
        · rw [step_of_command ht hp hd] at h
          obtain ⟨len, rfl, hne, hr⟩ := exec_refused h
          exact ⟨len, _, nextInstr_eq_some.mpr (.inl ⟨_, _, _, ht, hp, hd⟩), hne, hr⟩
    | event w =>
      rcases hd : decodeOn .event w with e | i
      · nomatch (step_of_illegalEvent ht hd).symm.trans h
      · rw [step_of_event ht hd] at h
        obtain ⟨len, rfl, hne, hr⟩ := exec_refused h
        exact ⟨len, _, nextInstr_eq_some.mpr (.inr ⟨_, _, ht, hd⟩), hne, hr⟩
    | fetchEnd ok =>
      rw [step_of_fetchEnd ht] at h
      exact absurd h (takeFetchEnd_ne_refused _ r)
    | putEnd | getEnd | drainEnd | reset => nomatch (step_of_turn ht).symm.trans h

/-- Settles O16: the invariant bounds a fetch by the chunk, so no step faults, and the one refusal is that of R98. -/
theorem invariantStatesNeverFault : Obligations.InvariantStatesNeverFault := by
  intro s hI
  rcases hs : step s with t | f | r
  · exact .inl ⟨t, rfl⟩
  · obtain ⟨-, hb, hlt, -⟩ := (faultsAreChunksBeyondTheStage s f).mp hs
    exact absurd (hI.fetch_le hb) (Nat.not_le.mpr hlt)
  · obtain ⟨len, n, hn, hne, rfl⟩ := step_refused hs
    exact .inr ⟨len, n, hn, hne, rfl⟩

end Sys2Proof.Machine
end

section
/-! The pseudo-operations (30_encoding.md R104, R106) as runs: each command the host presents takes one step, and a run is its steps
one after the other. -/

namespace Sys2Proof.Machine

/-! ### The host's commands -/

theorem run_succ {s t : State} (h : step s = .next t) (k : Nat) :
    Host.Core.run Sys2Proof.core (k + 1) s = Host.Core.run Sys2Proof.core k t := by
  have hcore : Host.Core.step Sys2Proof.core s = .next t := h
  simp only [Host.Core.run, hcore]

theorem run_three {s t u v : State} (h1 : step s = .next t) (h2 : step t = .next u) (h3 : step u = .next v) :
    Host.Core.run Sys2Proof.core 3 s = .next v := by
  rw [run_succ h1, run_succ h2, run_succ h3]
  rfl

/-- A turn of the command port with nothing presented runs the host's next command, an encoded instruction (R110). -/
theorem step_of_hostCommand {s t : State} {ok : Bool} {rest : List Turn} {i : Instr} {data : List Byte}
    {later : List Command} (ht : s.turns = .command ok :: rest) (hp : s.presented = none)
    (hh : s.host = ⟨encode i, data⟩ :: later) (hi : i.wf = true) (hside : i.side = .command)
    (hfit : payloadFits i data = true)
    (he : ExecTo { s with turns := rest, answer := ok, presented := some ⟨encode i, data⟩, host := later } i t) :
    step s = .next t := by
  have hd : decodeOn .command (encode i) = .ok i := decodeOn_eq_ok.mpr ⟨decodeAfterEncodeIsIdentity i hi, hside⟩
  rw [(stepRunsThePresentedCommand s ok rest ⟨encode i, data⟩ i ht hd).2 later hp hh]
  exact he.exec_eq hfit

/-! ### `WRITE` -/

/-- A put as a whole, its begin and its completion: the fill grows by what fits (R130). -/
theorem fill_put {N : Nat} {q : RingState} (h : RingInv N q) (src : List Byte) (len : Nat) :
    ((q.putBegin N src len).putEnd N).fill N = q.fill N + min len (q.free N) := by
  have hfree : q.free N = N - q.fill N := rfl
  have hput := h.put_fits
  refine fill_putEnd (q := q.putBegin N src len) h.wr_lt h.rd_lt ?_
  simp only [fill_putBegin, RingState.putBegin_pp]
  omega

/-- The contents grow by the first bytes of the payload (R131). -/
theorem contents_put {s : State} {r : Ring} (h : RingInv (s.cap r) (s.ring r)) (data : List Byte) :
    ((s.putBegin r data data.length).putEnd r).contents r = s.contents r ++ data.take ((s.ring r).free (s.cap r)) := by
  have hN : 0 < s.cap r := by
    have := h.wr_lt
    omega
  have hcfg : (s.putBegin r data data.length).cfg = s.cfg := by cases r <;> rfl
  have hepoch : (s.putBegin r data data.length).epoch = s.epoch := by cases r <;> rfl
  have hring : (s.putBegin r data data.length).ring r = (s.ring r).putBegin (s.cap r) data data.length :=
    State.ring_setRing_same ..
  have hinv : RingInv ((s.putBegin r data data.length).cap r) ((s.putBegin r data data.length).ring r) := by
    rw [cap_congr hcfg, hring]
    exact h.putBegin hN rfl
  have hbusy : ((s.putBegin r data data.length).ring r).pp.busy = true := by rw [hring, RingState.putBegin_pp]
  calc ((s.putBegin r data data.length).putEnd r).contents r
      = (s.putBegin r data data.length).contents r ++ (s.putBegin r data data.length).pendingBytes r :=
        contents_putEnd hinv hbusy (State.ring_setRing_same ..) (by cases r <;> rfl) (by cases r <;> rfl)
    _ = s.contents r ++ data.take ((s.ring r).free (s.cap r)) := by
        rw [contents_putBegin h hring hcfg hepoch, pendingBytes_putBegin rfl hring hcfg]

theorem step_of_putEnd {s : State} {rest : List Turn} (ht : s.turns = .putEnd :: rest) (hb : s.tx.pp.busy = true) :
    step s = .next { s with
      turns := rest, tx := s.tx.putEnd s.cfg.nTx.val, trace := s.trace ++ [.result .ok (countWord s.tx.pp.n)] } := by
  have hnone : s.nextInstr = none := by simp [State.nextInstr, ht]
  exact (StepTo.putEnd ht hb).step_eq fun _ hn => nomatch hnone.symm.trans hn

/-- Settles O55: the put begins, completes, and the kick finds the fill it left. -/
theorem writePutsThenKicks : Obligations.WritePutsThenKicks := by
  intro s data later rest hI hp hh ht hlen hpp hcp hidle n
  have h1 := step_of_hostCommand ht hp hh (decide_eq_true hlen) rfl (decide_eq_true rfl) (.rbPut rfl hpp)
  refine ⟨_, run_three h1 (step_of_putEnd rfl rfl)
    (step_of_hostCommand rfl rfl rfl rfl rfl rfl (.txpKickIdle hcp hidle)), List.append_assoc .., ?_, ?_, rfl, rfl⟩
  · calc _ = State.contents ((s.putBegin .tx data data.length).putEnd .tx) .tx := contents_congr rfl rfl rfl rfl rfl
      _ = s.contents .tx ++ data.take (s.tx.free s.cfg.nTx.val) := contents_put hI.tx data
      _ = s.contents .tx ++ data.take n := by rw [List.take_eq_take_min, Nat.min_comm]
  · exact congrArg (fun fill => PortCtx.mk true (min s.cfg.txChunk.val fill)) (fill_put hI.tx data data.length)

/-! ### `ATTACH` -/

theorem contents_eq_nil {s : State} {r : Ring} (h : (s.ring r).wr = (s.ring r).rd) : s.contents r = [] := by
  have hfill : (s.ring r).fill (s.cap r) = 0 := by simp [RingState.fill, modSub, h]
  rw [State.contents, hfill, List.range_zero, List.map_nil]

/-- `RXP_START` of an idle pump: the transport's answer decides (R151). -/
theorem ExecTo.rxpStartIdle {s : State} (hb : s.rx.pp.busy = false) (hs : s.rxpState = .idle) :
    ExecTo s .rxpStart { s with
      presented := none, rxPrev := 0, rxDone := false, rxpState := if s.answer then .receivePosted else .idle
      trace := s.trace ++
        [.submit (.receive s.cfg.rxStage.val), .result (if s.answer then .ok else .notAttached) 0] } := by
  cases ha : s.answer with
  | true => simpa [ha] using rxpStartArmed hb hs ha
  | false => simpa [ha, hs] using rxpStartRefused hb hs ha

/-- Settles O56: the two resets find idle ports, and with its own idle `RXP_START` submits. -/
theorem attachEmptiesRingsAndArms : Obligations.AttachEmptiesRingsAndArms := by
  intro s ok later rest hp hh ht hrp hrc htp htc hidle
  have h1 := step_of_hostCommand ht hp hh rfl rfl rfl (.rbResetRx hrp hrc)
  refine ⟨_, run_three h1 (step_of_hostCommand rfl rfl rfl rfl rfl rfl (.rbResetTx htp htc))
    (step_of_hostCommand rfl rfl rfl rfl rfl rfl (.rxpStartIdle hrp hidle)), ?_, contents_eq_nil rfl,
    contents_eq_nil rfl, rfl, rfl, rfl⟩
  simp

end Sys2Proof.Machine
end

section
/-! The ring operations (40_ringbuffer.md R121 to R129, R133, R134): `RB_PUT`, `RB_GET`, `RB_LEN`, `RB_RESET` and their
completions as next states, the arithmetic of the counters, and what an operation in progress returns when the other side
moves first. -/

namespace Sys2Proof.Machine

/-! ### Completion steps -/

/-- A completion step runs no instruction. -/
theorem nextInstr_eq_none_of_completion {s : State} {u : Turn} {c : Completion} (hu : s.turns.head? = some u)
    (hc : u.completion = some c) : s.nextInstr = none := by
  obtain ⟨rest, ht⟩ := List.head?_eq_some_iff.mp hu
  cases u with
  | command | event | reset => nomatch hc
  | putEnd | getEnd | drainEnd | fetchEnd => simp [State.nextInstr, ht]

/-- So the guards of its case in `StepTo` are all it needs to go on: there is no payload to refuse. -/
theorem StepTo.step_eq_of_completion {s t : State} (h : StepTo s t) {u : Turn} {c : Completion}
    (hu : s.turns.head? = some u) (hc : u.completion = some c) : step s = .next t :=
  h.step_eq fun _ hn => nomatch (nextInstr_eq_none_of_completion hu hc).symm.trans hn

/-! ### `RB_PUT` -/

/-- R122: the payload's first bytes stand at the free positions from `wr` on, every other byte is as before. -/
theorem memRead_putBegin_at {s t : State} {r : Ring} {src : List Byte} {len k : Nat} {b : Byte}
    (ht : t.ring r = (s.ring r).putBegin (s.cap r) src len) (hk : k < min len ((s.ring r).free (s.cap r)))
    (hb : src[k]? = some b) : t.memRead (spaceOf r) (pos (s.cap r) (s.ring r).wr k) = b := by
  obtain ⟨hlt, rfl⟩ := List.getElem?_eq_some_iff.mp hb
  have hread := ht ▸ read_putBegin_at hk hlt
  cases r
  · exact State.memRead_of_read (sp := .rxMem) hread
  · exact State.memRead_of_read (sp := .txMem) hread

theorem memRead_putBegin_other {s t : State} {r : Ring} {src : List Byte} {len a : Nat}
    (ht : t.ring r = (s.ring r).putBegin (s.cap r) src len) (he : t.epoch = s.epoch)
    (ha : ∀ k, k < min len ((s.ring r).free (s.cap r)) → a ≠ pos (s.cap r) (s.ring r).wr k) :
    t.memRead (spaceOf r) a = s.memRead (spaceOf r) a := by
  have hread : (t.ring r).mem.read a = (s.ring r).mem.read a := ht ▸ read_putBegin_other src len ha
  cases r <;> simp only [State.memRead, State.space, spaceOf, State.ring, he] at hread ⊢ <;> rw [hread]

/-- Settles O26, by the two cases of the begin step and the two of the completion. -/
theorem rbPutStoresWhatFits : Obligations.RbPutStoresWhatFits := by
  refine ⟨fun s len hlen => ⟨fun hb => ?_, fun hb => ?_⟩, fun s rest ht => ⟨fun hb => ?_, step_of_putEnd ht⟩⟩
  · exact exec_of_not_accepts (by simp [State.accepts, hb]) (decide_eq_true hlen)
  · exact ⟨_, (ExecTo.rbPut hlen hb).exec_eq (decide_eq_true hlen), rfl,
      fun _ _ => memRead_putBegin_at (r := .tx) rfl, fun _ => memRead_putBegin_other (r := .tx) rfl rfl, rfl⟩
  · exact (StepTo.putEndPasses ht hb).step_eq_of_completion (congrArg List.head? ht) rfl

/-- Settles O31: a put whose begin finds too little room takes the free bytes, and `contents_put` says where they go. -/
theorem backpressureKeepsBufferedBytes : Obligations.BackpressureKeepsBufferedBytes := by
  intro s t len hI hlen hb hfree h
  have hn : min len (s.tx.free s.cfg.nTx.val) = s.tx.free s.cfg.nTx.val := Nat.min_eq_right (Nat.le_of_lt hfree)
  cases exec_to h with
  | held ha => simp [State.accepts, hb] at ha
  | rbPut =>
    refine ⟨hn, Nat.lt_of_le_of_lt (Nat.min_le_right _ _) hfree, contents_putBegin hI.tx rfl rfl rfl,
      fun rest u ht hu => ?_⟩
    obtain rfl := Host.Outcome.next.inj ((step_of_putEnd ht rfl).symm.trans hu)
    subst hlen
    refine ⟨(contents_congr rfl rfl rfl rfl rfl).trans (contents_put (r := .tx) hI.tx s.payload), ?_⟩
    simp only [RingState.putBegin_pp, hn]
    rfl

/-! ### `RB_GET`, `RB_LEN`, `RB_RESET` -/

/-- Settles O27: the bytes are those the model gathers from `rd` on. -/
theorem rbGetReturnsTheOldestBytes : Obligations.RbGetReturnsTheOldestBytes := by
  refine ⟨fun s len => ⟨fun hb => ?_, fun hb => (ExecTo.rbGet hb).exec_eq rfl⟩,
    fun s rest ht => ⟨fun hb => ?_, fun hb => ?_⟩⟩
  · exact exec_of_not_accepts (by simp [State.accepts, hb]) rfl
  · exact (StepTo.getEndPasses ht hb).step_eq_of_completion (congrArg List.head? ht) rfl
  · refine ⟨s.gotBytes .rx, gotBytes_length s .rx, fun k b hk => ?_,
      (StepTo.getEnd ht hb).step_eq_of_completion (congrArg List.head? ht) rfl⟩
    obtain ⟨hlt, rfl⟩ := List.getElem?_eq_some_iff.mp hk
    simp [State.gotBytes, pos]

theorem RingInv.fill_le {N : Nat} {q : RingState} (h : RingInv N q) : q.fill N ≤ N :=
  Nat.le_trans (Nat.le_add_right _ _) h.put_fits

/-- Settles O28: `RB_LEN` is accepted in every state and answers with `fill`, which R127 writes out. -/
theorem rbLenReturnsTheFill : Obligations.RbLenReturnsTheFill :=
  ⟨fun _ => ⟨ExecTo.rbLen.exec_eq rfl, ExecTo.rbLen.exec_eq rfl⟩, fun _ hI => ⟨hI.rx.fill_le, hI.tx.fill_le⟩⟩

/-- Settles O29: either busy port holds the command, with both idle it is accepted. -/
theorem rbResetEmptiesOneRing : Obligations.RbResetEmptiesOneRing := by
  refine fun s => ⟨fun hb => exec_of_not_accepts ?_ rfl, fun hb => exec_of_not_accepts ?_ rfl,
    fun hp hc => (ExecTo.rbResetRx hp hc).exec_eq rfl, fun hp hc => (ExecTo.rbResetTx hp hc).exec_eq rfl⟩
  all_goals rcases hb with hp | hc <;> simp [State.accepts, *]

/-! ### The counters -/

/-- Settles O30: R129 a, b and d are `advance_eq`, `modSub_eq` and `pos_eq`; the rest bounds by the capacity. -/
theorem counterArithmeticWithoutRemainders : Obligations.CounterArithmeticWithoutRemainders := by
  refine ⟨fun N idx n hi hn => ⟨advance_eq hi hn, by omega⟩, fun N q hw hr => ?_, fun N q h => ?_, fun N idx hi => ?_,
    fun N len q h hN => ?_, fun q k h => ?_, fun v => ⟨Nat.min_le_right _ _, Nat.min_eq_left⟩⟩
  · rw [RingState.fill, modSub_eq hw hr]
    split <;> omega
  · exact ⟨h.fill_le, Nat.sub_add_cancel h.fill_le⟩
  · rw [pos_eq hi (by omega), Nat.add_zero, if_pos hi]
  · have hfill := h.fill_le
    have hfree : q.free N ≤ N := Nat.sub_le _ _
    omega
  · exact ⟨Nat.le_of_lt_succ h.wr_lt, Nat.le_of_lt_succ h.rd_lt, h.fill_le, Nat.mod_one _⟩

/-! ### Overlapping operations -/

/-- A put and a get that are in progress at once both complete, each by the count its begin step fixed (R134). -/
theorem fill_putEnd_getEnd {N : Nat} {q : RingState} (h : RingInv N q) (hp : q.pp.busy = true) (hc : q.cp.busy = true) :
    ((q.putEnd N).getEnd N).fill N = q.fill N + q.pp.n - q.cp.n := by
  have hput := h.put_fits
  have hget := h.get_fits
  simp only [PortCtx.pending, hp, hc, if_true] at hput hget
  have hN : 0 < N := by have := h.wr_lt; omega
  have hended := h.putEnd hN hp
  have hfill := fill_putEnd h.wr_lt h.rd_lt hput
  rw [fill_getEnd hended.wr_lt hended.rd_lt hended.fill_le, hfill, RingState.putEnd_cp]
  rw [hfill, RingState.putEnd_cp]
  omega

/-- R134 for a put: the space a get frees before the put completes is not taken. -/
theorem free_putBegin_getEnd_putEnd {N : Nat} {q : RingState} (h : RingInv N q) (hc : q.cp.busy = true)
    {src : List Byte} {len : Nat} (hs : src.length = len) :
    (((q.putBegin N src len).getEnd N).putEnd N).free N = q.free N + q.cp.n - min len (q.free N) := by
  have hN : 0 < N := by have := h.wr_lt; omega
  have hfill : (((q.putBegin N src len).getEnd N).putEnd N).fill N = q.fill N + min len (q.free N) - q.cp.n :=
    fill_putEnd_getEnd (h.putBegin hN hs) rfl hc
  have hget := h.get_fits
  have hle := h.fill_le
  simp only [PortCtx.pending, hc, if_true] at hget
  simp only [RingState.free] at hfill ⊢
  omega

/-- R134 for a get: its bytes are those buffered at its begin, whatever has been appended since. -/
theorem gotBytes_of_getBegin {s t : State} {r : Ring} {len : Nat} (hm : (t.ring r).mem = (s.ring r).mem)
    (hr : (t.ring r).rd = (s.ring r).rd) (hn : (t.ring r).cp.n = min len ((s.ring r).fill (s.cap r)))
    (hc : t.cfg = s.cfg) (he : t.epoch = s.epoch) : t.gotBytes r = (s.contents r).take len := by
  simp only [State.gotBytes, State.contents, hn, hr, cap_congr hc, memRead_ring_congr hm he, ← List.map_take,
    List.take_range]

/-- A turn of the command port runs the presented command, of the port's side, if its payload fits. -/
theorem step_of_presented {s t : State} {ok : Bool} {rest : List Turn} {c : Command} {i : Instr}
    (ht : s.turns = .command ok :: rest) (hp : s.presented = some c) (hd : decode c.word = .ok i)
    (hside : i.side = .command) (hfit : payloadFits i c.data = true)
    (he : ExecTo { s with turns := rest, answer := ok } i t) : step s = .next t := by
  rw [(stepRunsThePresentedCommand s ok rest c i ht (decodeOn_eq_ok.mpr ⟨hd, hside⟩)).1 hp]
  refine he.exec_eq ?_
  simpa only [State.payload, hp] using hfit

/-- Settles O35: both runs are their three steps, and the completion returns the count fixed in the first. -/
theorem staleSnapshotGivesAShortCount : Obligations.StaleSnapshotGivesAShortCount := by
  constructor
  · intro s t c len ok rest hI hp hd hlen hpp hcp h0 ht hrun
    have hpay : s.payload.length = len := by simp [State.payload, hp, hlen]
    have hput := step_of_presented ht hp hd rfl (decide_eq_true hlen) (.rbPut hpay hpp)
    obtain rfl := Host.Outcome.next.inj ((run_three hput
      (StepTo.step_eq_of_completion (.fetchEnd rfl hcp (Nat.ne_of_gt h0) (hI.fetch_le hcp)) rfl rfl)
      (step_of_putEnd rfl rfl)).symm.trans hrun)
    exact ⟨List.getLast?_concat, free_putBegin_getEnd_putEnd hI.tx hcp hpay⟩
  · intro s t c len ok rest hI hp hd hcp hpp h0 ht hrun
    have hget := step_of_presented ht hp hd rfl rfl (.rbGet hcp)
    obtain rfl := Host.Outcome.next.inj ((run_three hget (StepTo.step_eq_of_completion (.drainEnd rfl hpp) rfl rfl)
      (StepTo.step_eq_of_completion (.getEnd rfl rfl) rfl rfl)).symm.trans hrun)
    have hgot : State.gotBytes { s with rx := (s.rx.getBegin s.cfg.nRx.val len).putEnd s.cfg.nRx.val } .rx =
      (s.contents .rx).take len := gotBytes_of_getBegin rfl rfl rfl rfl rfl
    exact ⟨List.getLast?_concat.trans (congrArg (fun data => some (Output.resultData .ok _ data)) hgot),
      fill_putEnd_getEnd (hI.rx.getBegin len) hpp rfl⟩

end Sys2Proof.Machine
end

section
/-! A ring as a queue over steps and runs (40_ringbuffer.md R131, R132; 41_rxpump.md R162). One law says what every step but a
reset does to the contents: what was buffered and what the step commits are what the step releases and what is buffered
after it. -/

namespace Sys2Proof.Machine

/-! ### What a step commits and what it releases -/

/-- What the next step takes from a ring: at the turn of its consumer's completion the pending oldest bytes (R126). -/
def State.releasedNext (s : State) (r : Ring) : List Byte :=
  match s.turns with
  | u :: _ => if u.releases r then (s.contents r).take (s.ring r).cp.pending else []
  | [] => []

/-- The next step resets the ring (R51, R260). -/
def State.resetsNext (s : State) (r : Ring) : Prop :=
  s.turns.head? = some .reset ∨ s.nextInstr = some (.rbReset r)

section
variable {s : State} {r : Ring} {u : Turn} {rest : List Turn}

/-- No turn both commits to a ring and releases from it: its producer and its consumer are different agents (R29). -/
theorem Turn.releases_eq_false_of_commits (h : u.commits r = true) : u.releases r = false := by
  cases r with
  | rx =>
    obtain ⟨ok, rfl⟩ := Turn.eq_drainEnd_of_commits h
    rfl
  | tx =>
    obtain rfl := Turn.eq_putEnd_of_commits h
    rfl

theorem Turn.commits_eq_false_of_releases (h : u.releases r = true) : u.commits r = false :=
  eq_false_of_ne_true fun hc => nomatch (Turn.releases_eq_false_of_commits hc).symm.trans h

theorem committedNext_of_commits (hu : s.turns.head? = some u) (hc : u.commits r = true) :
    s.committedNext r = s.pendingBytes r := by
  obtain ⟨rest, ht⟩ := List.head?_eq_some_iff.mp hu
  simp [State.committedNext, ht, hc]

theorem committedNext_of_releases (hu : s.turns.head? = some u) (hd : u.releases r = true) : s.committedNext r = [] := by
  obtain ⟨rest, ht⟩ := List.head?_eq_some_iff.mp hu
  simp [State.committedNext, ht, Turn.commits_eq_false_of_releases hd]

theorem releasedNext_of_releases (hu : s.turns.head? = some u) (hd : u.releases r = true) :
    s.releasedNext r = (s.contents r).take (s.ring r).cp.pending := by
  obtain ⟨rest, ht⟩ := List.head?_eq_some_iff.mp hu
  simp [State.releasedNext, ht, hd]

theorem releasedNext_of_commits (hu : s.turns.head? = some u) (hc : u.commits r = true) : s.releasedNext r = [] := by
  obtain ⟨rest, ht⟩ := List.head?_eq_some_iff.mp hu
  simp [State.releasedNext, ht, Turn.releases_eq_false_of_commits hc]

/-- With no put in progress the turn of the producer's completion commits nothing (log 7). -/
theorem committedNext_eq_nil (h : ∀ u, s.turns.head? = some u → u.commits r = true → (s.ring r).pp.busy = false) :
    s.committedNext r = [] := by
  rcases ht : s.turns with _ | ⟨u, rest⟩
  · simp [State.committedNext, ht]
  · have hu : s.turns.head? = some u := congrArg List.head? ht
    cases hc : u.commits r with
    | false => simp [State.committedNext, ht, hc]
    | true => rw [committedNext_of_commits hu hc, pendingBytes_idle (h u hu hc)]

theorem releasedNext_eq_nil (h : ∀ u, s.turns.head? = some u → u.releases r = true → (s.ring r).cp.busy = false) :
    s.releasedNext r = [] := by
  rcases ht : s.turns with _ | ⟨u, rest⟩
  · simp [State.releasedNext, ht]
  · have hu : s.turns.head? = some u := congrArg List.head? ht
    cases hd : u.releases r with
    | false => simp [State.releasedNext, ht, hd]
    | true => simp [releasedNext_of_releases hu hd, PortCtx.pending, h u hu hd]

/-- A completion step resets nothing. -/
theorem not_resetsNext_of_completion {c : Completion} (hu : s.turns.head? = some u) (hc : u.completion = some c) :
    ¬s.resetsNext r := by
  rintro (hreset | hring)
  · obtain rfl := Option.some.inj (hu.symm.trans hreset)
    nomatch hc
  · nomatch (nextInstr_eq_none_of_completion hu hc).symm.trans hring

theorem ne_rbReset_of_command {ok : Bool} {c : Command} {i : Instr} (hr : ¬s.resetsNext r)
    (ht : s.turns = .command ok :: rest) (hp : s.present.presented = some c) (hd : decodeOn .command c.word = .ok i) :
    i ≠ .rbReset r := fun hi => hr (.inr (nextInstr_eq_some.mpr (.inl ⟨_, _, _, ht, hp, hi ▸ hd⟩)))

theorem ne_rbReset_of_event {w : Word} {i : Instr} (hr : ¬s.resetsNext r)
    (ht : s.turns = .event w :: rest) (hd : decodeOn .event w = .ok i) : i ≠ .rbReset r :=
  fun hi => hr (.inr (nextInstr_eq_some.mpr (.inr ⟨_, _, ht, hi ▸ hd⟩)))

end

/-! ### The instructions

No instruction but `RB_RESET r` changes what ring `r` buffers: the begin step of a put stores into free positions, and needs
the producer port idle (R122, R132). -/

/-- A ring's contents, and the bytes of a put in progress, stand in `t` as they do in `s`. -/
def State.SameQueue (s t : State) (r : Ring) : Prop :=
  t.contents r = s.contents r ∧ ((s.ring r).pp.busy = true → t.pendingBytes r = s.pendingBytes r)

section
variable {s t : State} {r : Ring}

theorem State.SameQueue.of_fields (hm : (t.ring r).mem = (s.ring r).mem) (hw : (t.ring r).wr = (s.ring r).wr)
    (hr : (t.ring r).rd = (s.ring r).rd) (hp : (t.ring r).pp = (s.ring r).pp) (hc : t.cfg = s.cfg)
    (he : t.epoch = s.epoch) : s.SameQueue t r :=
  ⟨contents_congr hm hw hr hc he, fun _ => pendingBytes_congr hm hw hp hc he⟩

theorem State.SameQueue.of_putBegin {src : List Byte} {len : Nat} (h : RingInv (s.cap r) (s.ring r))
    (hb : (s.ring r).pp.busy = false) (ht : t.ring r = (s.ring r).putBegin (s.cap r) src len) (hc : t.cfg = s.cfg)
    (he : t.epoch = s.epoch) : s.SameQueue t r :=
  ⟨contents_putBegin h ht hc he, fun hbusy => nomatch hb.symm.trans hbusy⟩

theorem ExecTo.sameQueue {i : Instr} (h : ExecTo s i t) (hI : RingInv (s.cap r) (s.ring r)) (hi : i ≠ .rbReset r) :
    s.SameQueue t r := by
  cases h with
  | rbResetRx =>
    cases r with
    | rx => exact absurd rfl hi
    | tx => exact .of_fields rfl rfl rfl rfl rfl rfl
  | rbResetTx =>
    cases r with
    | rx => exact .of_fields rfl rfl rfl rfl rfl rfl
    | tx => exact absurd rfl hi
  | rbPut _ hb =>
    cases r with
    | rx => exact .of_fields rfl rfl rfl rfl rfl rfl
    | tx => exact .of_putBegin hI hb rfl rfl rfl
  | tickDelivers hb | inDoneDelivers hb =>
    cases r with
    | rx => exact .of_putBegin hI hb rfl rfl rfl
    | tx => exact .of_fields rfl rfl rfl rfl rfl rfl
  | _ => cases r <;> exact .of_fields rfl rfl rfl rfl rfl rfl

/-! ### The steps -/

theorem queue_law_of_same (hc : ∀ u, s.turns.head? = some u → u.commits r = true → (s.ring r).pp.busy = false)
    (hd : ∀ u, s.turns.head? = some u → u.releases r = true → (s.ring r).cp.busy = false)
    (h : t.contents r = s.contents r) : s.contents r ++ s.committedNext r = s.releasedNext r ++ t.contents r := by
  rw [committedNext_eq_nil hc, releasedNext_eq_nil hd, h, List.append_nil, List.nil_append]

theorem queue_law_of_other {u : Turn} {rest : List Turn} (ht : s.turns = u :: rest) (hc : u.commits r = false)
    (hd : u.releases r = false) (h : t.contents r = s.contents r) :
    s.contents r ++ s.committedNext r = s.releasedNext r ++ t.contents r :=
  queue_law_of_same (by simp [ht, hc]) (by simp [ht, hd]) h

theorem queue_law_of_commits {u : Turn} (hu : s.turns.head? = some u) (hc : u.commits r = true)
    (h : t.contents r = s.contents r ++ s.pendingBytes r) :
    s.contents r ++ s.committedNext r = s.releasedNext r ++ t.contents r := by
  rw [committedNext_of_commits hu hc, releasedNext_of_commits hu hc, h, List.nil_append]

theorem queue_law_of_releases {u : Turn} (hu : s.turns.head? = some u) (hd : u.releases r = true)
    (hb : (s.ring r).cp.busy = true) (h : t.contents r = (s.contents r).drop (s.ring r).cp.n) :
    s.contents r ++ s.committedNext r = s.releasedNext r ++ t.contents r := by
  rw [releasedNext_of_releases hu hd, committedNext_of_releases hu hd, h, PortCtx.pending, if_pos hb,
    List.take_append_drop, List.append_nil]

/-- The queue law: what was buffered and what the step commits are what it releases and what is buffered after it. -/
theorem StepTo.queue_law (h : StepTo s t) (hI : RingInv (s.cap r) (s.ring r)) (hr : ¬s.resetsNext r) :
    s.contents r ++ s.committedNext r = s.releasedNext r ++ t.contents r := by
  cases h with
  | command ht hp hd he =>
    exact queue_law_of_other ht rfl rfl (he.sameQueue hI (ne_rbReset_of_command hr ht hp hd)).1
  | event ht hd he =>
    exact queue_law_of_other ht rfl rfl (he.sameQueue hI (ne_rbReset_of_event hr ht hd)).1
  | reset ht => exact absurd (.inl (congrArg List.head? ht)) hr
  | putEnd ht hb =>
    cases r with
    | rx => exact queue_law_of_other ht rfl rfl (contents_congr rfl rfl rfl rfl rfl)
    | tx => exact queue_law_of_commits (congrArg List.head? ht) rfl (contents_putEnd hI hb rfl rfl rfl)
  | drainEnd ht hb =>
    cases r with
    | rx => exact queue_law_of_commits (congrArg List.head? ht) rfl (contents_putEnd hI hb rfl rfl rfl)
    | tx => exact queue_law_of_other ht rfl rfl (contents_congr rfl rfl rfl rfl rfl)
  | getEnd ht hb =>
    cases r with
    | rx => exact queue_law_of_releases (congrArg List.head? ht) rfl hb (contents_getEnd hI hb rfl rfl rfl)
    | tx => exact queue_law_of_other ht rfl rfl (contents_congr rfl rfl rfl rfl rfl)
  | fetchEndEmpty ht hb | fetchEnd ht hb =>
    cases r with
    | rx => exact queue_law_of_other ht rfl rfl (contents_congr rfl rfl rfl rfl rfl)
    | tx => exact queue_law_of_releases (congrArg List.head? ht) rfl hb (contents_getEnd hI hb rfl rfl rfl)
  | noTurn ht => exact queue_law_of_same (by simp [ht]) (by simp [ht]) rfl
  | nothingPresented ht | illegalCommand ht | illegalEvent ht =>
    cases r <;> exact queue_law_of_other ht rfl rfl (contents_congr rfl rfl rfl rfl rfl)
  | putEndPasses ht hb | getEndPasses ht hb | drainEndPasses ht hb | fetchEndPasses ht hb =>
    cases r <;> exact queue_law_of_same (by simp [ht, Turn.commits, hb]) (by simp [ht, Turn.releases, hb])
      (contents_congr rfl rfl rfl rfl rfl)

/-- Until its completion a put in progress keeps the bytes its begin step stored. -/
theorem StepTo.pendingBytes_eq (h : StepTo s t) (hI : RingInv (s.cap r) (s.ring r)) (hr : ¬s.resetsNext r)
    (hb : (s.ring r).pp.busy = true) (hc : ∀ u, s.turns.head? = some u → u.commits r ≠ true) :
    t.pendingBytes r = s.pendingBytes r := by
  cases h with
  | command ht hp hd he => exact (he.sameQueue hI (ne_rbReset_of_command hr ht hp hd)).2 hb
  | event ht hd he => exact (he.sameQueue hI (ne_rbReset_of_event hr ht hd)).2 hb
  | reset ht => exact absurd (.inl (congrArg List.head? ht)) hr
  | putEnd ht =>
    cases r with
    | rx => exact pendingBytes_congr rfl rfl rfl rfl rfl
    | tx => exact absurd rfl (hc _ (congrArg List.head? ht))
  | drainEnd ht =>
    cases r with
    | rx => exact absurd rfl (hc _ (congrArg List.head? ht))
    | tx => exact pendingBytes_congr rfl rfl rfl rfl rfl
  | _ => cases r <;> exact pendingBytes_congr rfl rfl rfl rfl rfl

end

/-! ### Each step against the queue -/

section
variable {s t : State} {r : Ring} (h : StepTo s t) (hI : RingInv (s.cap r) (s.ring r)) (hr : ¬s.resetsNext r)
include h hI hr

theorem StepTo.contents_of_commits {u : Turn} (hu : s.turns.head? = some u) (hc : u.commits r = true) :
    t.contents r = s.contents r ++ s.pendingBytes r := by
  have hlaw := h.queue_law hI hr
  rw [committedNext_of_commits hu hc, releasedNext_of_commits hu hc, List.nil_append] at hlaw
  exact hlaw.symm

theorem StepTo.contents_of_releases {u : Turn} (hu : s.turns.head? = some u) (hd : u.releases r = true) :
    t.contents r = (s.contents r).drop (s.ring r).cp.pending := by
  have hlaw := h.queue_law hI hr
  rw [committedNext_of_releases hu hd, releasedNext_of_releases hu hd, List.append_nil] at hlaw
  exact List.append_cancel_left (hlaw.symm.trans (List.take_append_drop _ _).symm)

theorem StepTo.sameQueue (hc : ∀ u, s.turns.head? = some u → u.commits r ≠ true)
    (hd : ∀ u, s.turns.head? = some u → u.releases r ≠ true) : s.SameQueue t r := by
  have hlaw := h.queue_law hI hr
  rw [committedNext_eq_nil fun u hu hcu => absurd hcu (hc u hu),
    releasedNext_eq_nil fun u hu hdu => absurd hdu (hd u hu), List.append_nil, List.nil_append] at hlaw
  exact ⟨hlaw.symm, fun hb => h.pendingBytes_eq hI hr hb hc⟩

end

/-- Settles O32: the queue law at the turn of each completion, and at every other turn. -/
theorem ringRefinesAQueue : Obligations.RingRefinesAQueue := by
  intro s t hI h
  have hs := step_to h
  refine ⟨fun hu => hs.contents_of_commits hI.tx (not_resetsNext_of_completion hu rfl) hu rfl,
    fun ⟨_, hu⟩ => hs.contents_of_commits hI.rx (not_resetsNext_of_completion hu rfl) hu rfl,
    fun hu => hs.contents_of_releases hI.rx (not_resetsNext_of_completion hu rfl) hu rfl,
    fun ⟨_, hu⟩ => hs.contents_of_releases hI.tx (not_resetsNext_of_completion hu rfl) hu rfl,
    fun hput hfetch hreset hring => hs.sameQueue hI.tx (not_or.mpr ⟨hreset, hring⟩) ?_ ?_,
    fun hget hdrain hreset hring => hs.sameQueue hI.rx (not_or.mpr ⟨hreset, hring⟩) ?_ ?_⟩
  · exact fun u hu hc => hput (Turn.eq_putEnd_of_commits hc ▸ hu)
  · intro u hu hd
    obtain ⟨ok, rfl⟩ := Turn.eq_fetchEnd_of_releases hd
    exact hfetch ok hu
  · intro u hu hc
    obtain ⟨ok, rfl⟩ := Turn.eq_drainEnd_of_commits hc
    exact hdrain ok hu
  · exact fun u hu hd => hget (Turn.eq_getEnd_of_releases hd ▸ hu)

/-! ### What the surroundings hold ready -/

section
variable {s t : State} {r : Ring}

/-- With fewer turns and commands ready there is still no reset. -/
theorem State.noReset.mono (h : s.noReset r) (ht : t.turns ⊆ s.turns)
    (hp : ∀ c, t.presented = some c → s.presented = some c ∨ c ∈ s.host) (hh : t.host ⊆ s.host) : t.noReset r := by
  obtain ⟨hturns, hpresented, hhost⟩ := h
  exact ⟨fun hu => hturns (ht hu), fun c hc => (hp c hc).elim (hpresented c) (hhost c), fun c hc => hhost c (hh hc)⟩

theorem State.present_presented {c : Command} (h : s.present.presented = some c) :
    s.presented = some c ∨ c ∈ s.host := by
  rcases hp : s.presented with _ | c'
  · rcases hh : s.host with _ | ⟨c', later⟩
    · simp [State.present, hp, hh] at h
    · rw [State.present_of_host hp hh] at h
      obtain rfl := Option.some.inj h
      exact .inr List.mem_cons_self
  · rw [State.present_of_presented hp, hp] at h
    exact .inl h

theorem State.present_host_subset (s : State) : s.present.host ⊆ s.host := by
  rcases hp : s.presented with _ | c'
  · rcases hh : s.host with _ | ⟨c', later⟩
    · simp [State.present, hp, hh]
    · simp [State.present_of_host hp hh]
  · simp [State.present_of_presented hp]

theorem State.noReset.afterTurn {u : Turn} {rest : List Turn} (h : s.noReset r) (ht : s.turns = u :: rest) :
    State.noReset { s with turns := rest } r :=
  h.mono (ht ▸ List.subset_cons_self _ _) (fun _ => .inl) (List.Subset.refl _)

theorem State.noReset.atCommand (h : s.noReset r) {ok : Bool} {rest : List Turn} (ht : s.turns = .command ok :: rest) :
    (s.atCommand ok rest).noReset r :=
  h.mono (ht ▸ List.subset_cons_self _ _) (fun _ => State.present_presented) s.present_host_subset

/-- An instruction takes no turn, and of the commands at most the one presented. -/
theorem ExecTo.surroundings_eq {i : Instr} (h : ExecTo s i t) :
    t.turns = s.turns ∧ t.host = s.host ∧ (t.presented = none ∨ t.presented = s.presented) := by
  cases h with
  | held | tickIgnored | tickRecorded | tickDelivers | inDoneIgnored | inDoneDelivers | inErrorIgnored | inErrorTaken
  | outDoneIgnored | outDoneReleases | outDoneFetches | outErrorIgnored | outErrorReleases | outErrorTaken
  | inDataIgnored | inDataStaged => exact ⟨rfl, rfl, .inr rfl⟩
  | _ => exact ⟨rfl, rfl, .inl rfl⟩

theorem ExecTo.noReset {i : Instr} (h : ExecTo s i t) (hn : s.noReset r) : t.noReset r := by
  obtain ⟨hturns, hhost, hpresented⟩ := h.surroundings_eq
  refine hn.mono (hturns ▸ List.Subset.refl _) (fun c hc => .inl ?_) (hhost ▸ List.Subset.refl _)
  rcases hpresented with hnone | hsame
  · nomatch hnone.symm.trans hc
  · exact hsame.symm.trans hc

theorem StepTo.noReset (h : StepTo s t) (hn : s.noReset r) : t.noReset r := by
  cases h with
  | noTurn => exact hn
  | nothingPresented ht => exact hn.atCommand ht
  | command ht _ _ he => exact he.noReset (hn.atCommand ht)
  | illegalCommand ht => exact (hn.atCommand ht).mono (List.Subset.refl _) nofun (List.Subset.refl _)
  | event ht _ he => exact he.noReset (hn.afterTurn ht)
  | reset ht => exact (hn.afterTurn ht).mono (List.Subset.refl _) nofun (List.Subset.refl _)
  | illegalEvent ht | putEndPasses ht | putEnd ht | getEndPasses ht | getEnd ht | drainEndPasses ht | drainEnd ht
  | fetchEndPasses ht | fetchEndEmpty ht | fetchEnd ht => exact hn.afterTurn ht

theorem State.noReset.not_resetsNext (h : s.noReset r) : ¬s.resetsNext r := by
  obtain ⟨hturns, hpresented, hhost⟩ := h
  rintro (hu | hi)
  · exact hturns (List.mem_of_head? hu)
  · rcases nextInstr_eq_some.mp hi with ⟨ok, rest, c, -, hp, hd⟩ | ⟨w, rest, -, hd⟩
    · have hdecode := (decodeOn_eq_ok.mp hd).1
      exact (State.present_presented hp).elim (fun hc => hpresented c hc hdecode) fun hc => hhost c hc hdecode
    · nomatch (decodeOn_eq_ok.mp hd).2

end

/-! ### Runs -/

theorem run_succ_next {s t : State} {k : Nat} (h : Host.Core.run Sys2Proof.core (k + 1) s = .next t) :
    ∃ u, step s = .next u ∧ Host.Core.run Sys2Proof.core k u = .next t := by
  rcases hs : step s with u | f | r
  · exact ⟨u, rfl, (run_succ hs k).symm.trans h⟩
  · have hcore : Host.Core.step Sys2Proof.core s = .fault f := hs
    simp [Host.Core.run, hcore] at h
  · have hcore : Host.Core.step Sys2Proof.core s = .refused r := hs
    simp [Host.Core.run, hcore] at h

theorem committed_succ {s u : State} (h : step s = .next u) (r : Ring) (k : Nat) :
    State.committed r (k + 1) s = s.committedNext r ++ State.committed r k u := by
  simp only [State.committed, h]

/-- An instruction returns no bytes: only the completion of a get does (R124). -/
theorem ExecTo.returnedBytes_eq {s t : State} {i : Instr} (h : ExecTo s i t) :
    returnedBytes t.trace = returnedBytes s.trace := by
  cases h <;> simp [returnedBytes_append, returnedBytes]

/-- A get in progress returns what its completion releases. -/
theorem gotBytes_eq_released {s : State} {r : Ring} {u : Turn} (hI : RingInv (s.cap r) (s.ring r))
    (hb : (s.ring r).cp.busy = true) (hu : s.turns.head? = some u) (hd : u.releases r = true) :
    s.gotBytes r = s.releasedNext r := by
  have hpending : (s.ring r).cp.pending = (s.ring r).cp.n := if_pos hb
  rw [releasedNext_of_releases hu hd, hpending, gotBytes_eq (hpending ▸ hI.get_fits)]

/-- The bytes a step returns are those it releases from the RX ring. -/
theorem StepTo.returnedBytes_eq {s t : State} (h : StepTo s t) (hI : s.Inv) :
    returnedBytes t.trace = returnedBytes s.trace ++ s.releasedNext .rx := by
  cases h with
  | getEnd ht hb =>
    have hgot := gotBytes_eq_released (r := .rx) hI.rx hb (congrArg List.head? ht) rfl
    rw [returnedBytes_append, ← hgot]
    exact congrArg (returnedBytes s.trace ++ ·) (List.append_nil _)
  | getEndPasses ht hb => rw [releasedNext_eq_nil (by simp [ht, hb]), List.append_nil]
  | command ht _ _ he =>
    rw [releasedNext_eq_nil (by simp [ht, Turn.releases]), List.append_nil, he.returnedBytes_eq]
    rfl
  | event ht _ he => rw [releasedNext_eq_nil (by simp [ht, Turn.releases]), List.append_nil, he.returnedBytes_eq]
  | drainEnd ht | fetchEndEmpty ht =>
    rw [releasedNext_eq_nil (by simp [ht, Turn.releases]), returnedBytes_append]
    split <;> rfl
  | illegalCommand ht | putEnd ht | fetchEnd ht =>
    rw [releasedNext_eq_nil (by simp [ht, Turn.releases]), returnedBytes_append]
    rfl
  | noTurn ht | nothingPresented ht | illegalEvent ht | putEndPasses ht | drainEndPasses ht | fetchEndPasses ht
  | reset ht =>
    rw [releasedNext_eq_nil (by simp [ht, Turn.releases])]
    exact (List.append_nil _).symm

/-- Settles O34, by induction on the run: each step obeys the queue law, and what a step releases it returns. -/
theorem returnedBytesAreTheDeliveredBytes : Obligations.ReturnedBytesAreTheDeliveredBytes := by
  intro k
  induction k with
  | zero =>
    intro s t hI hn h
    cases h
    exact ⟨[], (List.append_nil _).symm, List.append_nil _⟩
  | succ k ih =>
    intro s t hI hn h
    obtain ⟨u, hstep, hrun⟩ := run_succ_next h
    have hs := step_to hstep
    obtain ⟨first, hfirst, -⟩ := hs.trace_append
    obtain ⟨later, hlater, hlaw⟩ := ih u t (hs.inv hI) (hs.noReset hn) hrun
    have hreturned : returnedBytes first = s.releasedNext .rx := by
      have h := hs.returnedBytes_eq hI
      rw [hfirst, returnedBytes_append] at h
      exact List.append_cancel_left h
    refine ⟨first ++ later, by rw [hlater, hfirst, List.append_assoc], ?_⟩
    calc s.contents .rx ++ State.committed .rx (k + 1) s
        = (s.contents .rx ++ s.committedNext .rx) ++ State.committed .rx k u := by
          rw [committed_succ hstep, List.append_assoc]
      _ = returnedBytes first ++ (u.contents .rx ++ State.committed .rx k u) := by
          rw [hs.queue_law hI.rx hn.not_resetsNext, hreturned, List.append_assoc]
      _ = returnedBytes (first ++ later) ++ t.contents .rx := by
          rw [hlaw, returnedBytes_append, List.append_assoc]

end Sys2Proof.Machine
end

section
/-! The receive pump (41_rxpump.md R151 to R160): its commands, events and completion step as next states, the delivery begin,
and the idle frame as a run. -/

namespace Sys2Proof.Machine

/-! ### The delivery begin -/

/-- R157: the staged bytes that fit stand at the free positions, and a delivery begin touches nothing else. -/
theorem deliveryBegun_rxDeliverBegin (s : State) (sample : Nat) : DeliveryBegun s (s.rxDeliverBegin sample) sample := by
  refine ⟨rfl, rfl, fun k hk => memRead_putBegin_at (r := .rx) rfl hk ?_,
    fun a => memRead_putBegin_other (r := .rx) rfl rfl, rfl⟩
  have hlt : k < min sample s.cfg.rxStage.val := Nat.lt_of_lt_of_le hk (Nat.min_le_left _ _)
  simp [State.stagedBytes, hlt]

theorem rxpListens_eq_false_iff {s : State} : s.rxpListens = false ↔ s.rxpState = .idle ∨ s.rx.pp.busy = true := by
  cases h : s.rxpState <;> simp [State.rxpListens, RxpState.bit, h]

/-! ### Events -/

/-- Settles O39, one case of `ExecTo` for each branch of the detector. -/
theorem evTickDetectsAStalledCount : Obligations.EvTickDetectsAStalledCount := by
  refine fun s count => ⟨fun hdeaf => ?_, fun hs hb => ⟨fun hne => ?_, fun heq hseen => ?_, fun heq h0 hd => ?_⟩⟩
  · exact (ExecTo.tickIgnored (.inl (rxpListens_eq_false_iff.mpr hdeaf))).exec_eq rfl
  · exact (ExecTo.tickRecorded hb hs hne).exec_eq rfl
  · exact (ExecTo.tickIgnored (.inr ⟨heq, hseen⟩)).exec_eq rfl
  · exact ⟨_, (ExecTo.tickDelivers hb hs heq h0 hd).exec_eq rfl,
      deliveryBegun_rxDeliverBegin { s with rxDone := true } count⟩

/-- Settles O40: an armed pump delivers whatever the count, zero included. -/
theorem evInDoneBeginsADelivery : Obligations.EvInDoneBeginsADelivery := by
  refine fun s count => ⟨fun hdeaf => ?_, fun hs hb => ?_⟩
  · exact (ExecTo.inDoneIgnored (rxpListens_eq_false_iff.mpr hdeaf)).exec_eq rfl
  · exact ⟨_, (ExecTo.inDoneDelivers hb hs).exec_eq rfl,
      deliveryBegun_rxDeliverBegin { s with rxPrev := count, rxDone := true } count⟩

/-- Settles O41: the two cases of `ExecTo` for the event, by whether the pump listens. -/
theorem evInErrorIdlesTheRxPump : Obligations.EvInErrorIdlesTheRxPump := by
  refine fun s => ⟨fun hdeaf => ?_, fun hs hb => (ExecTo.inErrorTaken hb hs).exec_eq rfl⟩
  exact (ExecTo.inErrorIgnored (rxpListens_eq_false_iff.mpr hdeaf)).exec_eq rfl

/-- Settles O38: the byte written is read back at its position, and no other position is written. -/
theorem evInDataStagesOneByte : Obligations.EvInDataStagesOneByte := by
  refine fun s byte off => ⟨fun hoff => (ExecTo.inDataIgnored hoff).exec_eq rfl, fun hoff => ?_⟩
  refine ⟨_, (ExecTo.inDataStaged hoff).exec_eq rfl,
    State.memRead_of_read (sp := .rxStg) (Memory.read_write_same _ _ _), fun a ha => ?_, rfl⟩
  have hread : (s.rxStage.write off byte).read a = s.rxStage.read a := Memory.read_write_other _ _ ha
  simp only [State.memRead, State.space_rxStg, hread]

/-! ### Commands -/

/-- A draining pump holds both its commands (R109). -/
theorem exec_rxp_of_draining {s : State} {i : Instr} (hi : i = .rxpStart ∨ i = .rxpStop) (hb : s.rx.pp.busy = true) :
    exec i s = .next s := by
  rcases hi with rfl | rfl <;> exact exec_of_not_accepts (by simp [State.accepts, hb]) rfl

/-- Settles O36: the transport's answer decides what an idle pump becomes. -/
theorem rxpStartArmsReception : Obligations.RxpStartArmsReception :=
  fun _ => ⟨exec_rxp_of_draining (.inl rfl), fun hb hs ha => (ExecTo.rxpStartArmed hb hs ha).exec_eq rfl,
    fun hb hs ha => (ExecTo.rxpStartRefused hb hs ha).exec_eq rfl,
    fun hb hs => (ExecTo.rxpStartPosted hb hs).exec_eq rfl⟩

/-- Settles O37: the pump's state decides between an abort and no change. -/
theorem rxpStopAbortsReception : Obligations.RxpStopAbortsReception :=
  fun _ => ⟨exec_rxp_of_draining (.inr rfl), fun hb hs => (ExecTo.rxpStopPosted hb hs).exec_eq rfl,
    fun hb hs => (ExecTo.rxpStopIdle hb hs).exec_eq rfl⟩

/-! ### `RXP.DRAIN_END` -/

/-- Settles O42: the completion step is one case of `StepTo` when enabled, another when not. -/
theorem drainEndCountsNotifiesAndRearms : Obligations.DrainEndCountsNotifiesAndRearms := by
  refine fun s ok rest ht => ⟨fun hb => ?_, fun hb => ?_⟩
  · exact (StepTo.drainEndPasses ht hb).step_eq_of_completion (congrArg List.head? ht) rfl
  · rw [List.append_assoc]
    exact (StepTo.drainEnd ht hb).step_eq_of_completion (congrArg List.head? ht) rfl

/-! ### The idle frame -/

/-- A tick's turn runs the detector on the count its word encodes. -/
theorem step_of_tick {s t : State} {count : Nat} {rest : List Turn} (hc : count < 65536)
    (ht : s.turns = .event (encode (.evTick count)) :: rest) (he : ExecTo { s with turns := rest } (.evTick count) t) :
    step s = .next t := by
  have hd := decodeAfterEncodeIsIdentity (.evTick count) (decide_eq_true hc)
  rw [step_of_event ht (decodeOn_eq_ok.mpr ⟨hd, rfl⟩)]
  exact he.exec_eq rfl

/-- R160: ticks with a count that has been delivered pass, however many. -/
theorem run_deliveredTicks {count : Nat} (hc : count < 65536) (k : Nat) {s : State}
    (ht : s.turns = List.replicate k (.event (encode (.evTick count)))) (hp : count = s.rxPrev) (hd : s.rxDone = true) :
    Host.Core.run Sys2Proof.core k s = .next { s with turns := [] } := by
  induction k generalizing s with
  | zero => exact congrArg (fun turns => Host.Outcome.next { s with turns }) ht
  | succ k ih =>
    rw [run_succ (step_of_tick hc ht (.tickIgnored (.inr ⟨hp, .inr hd⟩))) k]
    exact ih rfl hp hd

/-- A delivery as a whole, its begin and its completion: the staged bytes that fit are appended (R157, R158). -/
theorem contents_delivered {s t : State} {c : Nat} (hI : s.Inv)
    (ht : t.rx = (s.rx.putBegin s.cfg.nRx.val (s.stagedBytes c) c).putEnd s.cfg.nRx.val) (hc : t.cfg = s.cfg)
    (he : t.epoch = s.epoch) : t.contents .rx = s.contents .rx ++ (s.stagedBytes c).take (s.rx.free s.cfg.nRx.val) := by
  have hput := contents_put (r := .rx) hI.rx (s.stagedBytes c)
  rw [s.stagedBytes_length] at hput
  have hring : t.ring .rx = ((s.putBegin .rx (s.stagedBytes c) c).putEnd .rx).ring .rx := ht
  exact (contents_congr (congrArg _ hring) (congrArg _ hring) (congrArg _ hring) hc he).trans hput

theorem run_succ_of_step {s t u : State} {k : Nat} (h : step s = .next t)
    (hrun : Host.Core.run Sys2Proof.core k t = .next u) : Host.Core.run Sys2Proof.core (k + 1) s = .next u :=
  (run_succ h k).trans hrun

/-- Settles O43: the first tick records the count, the second delivers it, the drain notifies, and the rest pass. -/
theorem idleFrameNotifiesExactlyOnce : Obligations.IdleFrameNotifiesExactlyOnce := by
  intro s count k hI hs hb hp h0 hc ht
  have hpos : 0 < min count s.cfg.rxStage.val := Nat.lt_min.mpr ⟨Nat.pos_of_ne_zero h0, s.cfg.rxStage.pos⟩
  refine ⟨_, run_succ_of_step (step_of_tick hc ht (.tickRecorded hb hs hp.symm)) <|
    run_succ_of_step (step_of_tick hc rfl (.tickDelivers hb hs rfl h0 rfl)) <|
    run_succ_of_step (StepTo.step_eq_of_completion (.drainEnd rfl rfl) rfl rfl) <|
    run_deliveredTicks hc k rfl rfl rfl, ?_, contents_delivered hI rfl rfl rfl, hs, rfl, rfl⟩
  simp only [if_pos hpos]
  rfl

end Sys2Proof.Machine
end

section
/-! R188: what the submissions carry. Only `TXP.FETCH_END` submits bytes, those it takes from the TX ring, so the queue law turns
into a law of the bytes buffered, committed and submitted, over one step and over runs. -/

namespace Sys2Proof.Machine

section
variable {s t : State}

/-- An instruction submits no bytes: `RXP_START` submits a reception, and the fetch that `TXP_KICK` begins ends later (R181). -/
theorem ExecTo.submittedBytes_eq {i : Instr} (h : ExecTo s i t) : submittedBytes t.trace = submittedBytes s.trace := by
  cases h <;> simp [submittedBytes_append, submittedBytes]

/-- The bytes a step submits are those it releases from the TX ring. -/
theorem StepTo.submittedBytes_eq (h : StepTo s t) (hI : s.Inv) :
    submittedBytes t.trace = submittedBytes s.trace ++ s.releasedNext .tx := by
  cases h with
  | fetchEnd ht hb =>
    have hgot := gotBytes_eq_released (r := .tx) hI.tx hb (congrArg List.head? ht) rfl
    rw [submittedBytes_append, ← hgot]
    exact congrArg (submittedBytes s.trace ++ ·) (List.append_nil _)
  | fetchEndEmpty ht hb h0 =>
    have hnone : s.releasedNext .tx = [] := by
      simp [releasedNext_of_releases (r := .tx) (congrArg List.head? ht) rfl, PortCtx.pending, h0]
    rw [hnone, submittedBytes_append]
    split <;> rfl
  | fetchEndPasses ht hb => rw [releasedNext_eq_nil (by simp [ht, hb]), List.append_nil]
  | command ht _ _ he =>
    rw [releasedNext_eq_nil (by simp [ht, Turn.releases]), List.append_nil, he.submittedBytes_eq]
    rfl
  | event ht _ he => rw [releasedNext_eq_nil (by simp [ht, Turn.releases]), List.append_nil, he.submittedBytes_eq]
  | drainEnd ht =>
    rw [releasedNext_eq_nil (by simp [ht, Turn.releases]), submittedBytes_append]
    split <;> rfl
  | illegalCommand ht | putEnd ht | getEnd ht =>
    rw [releasedNext_eq_nil (by simp [ht, Turn.releases]), submittedBytes_append]
    rfl
  | noTurn ht | nothingPresented ht | illegalEvent ht | putEndPasses ht | getEndPasses ht | drainEndPasses ht
  | reset ht =>
    rw [releasedNext_eq_nil (by simp [ht, Turn.releases])]
    exact (List.append_nil _).symm

/-- The same, of the symbols the step adds to the trace. -/
theorem StepTo.emits_released (h : StepTo s t) (hI : s.Inv) :
    ∃ out, t.trace = s.trace ++ out ∧ submittedBytes out = s.releasedNext .tx := by
  obtain ⟨out, htrace, -⟩ := h.trace_append
  have hbytes := h.submittedBytes_eq hI
  rw [htrace, submittedBytes_append] at hbytes
  exact ⟨out, htrace, List.append_cancel_left hbytes⟩

end

/-- Settles O33, by induction on the run: each step obeys the queue law, and what a step releases it submits. -/
theorem submittedBytesAreTheAcceptedBytes : Obligations.SubmittedBytesAreTheAcceptedBytes := by
  intro k
  induction k with
  | zero =>
    intro s t hI hn h
    cases h
    exact ⟨[], (List.append_nil _).symm, List.append_nil _⟩
  | succ k ih =>
    intro s t hI hn h
    obtain ⟨u, hstep, hrun⟩ := run_succ_next h
    have hs := step_to hstep
    obtain ⟨first, hfirst, hsubmitted⟩ := hs.emits_released hI
    obtain ⟨later, hlater, hlaw⟩ := ih u t (hs.inv hI) (hs.noReset hn) hrun
    refine ⟨first ++ later, by rw [hlater, hfirst, List.append_assoc], ?_⟩
    calc s.contents .tx ++ State.committed .tx (k + 1) s
        = (s.contents .tx ++ s.committedNext .tx) ++ State.committed .tx k u := by
          rw [committed_succ hstep, List.append_assoc]
      _ = submittedBytes first ++ (u.contents .tx ++ State.committed .tx k u) := by
          rw [hs.queue_law hI.tx hn.not_resetsNext, hsubmitted, List.append_assoc]
      _ = submittedBytes (first ++ later) ++ t.contents .tx := by
          rw [hlaw, submittedBytes_append, List.append_assoc]

end Sys2Proof.Machine
end

section
/-! The transmit pump (42_txpump.md R181 to R187, R191): its commands, events and completion step as next states, and which steps
release. -/

namespace Sys2Proof.Machine

/-! ### Commands and events -/

theorem txpListens_eq_false_iff {s : State} : s.txpListens = false ↔ s.txpState = .idle ∨ s.tx.cp.busy = true := by
  cases h : s.txpState <;> simp [State.txpListens, TxpState.bit, h]

/-- A fetching pump holds both its commands (R109). -/
theorem exec_txp_of_fetching {s : State} {i : Instr} (hi : i = .txpKick ∨ i = .txpStop) (hb : s.tx.cp.busy = true) :
    exec i s = .next s := by
  rcases hi with rfl | rfl <;> exact exec_of_not_accepts (by simp [State.accepts, hb]) rfl

/-- Settles O44: an accepted kick begins a fetch or finds a transfer in flight. -/
theorem txpKickBeginsAFetch : Obligations.TxpKickBeginsAFetch :=
  fun _ => ⟨exec_txp_of_fetching (.inl rfl), fun hb hs => (ExecTo.txpKickIdle hb hs).exec_eq rfl,
    fun hb hs => (ExecTo.txpKickPosted hb hs).exec_eq rfl⟩

/-- Settles O45: with a transfer in flight the close policy decides between `DEFERRED` and `BUSY`. -/
theorem txpStopReleasesDefersOrRefuses : Obligations.TxpStopReleasesDefersOrRefuses :=
  fun _ => ⟨exec_txp_of_fetching (.inr rfl), fun hb hs => (ExecTo.txpStopIdle hb hs).exec_eq rfl,
    fun hb hs hd => (ExecTo.txpStopDeferred hb hs hd).exec_eq rfl,
    fun hb hs hd => (ExecTo.txpStopBusy hb hs hd).exec_eq rfl⟩

/-- Settles O46: a listening pump looks at the deferred close only, never at the count. -/
theorem evOutDoneFetchesOrReleases : Obligations.EvOutDoneFetchesOrReleases := by
  refine fun s count => ⟨fun hdeaf => ?_, fun hs hb hp => (ExecTo.outDoneReleases hb hs hp).exec_eq rfl,
    fun hs hb hp => (ExecTo.outDoneFetches hb hs hp).exec_eq rfl⟩
  exact (ExecTo.outDoneIgnored (txpListens_eq_false_iff.mpr hdeaf)).exec_eq rfl

/-- Settles O47: the three cases of `ExecTo` for the event. -/
theorem evOutErrorIdlesTheTxPump : Obligations.EvOutErrorIdlesTheTxPump := by
  refine fun s => ⟨fun hdeaf => ?_, fun hs hb hp => (ExecTo.outErrorTaken hb hs hp).exec_eq rfl,
    fun hs hb hp => (ExecTo.outErrorReleases hb hs hp).exec_eq rfl⟩
  exact (ExecTo.outErrorIgnored (txpListens_eq_false_iff.mpr hdeaf)).exec_eq rfl

/-! ### `TXP.FETCH_END` -/

/-- R75, R186: the chunk is staged from position 0 on, and the rest of the staging buffer is as before. -/
theorem memRead_staged_at {s t : State} {data : List Byte} {k : Nat} {b : Byte}
    (ht : t.txStage = Memory.copyTo (fun k => k) 0 data s.txStage) (hb : data[k]? = some b) : t.memRead .txStg k = b := by
  obtain ⟨hlt, rfl⟩ := List.getElem?_eq_some_iff.mp hb
  have hread := Memory.read_copyTo_at (fun k => k) data s.txStage 0 (fun _ _ _ hij _ => Nat.ne_of_lt hij) hlt
  rw [Nat.zero_add, ← ht] at hread
  exact State.memRead_of_read (sp := .txStg) hread

theorem memRead_staged_other {s t : State} {data : List Byte} {a : Nat}
    (ht : t.txStage = Memory.copyTo (fun k => k) 0 data s.txStage) (he : t.epoch = s.epoch) (ha : data.length ≤ a) :
    t.memRead .txStg a = s.memRead .txStg a := by
  have hread : t.txStage.read a = s.txStage.read a :=
    ht ▸ Memory.read_copyTo_other _ data s.txStage 0 fun j _ hj => by omega
  simp only [State.memRead, State.space_txStg, hread, he]

/-- Settles O48: the completion step is one of three cases of `StepTo`, by what the fetch in progress is. -/
theorem fetchEndStagesAndSubmits : Obligations.FetchEndStagesAndSubmits := by
  intro s ok rest ht hle m tx'
  have hu : s.turns.head? = some (.fetchEnd ok) := congrArg List.head? ht
  refine ⟨fun hb => (StepTo.fetchEndPasses ht hb).step_eq_of_completion hu rfl,
    fun hb h0 => (StepTo.fetchEndEmpty ht hb h0).step_eq_of_completion hu rfl, fun hb h0 => ?_⟩
  refine ⟨_, s.gotBytes .tx, (StepTo.fetchEnd ht hb h0 (hle hb)).step_eq_of_completion hu rfl, gotBytes_length s .tx,
    fun k b hk => ⟨?_, memRead_staged_at (s := s) rfl hk⟩,
    fun a ha => memRead_staged_other rfl rfl (by rwa [gotBytes_length]), rfl⟩
  obtain ⟨hlt, rfl⟩ := List.getElem?_eq_some_iff.mp hk
  simp [State.gotBytes, pos]

/-! ### Releases -/

/-- Symbols that cannot release, added to a trace, did not release. -/
theorem not_txReleased_of_trace {trace out added : List Output} (h : trace ++ added = trace ++ out)
    (hno : .txReleased ∉ added) : .txReleased ∉ out :=
  List.append_cancel_left h ▸ hno

/-- An instruction releases when no transfer is in flight, or as the terminal event of a deferred close. -/
theorem ExecTo.release_cases {s t : State} {i : Instr} {out : List Output} (h : ExecTo s i t)
    (htrace : t.trace = s.trace ++ out) (hr : .txReleased ∈ out) :
    s.txpState = .idle ∨ s.txStopPending = true ∧ ((∃ n, i = .evOutDone n) ∨ i = .evOutError) := by
  cases h with
  | txpStopIdle _ hs => exact .inl hs
  | outDoneReleases _ _ hp => exact .inr ⟨hp, .inl ⟨_, rfl⟩⟩
  | outErrorReleases _ _ hp => exact .inr ⟨hp, .inr rfl⟩
  | held | rbPut | rbGet | tickIgnored | tickRecorded | tickDelivers | inDoneIgnored | inDoneDelivers | inErrorIgnored
  | outDoneIgnored | outDoneFetches | outErrorIgnored | inDataIgnored | inDataStaged =>
    exact absurd hr (not_txReleased_of_trace ((List.append_nil _).trans htrace) (by simp))
  | _ => exact absurd hr (not_txReleased_of_trace htrace (by simp))

/-- No completion step releases: `TXP.FETCH_END` ends a run of transfers with `tx_done` (R186). -/
theorem StepTo.release_cases {s t : State} {out : List Output} (h : StepTo s t)
    (htrace : t.trace = s.trace ++ out) (hr : .txReleased ∈ out) :
    s.txpState = .idle ∨
      s.txStopPending = true ∧ ((∃ n, s.nextInstr = some (.evOutDone n)) ∨ s.nextInstr = some .evOutError) := by
  cases h with
  | command ht hp hd he =>
    rw [nextInstr_eq_some.mpr (.inl ⟨_, _, _, ht, hp, hd⟩)]
    simp only [Option.some.injEq]
    exact he.release_cases htrace hr
  | event ht hd he =>
    rw [nextInstr_eq_some.mpr (.inr ⟨_, _, ht, hd⟩)]
    simp only [Option.some.injEq]
    exact he.release_cases htrace hr
  | illegalCommand | putEnd | getEnd | fetchEnd => exact absurd hr (not_txReleased_of_trace htrace (by simp))
  | drainEnd | fetchEndEmpty => exact absurd hr (not_txReleased_of_trace htrace (by split <;> simp))
  | _ => exact absurd hr (not_txReleased_of_trace ((List.append_nil _).trans htrace) (by simp))

/-- Settles O50: a release in flight is by the terminal event, and a stop in flight has the last two cases of R182. -/
theorem releaseNeverPrecedesTheTerminalEvent : Obligations.ReleaseNeverPrecedesTheTerminalEvent := by
  refine ⟨fun s t out _ hs h htrace hr => ((step_to h).release_cases htrace hr).resolve_left (by simp [hs]),
    fun s t hs hb h => ?_⟩
  cases exec_to h with
  | held ha => simp [State.accepts, hb] at ha
  | txpStopIdle _ hidle => nomatch hs.symm.trans hidle
  | txpStopDeferred _ _ hd => simp [hd]
  | txpStopBusy _ _ hd => simp [hd]

end Sys2Proof.Machine
end

section
/-! R189, R190, bounded: rounds of `EV_OUT_DONE` and an accepted `TXP.FETCH_END` drain the TX ring, a chunk each, and end with one
`tx_done`. -/

namespace Sys2Proof.Machine

/-- A transfer is in flight and no fetch has begun: the TxPump waits for a terminal event (R187). -/
def State.InFlight (s : State) : Prop := s.txpState = .sendPosted ∧ s.tx.cp.busy = false

/-- `k` rounds, each a completed transfer and the fetch it begins. -/
def roundTurns (count k : Nat) : List Turn :=
  (List.replicate k [Turn.event (encode (.evOutDone count)), Turn.fetchEnd true]).flatten

/-- What the rounds achieve from `s` to `t`, with the symbols `out`. -/
structure Drained (s t : State) (out : List Output) : Prop where
  trace : t.trace = s.trace ++ out
  submitted : submittedBytes out = s.contents .tx
  done_once : out.count .txDone = 1
  empty : t.contents .tx = []
  idle : t.txpState = .idle
  not_busy : t.txBusy = false
  count_zero : t.txCount = 0

section
variable {s t : State} {count : Nat} (hc : count < 65536)
include hc

/-- The turn of a completed transfer runs `EV_OUT_DONE` with the count its word encodes. -/
theorem step_of_outDone {rest : List Turn} (ht : s.turns = .event (encode (.evOutDone count)) :: rest)
    (he : ExecTo { s with turns := rest } (.evOutDone count) t) : step s = .next t := by
  have hd := decodeAfterEncodeIsIdentity (.evOutDone count) (decide_eq_true hc)
  rw [step_of_event ht (decodeOn_eq_ok.mpr ⟨hd, rfl⟩)]
  exact he.exec_eq rfl

/-- Rounds that find the pump `Idle` pass (log 7). -/
theorem run_idleRounds (k : Nat) {s : State} (ht : s.turns = roundTurns count k) (ha : s.answer = true)
    (hs : s.txpState = .idle) (hb : s.tx.cp.busy = false) :
    Host.Core.run Sys2Proof.core (2 * k) s = .next { s with turns := [], answer := true } := by
  induction k generalizing s with
  | zero => exact congrArg₂ (fun turns answer => Host.Outcome.next { s with turns, answer }) ht ha
  | succ k ih =>
    refine run_succ_of_step (step_of_outDone hc ht (.outDoneIgnored (txpListens_eq_false_iff.mpr (.inl hs)))) <|
      run_succ_of_step (StepTo.step_eq_of_completion (.fetchEndPasses rfl hb) rfl rfl) ?_
    exact ih rfl rfl hs hb

end

/-- A fetch as a whole, its begin and its completion, takes the oldest `len` bytes, or all there are (R185, R186). -/
theorem contents_fetched {s t : State} {len : Nat} (hI : s.Inv)
    (ht : t.tx = (s.tx.getBegin s.cfg.nTx.val len).getEnd s.cfg.nTx.val) (hc : t.cfg = s.cfg) (he : t.epoch = s.epoch) :
    t.contents .tx = (s.contents .tx).drop len := by
  have hget := contents_getEnd (s := { s with tx := s.tx.getBegin s.cfg.nTx.val len }) (t := t) (r := .tx)
    (hI.tx.getBegin len) rfl ht hc he
  have hsame : State.contents { s with tx := s.tx.getBegin s.cfg.nTx.val len } .tx = s.contents .tx :=
    contents_congr rfl rfl rfl rfl rfl
  rw [hget, hsame, List.drop_eq_drop_iff, length_contents]
  exact (Nat.min_assoc ..).trans (by rw [State.ring_tx, State.cap_tx, Nat.min_self])

/-- `EV_OUT_DONE` has begun the next fetch (R183, R185). -/
def State.fetchBegun (s : State) (rest : List Turn) : State :=
  { s with turns := rest, tx := s.tx.getBegin s.cfg.nTx.val s.cfg.txChunk.val }

/-- What a round with bytes buffered does from `s` to `u`: the oldest chunk is submitted, and again a transfer is in flight. -/
structure ChunkSent (s u : State) : Prop where
  cfg : u.cfg = s.cfg
  inv : u.Inv
  inFlight : u.InFlight
  not_stopping : u.txStopPending = false
  contents : u.contents .tx = (s.contents .tx).drop s.cfg.txChunk.val
  trace : ∃ n, u.trace = s.trace ++ [.submit (.send n ((s.contents .tx).take s.cfg.txChunk.val))]

theorem ChunkSent.fill_le {s u : State} (h : ChunkSent s u) {k : Nat}
    (hfill : s.tx.fill s.cfg.nTx.val ≤ (k + 1) * s.cfg.txChunk.val) :
    u.tx.fill u.cfg.nTx.val ≤ k * u.cfg.txChunk.val := by
  have hlen : (u.contents .tx).length = (s.contents .tx).length - s.cfg.txChunk.val := by rw [h.contents, List.length_drop]
  simp only [length_contents, State.ring_tx, State.cap_tx] at hlen
  rw [hlen, h.cfg]
  rw [Nat.succ_mul] at hfill
  omega

/-- What the rounds after it achieve, it achieves with them. -/
theorem ChunkSent.drained {s u t : State} {out : List Output} (h : ChunkSent s u) (hd : Drained u t out) :
    ∃ out, Drained s t out := by
  obtain ⟨n, htrace⟩ := h.trace
  refine ⟨.submit (.send n ((s.contents .tx).take s.cfg.txChunk.val)) :: out, { hd with
    trace := by rw [hd.trace, htrace, List.append_assoc, List.singleton_append]
    submitted := by rw [submittedBytes, hd.submitted, h.contents, List.take_append_drop]
    done_once := by rw [List.count_cons_of_ne (by simp), hd.done_once] }⟩

section
variable {s : State} {count k : Nat} (hc : count < 65536) (hI : s.Inv) (hs : s.InFlight) (hp : s.txStopPending = false)
include hc hI hs hp

/-- With nothing buffered the first round ends the run of transfers, and the others pass. -/
theorem exists_drained_of_empty (h0 : s.tx.fill s.cfg.nTx.val = 0) (ht : s.turns = roundTurns count (k + 1)) :
    ∃ t out, Host.Core.run Sys2Proof.core (2 * (k + 1)) s = .next t ∧ Drained s t out := by
  obtain ⟨hposted, hb⟩ := hs
  have hnone : min s.cfg.txChunk.val (s.tx.fill s.cfg.nTx.val) = 0 := by rw [h0, Nat.min_zero]
  have hnil : s.contents .tx = [] := List.eq_nil_of_length_eq_zero ((length_contents s .tx).trans h0)
  have h1 : step s = .next (s.fetchBegun (.fetchEnd true :: roundTurns count k)) :=
    step_of_outDone hc ht (.outDoneFetches hb hposted hp)
  refine ⟨_, [.txDone], run_succ_of_step h1 <|
    run_succ_of_step (StepTo.step_eq_of_completion (.fetchEndEmpty rfl rfl hnone) rfl rfl) <|
    run_idleRounds hc k rfl rfl rfl rfl, ?_⟩
  exact {
    trace := congrArg (s.trace ++ ·) (if_pos hposted)
    submitted := hnil.symm
    done_once := rfl
    empty := Eq.trans (b := (s.contents .tx).drop s.cfg.txChunk.val) (contents_fetched hI rfl rfl rfl)
      (by rw [hnil, List.drop_nil])
    idle := rfl
    not_busy := rfl
    count_zero := rfl }

/-- With bytes buffered the round's fetch is of at least one byte. -/
theorem exists_chunkSent_of_buffered (h0 : s.tx.fill s.cfg.nTx.val ≠ 0) (ht : s.turns = roundTurns count (k + 1)) :
    ∃ (m : State) (u : State), step s = .next m ∧ step m = .next u ∧ u.turns = roundTurns count k ∧ ChunkSent s u := by
  obtain ⟨hposted, hb⟩ := hs
  have hsome : min s.cfg.txChunk.val (s.tx.fill s.cfg.nTx.val) ≠ 0 :=
    Nat.ne_of_gt (Nat.lt_min.mpr ⟨s.cfg.txChunk.pos, Nat.pos_of_ne_zero h0⟩)
  have h1 : step s = .next (s.fetchBegun (.fetchEnd true :: roundTurns count k)) :=
    step_of_outDone hc ht (.outDoneFetches hb hposted hp)
  have h2 := StepTo.fetchEnd (s := s.fetchBegun (.fetchEnd true :: roundTurns count k)) rfl rfl hsome (Nat.min_le_left _ _)
  have hgot : (s.fetchBegun (.fetchEnd true :: roundTurns count k)).gotBytes .tx =
      (s.contents .tx).take s.cfg.txChunk.val := gotBytes_of_getBegin rfl rfl rfl rfl rfl
  refine ⟨_, _, h1, h2.step_eq_of_completion rfl rfl, rfl, ?_⟩
  exact {
    cfg := rfl
    inv := h2.inv ((step_to h1).inv hI)
    inFlight := ⟨rfl, rfl⟩
    not_stopping := hp
    contents := contents_fetched hI rfl rfl rfl
    trace := ⟨_, congrArg (fun data => s.trace ++ [Output.submit (.send _ data)]) hgot⟩ }

end

/-- A round more than the chunks buffered, at most, drains the ring. -/
theorem exists_drained_of_rounds {count : Nat} (hc : count < 65536) (k : Nat) {s : State} (hI : s.Inv) (hs : s.InFlight)
    (hp : s.txStopPending = false) (hfill : s.tx.fill s.cfg.nTx.val ≤ k * s.cfg.txChunk.val)
    (ht : s.turns = roundTurns count (k + 1)) :
    ∃ t out, Host.Core.run Sys2Proof.core (2 * (k + 1)) s = .next t ∧ Drained s t out := by
  induction k generalizing s with
  | zero => exact exists_drained_of_empty hc hI hs hp (by simpa using hfill) ht
  | succ k ih =>
    by_cases h0 : s.tx.fill s.cfg.nTx.val = 0
    · exact exists_drained_of_empty hc hI hs hp h0 ht
    · obtain ⟨m, u, h1, h2, hut, hsent⟩ := exists_chunkSent_of_buffered hc hI hs hp h0 ht
      obtain ⟨t, out, hrun, hd⟩ := ih hsent.inv hsent.inFlight hsent.not_stopping (hsent.fill_le hfill) hut
      obtain ⟨out, hdrained⟩ := hsent.drained hd
      exact ⟨t, out, run_succ_of_step h1 (run_succ_of_step h2 hrun), hdrained⟩

/-- Settles O51: the rounds the statement writes out are `roundTurns`, and `Drained` is what it asks for. -/
theorem roundsTransmitEveryBufferedByte : Obligations.RoundsTransmitEveryBufferedByte := by
  intro s k count hI hs hb hp hc hfill ht
  obtain ⟨t, out, hrun, hd⟩ := exists_drained_of_rounds hc k hI ⟨hs, hb⟩ hp hfill ht
  exact ⟨t, out, hrun, hd.trace, hd.submitted, hd.done_once, hd.empty, hd.idle, hd.not_busy, hd.count_zero⟩

end Sys2Proof.Machine
end

section
/-! R189: in normal operation every accepted byte is submitted, once. Safety is the queue law along the execution. Liveness: while
bytes are buffered the TxPump is at work or a kick that puts it to work is due, and a pump at work takes bytes from the ring
sooner or later, by fairness of `TXP.FETCH_END` and by the `EV_OUT_DONE` the transport owes. -/

namespace Sys2Proof.Machine

/-- A fetch of at least one byte is in progress. -/
def State.FetchesBytes (s : State) : Prop := s.tx.cp.busy = true ∧ 0 < s.tx.cp.n

/-- The TxPump is at work: it fetches bytes, or a transfer is in flight whose end begins a fetch. -/
def State.TxAtWork (s : State) : Prop := s.FetchesBytes ∨ s.InFlight

/-- The next step is one of normal operation as R189 assumes it. -/
structure State.NormalStep (s : State) : Prop where
  accepted : ∀ ok, s.turns.head? = some (.fetchEnd ok) → s.tx.cp.busy = true → ok = true
  noError : s.nextInstr ≠ some .evOutError
  noStop : s.nextInstr ≠ some .txpStop
  noRingReset : ¬s.resetsNext .tx

/-! ### One instruction -/

section
variable {s t : State} {i : Instr}

/-- Only `TXP_STOP` defers a close (R182). -/
theorem ExecTo.not_stopPending (h : ExecTo s i t) (hp : s.txStopPending = false) (hi : i ≠ .txpStop) :
    t.txStopPending = false := by
  cases h with
  | txpStopDeferred => exact absurd rfl hi
  | outDoneReleases | outErrorReleases => rfl
  | _ => exact hp

/-- A fetch begun with bytes buffered is of at least one (R185). -/
theorem fetchesBytes_of_getBegin (hf : 0 < s.tx.fill s.cfg.nTx.val)
    (ht : t.tx = s.tx.getBegin s.cfg.nTx.val s.cfg.txChunk.val) : t.FetchesBytes := by
  rw [State.FetchesBytes, ht]
  exact ⟨rfl, Nat.lt_min.mpr ⟨s.cfg.txChunk.pos, hf⟩⟩

/-- A transfer stays in flight until its terminal event, and a completed one begins a fetch (R183). -/
theorem ExecTo.txAtWork_of_inFlight (h : ExecTo s i t) (hs : s.InFlight) (hp : s.txStopPending = false)
    (hf : 0 < s.tx.fill s.cfg.nTx.val) (hi : i ≠ .evOutError) : t.TxAtWork := by
  cases h with
  | outDoneFetches => exact .inl (fetchesBytes_of_getBegin hf rfl)
  | outDoneReleases _ _ hstop => nomatch hp.symm.trans hstop
  | outErrorReleases | outErrorTaken => exact absurd rfl hi
  | txpKickIdle _ hidle => nomatch hs.1.symm.trans hidle
  | _ => exact .inr hs

theorem ExecTo.fetchesBytes_of_outDone {n : Nat} (h : ExecTo s (.evOutDone n) t) (hs : s.InFlight)
    (hp : s.txStopPending = false) (hf : 0 < s.tx.fill s.cfg.nTx.val) : t.FetchesBytes := by
  cases h with
  | held ha => nomatch ha
  | outDoneIgnored hdeaf => nomatch (s.txpListens_iff.mpr hs).symm.trans hdeaf
  | outDoneReleases _ _ hstop => nomatch hp.symm.trans hstop
  | outDoneFetches => exact fetchesBytes_of_getBegin hf rfl

/-- An accepted kick puts the pump to work if bytes are buffered (R181). -/
theorem ExecTo.txAtWork_of_kick (h : ExecTo s .txpKick t) (hb : s.tx.cp.busy = false) (hf : 0 < s.tx.fill s.cfg.nTx.val) :
    t.TxAtWork := by
  cases h with
  | held ha => simp [State.accepts, hb] at ha
  | txpKickIdle => exact .inl (fetchesBytes_of_getBegin hf rfl)
  | txpKickPosted _ hs => exact .inr ⟨hs, hb⟩

end

/-! ### One step -/

section
variable {s t : State}

theorem fill_pos_of_contents (h : s.contents .tx ≠ []) : 0 < s.tx.fill s.cfg.nTx.val := by
  simpa using List.length_pos_iff.mpr h

/-- The instruction a step runs, in a state that differs from the step's in what the surroundings hold only. -/
theorem exec_of_nextInstr {i : Instr} (h : step s = .next t) (hi : s.nextInstr = some i) :
    ∃ u, ExecTo u i t ∧ u.tx = s.tx ∧ u.cfg = s.cfg ∧ u.txpState = s.txpState ∧ u.txStopPending = s.txStopPending := by
  rcases nextInstr_eq_some.mp hi with ⟨ok, rest, c, ht, hp, hd⟩ | ⟨w, rest, ht, hd⟩
  · exact ⟨_, exec_to ((step_of_command ht hp hd).symm.trans h), rfl, rfl, rfl, rfl⟩
  · exact ⟨_, exec_to ((step_of_event ht hd).symm.trans h), rfl, rfl, rfl, rfl⟩

theorem fetchesBytes_of_outDone {n : Nat} (h : step s = .next t) (hi : s.nextInstr = some (.evOutDone n))
    (hs : s.InFlight) (hp : s.txStopPending = false) (hc : s.contents .tx ≠ []) : t.FetchesBytes := by
  obtain ⟨u, he, htx, hcfg, hstate, hstop⟩ := exec_of_nextInstr h hi
  refine he.fetchesBytes_of_outDone ?_ (hstop.trans hp) ?_
  · rwa [State.InFlight, hstate, htx]
  · rw [htx, hcfg]
    exact fill_pos_of_contents hc

theorem txAtWork_of_kick (h : step s = .next t) (hi : s.nextInstr = some .txpKick) (hb : s.tx.cp.busy = false)
    (hc : s.contents .tx ≠ []) : t.TxAtWork := by
  obtain ⟨u, he, htx, hcfg, -, -⟩ := exec_of_nextInstr h hi
  refine he.txAtWork_of_kick (htx ▸ hb) ?_
  rw [htx, hcfg]
  exact fill_pos_of_contents hc

section
variable (h : StepTo s t) (hn : s.NormalStep)
include h hn

theorem StepTo.not_stopPending (hp : s.txStopPending = false) : t.txStopPending = false := by
  cases h with
  | command ht hpres hd he =>
    have hi := nextInstr_eq_some.mpr (.inl ⟨_, _, _, ht, hpres, hd⟩)
    exact he.not_stopPending hp fun hstop => hn.noStop (hstop ▸ hi)
  | event ht hd he =>
    have hi := nextInstr_eq_some.mpr (.inr ⟨_, _, ht, hd⟩)
    exact he.not_stopPending hp fun hstop => hn.noStop (hstop ▸ hi)
  | reset => rfl
  | _ => exact hp

/-- A fetch of bytes stays in progress until its completion, which takes them from the ring and submits them. -/
theorem StepTo.fetchesBytes (hI : s.Inv) (hs : s.FetchesBytes) :
    t.FetchesBytes ∨ t.InFlight ∧ s.releasedNext .tx ≠ [] := by
  have ⟨hb, hpos⟩ := hs
  cases h with
  | command _ _ _ he => exact .inl (by rwa [State.FetchesBytes, (he.tx_cp_eq hb).1])
  | event _ _ he => exact .inl (by rwa [State.FetchesBytes, (he.tx_cp_eq hb).1])
  | fetchEndPasses _ hidle => nomatch hb.symm.trans hidle
  | fetchEndEmpty _ _ h0 => exact absurd h0 (Nat.ne_of_gt hpos)
  | fetchEnd ht =>
    have hu := congrArg List.head? ht
    obtain rfl := hn.accepted _ hu hb
    refine .inr ⟨⟨rfl, rfl⟩, ?_⟩
    rw [← gotBytes_eq_released (r := .tx) hI.tx hb hu rfl, ← List.length_pos_iff, gotBytes_length]
    exact hpos
  | reset ht => exact absurd (.inl (congrArg List.head? ht)) hn.noRingReset
  | _ => exact .inl hs

theorem StepTo.txAtWork_of_inFlight (hs : s.InFlight) (hp : s.txStopPending = false) (hc : s.contents .tx ≠ []) :
    t.TxAtWork := by
  cases h with
  | command ht hpres hd he =>
    have hi := nextInstr_eq_some.mpr (.inl ⟨_, _, _, ht, hpres, hd⟩)
    exact he.txAtWork_of_inFlight hs hp (fill_pos_of_contents hc) fun herror => hn.noError (herror ▸ hi)
  | event ht hd he =>
    have hi := nextInstr_eq_some.mpr (.inr ⟨_, _, ht, hd⟩)
    exact he.txAtWork_of_inFlight hs hp (fill_pos_of_contents hc) fun herror => hn.noError (herror ▸ hi)
  | fetchEndEmpty _ hb | fetchEnd _ hb => nomatch hs.2.symm.trans hb
  | reset ht => exact absurd (.inl (congrArg List.head? ht)) hn.noRingReset
  | _ => exact .inr hs

/-- While bytes are buffered a pump at work stays at work. -/
theorem StepTo.txAtWork (hI : s.Inv) (hs : s.TxAtWork) (hp : s.txStopPending = false) (hc : s.contents .tx ≠ []) :
    t.TxAtWork := by
  rcases hs with hfetch | hflight
  · exact (h.fetchesBytes hn hI hfetch).imp_right And.left
  · exact h.txAtWork_of_inFlight hn hflight hp hc

end

end

/-! ### Executions -/

theorem State.Inv.given {s : State} (h : s.Inv) (x : Stimulus) : (s.given x).Inv := { h with }

theorem acceptedBytes_prefix (inputs : Nat → Stimulus) (states : Nat → State) {k j : Nat} (h : k ≤ j) :
    acceptedBytes inputs states k <+: acceptedBytes inputs states j := by
  induction j, h using Nat.le_induction with
  | base => exact List.prefix_rfl
  | succ j _ ih => exact ih.trans (List.prefix_append _ _)

section
variable {inputs : Nat → Stimulus} {states : Nat → State}

theorem Execution.stepTo (hx : Execution inputs states) (k : Nat) :
    StepTo ((states k).given (inputs k)) (states (k + 1)) := step_to (hx k)

theorem NormalTransmission.normalStep (hn : NormalTransmission inputs states) (k : Nat) :
    ((states k).given (inputs k)).NormalStep where
  accepted ok hu := hn.accepted k ok (Option.some.inj hu)
  noError := hn.noError k
  noStop := hn.noStop k
  noRingReset := not_or.mpr ⟨fun hu => hn.noReset k (Option.some.inj hu), hn.noRingReset k⟩

theorem Execution.inv (hx : Execution inputs states) (hI : (states 0).Inv) (k : Nat) : (states k).Inv := by
  induction k with
  | zero => exact hI
  | succ k ih => exact (hx.stepTo k).inv (ih.given _)

section
variable (hx : Execution inputs states) (hn : NormalTransmission inputs states) (hI : (states 0).Inv)
include hx

theorem Execution.trace_append (k : Nat) : ∃ out, (states k).trace = (states 0).trace ++ out := by
  induction k with
  | zero => exact ⟨[], (List.append_nil _).symm⟩
  | succ k ih =>
    obtain ⟨before, hbefore⟩ := ih
    obtain ⟨out, hout, -⟩ := (hx.stepTo k).trace_append
    exact ⟨before ++ out, by rw [hout, State.given_trace, hbefore, List.append_assoc]⟩

include hI

/-- What is submitted grows by what the step releases. -/
theorem Execution.transmittedBytes_succ (k : Nat) : transmittedBytes states (k + 1) =
    transmittedBytes states k ++ ((states k).given (inputs k)).releasedNext .tx := by
  obtain ⟨before, hbefore⟩ := hx.trace_append k
  obtain ⟨out, hout, hbytes⟩ := (hx.stepTo k).emits_released ((hx.inv hI k).given _)
  rw [State.given_trace, hbefore, List.append_assoc] at hout
  rw [transmittedBytes, transmittedBytes, hout, hbefore, List.drop_left, List.drop_left, submittedBytes_append, hbytes]

theorem Execution.transmittedBytes_prefix {k j : Nat} (h : k ≤ j) :
    transmittedBytes states k <+: transmittedBytes states j := by
  induction j, h using Nat.le_induction with
  | base => exact List.prefix_rfl
  | succ j _ ih => exact hx.transmittedBytes_succ hI j ▸ ih.trans (List.prefix_append _ _)

include hn

theorem Execution.queue_law (k : Nat) :
    (states k).contents .tx ++ ((states k).given (inputs k)).committedNext .tx =
      ((states k).given (inputs k)).releasedNext .tx ++ (states (k + 1)).contents .tx :=
  (hx.stepTo k).queue_law ((hx.inv hI k).given _).tx (hn.normalStep k).noRingReset

/-- Nothing accepted is lost, doubled or reordered: it is submitted, or else still buffered. -/
theorem Execution.acceptedBytes_eq (h0 : (states 0).contents .tx = []) (k : Nat) :
    acceptedBytes inputs states k = transmittedBytes states k ++ (states k).contents .tx := by
  induction k with
  | zero => simp [acceptedBytes, transmittedBytes, submittedBytes, h0]
  | succ k ih =>
    rw [acceptedBytes, ih, List.append_assoc, hx.queue_law hn hI k, hx.transmittedBytes_succ hI k, List.append_assoc]

end

theorem Execution.not_stopPending (hx : Execution inputs states) (hn : NormalTransmission inputs states)
    (hp : (states 0).txStopPending = false) (k : Nat) : (states k).txStopPending = false := by
  induction k with
  | zero => exact hp
  | succ k ih => exact (hx.stepTo k).not_stopPending (hn.normalStep k) ih

/-- A kick that will be accepted is still to come. -/
def KickDue (inputs : Nat → Stimulus) (states : Nat → State) (k : Nat) : Prop :=
  ∃ j, k ≤ j ∧ instrAt inputs states j = some .txpKick ∧ (states j).tx.cp.busy = false

/-- Only a completed put makes an empty ring non-empty, and R189 lets a kick follow it. -/
theorem kickDue_of_committed (hn : NormalTransmission inputs states) {k : Nat}
    (h : ((states k).given (inputs k)).committedNext .tx ≠ []) : KickDue inputs states (k + 1) := by
  by_contra hno
  refine h (committedNext_eq_nil fun u hu hc => eq_false_of_ne_true fun hb => hno ?_)
  obtain rfl := Turn.eq_putEnd_of_commits hc
  exact hn.kicked k (Option.some.inj hu) hb

section
variable (hx : Execution inputs states) (hf : WeaklyFair inputs states) (hn : NormalTransmission inputs states)
  (hI : (states 0).Inv) (hp : (states 0).txStopPending = false)
include hx hn hI hp

/-- Buffered bytes are never forgotten: the pump is at work, or a kick is due. -/
theorem Execution.txAtWork_or_kickDue (h0 : (states 0).contents .tx = []) (k : Nat) :
    (states k).contents .tx = [] ∨ (states k).TxAtWork ∨ KickDue inputs states k := by
  induction k with
  | zero => exact .inl h0
  | succ k ih =>
    by_cases hc : (states k).contents .tx = []
    · by_cases hcommitted : ((states k).given (inputs k)).committedNext .tx = []
      · have hlaw := hx.queue_law hn hI k
        rw [hc, hcommitted, List.append_nil] at hlaw
        exact .inl (List.append_eq_nil_iff.mp hlaw.symm).2
      · exact .inr (.inr (kickDue_of_committed hn hcommitted))
    · right
      rcases ih.resolve_left hc with hwork | ⟨j, hj, hkick, hb⟩
      · exact .inl ((hx.stepTo k).txAtWork (hn.normalStep k) ((hx.inv hI k).given _) hwork (hx.not_stopPending hn hp k) hc)
      · rcases Nat.eq_or_lt_of_le hj with rfl | hlt
        · exact .inl (txAtWork_of_kick (hx k) hkick hb hc)
        · exact .inr ⟨j, hlt, hkick, hb⟩

/-! ### No stall

Were nothing taken from the ring from some point on, buffered bytes would stay, and with them the pump at work. -/

section
variable {k : Nat} (hstall : ∀ j, k ≤ j → ((states j).given (inputs j)).releasedNext .tx = [])
  (hc : (states k).contents .tx ≠ [])
include hstall hc

omit hp in
theorem Execution.contents_of_stall {j : Nat} (hj : k ≤ j) : (states j).contents .tx ≠ [] := by
  induction j, hj using Nat.le_induction with
  | base => exact hc
  | succ j hj ih =>
    have hlaw := hx.queue_law hn hI j
    rw [hstall j hj, List.nil_append] at hlaw
    exact hlaw ▸ List.append_ne_nil_of_left_ne_nil ih _

include hf

omit hp hc in
/-- A fetch would stay in progress for good, against fairness (R13). -/
theorem Execution.not_fetchesBytes_of_stall {j : Nat} (hj : k ≤ j) : ¬(states j).FetchesBytes := by
  intro hfetch
  have hstays : ∀ i, j ≤ i → (states i).FetchesBytes := by
    intro i hi
    induction i, hi using Nat.le_induction with
    | base => exact hfetch
    | succ i hi ih =>
      refine ((hx.stepTo i).fetchesBytes (hn.normalStep i) ((hx.inv hI i).given _) ih).resolve_right fun hreleased => ?_
      exact hreleased.2 (hstall i (hj.trans hi))
  obtain ⟨i, hi, hturn⟩ := hf .fetchEnd j fun i hi => (hstays i hi).1
  have hoff : (states (i + 1)).tx.cp.busy = false := hx.disabled_of_turn hturn
  nomatch (hstays (i + 1) (Nat.le_succ_of_le hi)).1.symm.trans hoff

/-- A transfer would stay in flight until its `EV_OUT_DONE`, which begins a fetch. -/
theorem Execution.not_txAtWork_of_stall {j : Nat} (hj : k ≤ j) : ¬(states j).TxAtWork := by
  have hnofetch : ∀ i, k ≤ i → ¬(states i).FetchesBytes := fun i hi => hx.not_fetchesBytes_of_stall hf hn hI hstall hi
  intro hwork
  have hstays : ∀ i, j ≤ i → (states i).InFlight := by
    intro i hi
    induction i, hi using Nat.le_induction with
    | base => exact hwork.resolve_left (hnofetch j hj)
    | succ i hi ih =>
      have hnext := (hx.stepTo i).txAtWork_of_inFlight (hn.normalStep i) ih (hx.not_stopPending hn hp i)
        (hx.contents_of_stall hn hI hstall hc (hj.trans hi))
      exact hnext.resolve_left (hnofetch (i + 1) (by omega))
  obtain ⟨hposted, hb⟩ := hstays j le_rfl
  obtain ⟨i, count, hi, hdone⟩ := hn.answered j hposted hb
  exact hnofetch (i + 1) (by omega) (fetchesBytes_of_outDone (hx i) hdone (hstays i hi) (hx.not_stopPending hn hp i)
    (hx.contents_of_stall hn hI hstall hc (hj.trans hi)))

end

include hf

/-- While bytes are buffered, some later step takes bytes from the ring. -/
theorem Execution.exists_release (h0 : (states 0).contents .tx = []) {k : Nat} (hc : (states k).contents .tx ≠ []) :
    ∃ j, k ≤ j ∧ ((states j).given (inputs j)).releasedNext .tx ≠ [] := by
  by_contra hno
  have hstall : ∀ j, k ≤ j → ((states j).given (inputs j)).releasedNext .tx = [] := by simpa using hno
  rcases (hx.txAtWork_or_kickDue hn hI hp h0 k).resolve_left hc with hwork | ⟨j, hj, hkick, hb⟩
  · exact hx.not_txAtWork_of_stall hf hn hI hp hstall hc le_rfl hwork
  · exact hx.not_txAtWork_of_stall hf hn hI hp hstall hc (Nat.le_succ_of_le hj)
      (txAtWork_of_kick (hx j) hkick hb (hx.contents_of_stall hn hI hstall hc hj))

/-- So the number of submitted bytes reaches every number of bytes accepted. -/
theorem Execution.exists_transmitted_length (h0 : (states 0).contents .tx = []) (k n : Nat)
    (hle : n ≤ (acceptedBytes inputs states k).length) : ∃ j, k ≤ j ∧ n ≤ (transmittedBytes states j).length := by
  induction n with
  | zero => exact ⟨k, le_rfl, Nat.zero_le _⟩
  | succ n ih =>
    obtain ⟨j, hkj, hj⟩ := ih (Nat.le_of_succ_le hle)
    by_cases hc : (states j).contents .tx = []
    · have hall := hx.acceptedBytes_eq hn hI h0 j
      rw [hc, List.append_nil] at hall
      exact ⟨j, hkj, hall ▸ hle.trans (acceptedBytes_prefix inputs states hkj).length_le⟩
    · obtain ⟨i, hji, hreleased⟩ := hx.exists_release hf hn hI hp h0 hc
      have hgrows := (hx.transmittedBytes_prefix hI hji).length_le
      have hpos := List.length_pos_iff.mpr hreleased
      refine ⟨i + 1, by omega, ?_⟩
      rw [hx.transmittedBytes_succ hI i, List.length_append]
      omega

end

end

/-- Settles O52: the submitted bytes are the accepted ones but for those buffered, and their number catches up. -/
theorem acceptedBytesAreEventuallySubmitted : Obligations.AcceptedBytesAreEventuallySubmitted := by
  intro inputs states hx hf hn hI h0 hp
  have hprefix : ∀ k, transmittedBytes states k <+: acceptedBytes inputs states k :=
    fun k => hx.acceptedBytes_eq hn hI h0 k ▸ List.prefix_append _ _
  refine ⟨hprefix, fun k => ?_⟩
  obtain ⟨j, hkj, hlength⟩ := hx.exists_transmitted_length hf hn hI hp h0 k _ le_rfl
  exact ⟨j, hkj, List.prefix_of_prefix_length_le (acceptedBytes_prefix inputs states hkj) (hprefix j) hlength⟩

end Sys2Proof.Machine
end

section
/-! Which port a legal word belongs to (30_encoding.md R90, R100): class 3 is the event port's. -/

namespace Sys2Proof

theorem clsField_encode_eq_event_iff : ∀ i : Instr, clsField (encode i) = 0x3#4 ↔ i.side = .event
  | .rbPut len => Laws.EncodedPort.rbPut len
  | .rbGet len => Laws.EncodedPort.rbGet len
  | .rbLen r => Laws.EncodedPort.rbLen r
  | .rbReset r => Laws.EncodedPort.rbReset r
  | .rxpStart => Laws.EncodedPort.rxpStart
  | .rxpStop => Laws.EncodedPort.rxpStop
  | .txpKick => Laws.EncodedPort.txpKick
  | .txpStop => Laws.EncodedPort.txpStop
  | .evTick count => Laws.EncodedPort.evTick count
  | .evInDone count => Laws.EncodedPort.evInDone count
  | .evOutDone count => Laws.EncodedPort.evOutDone count
  | .evInError => Laws.EncodedPort.evInError
  | .evOutError => Laws.EncodedPort.evOutError
  | .evInData byte off => Laws.EncodedPort.evInData byte off
  | .regRead idx => Laws.EncodedPort.regRead idx

/-- A legal word is the word of what it decodes to, so its class tells its port. -/
theorem clsField_eq_event_iff {w : Word} {i : Instr} (h : decode w = .ok i) : clsField w = 0x3#4 ↔ i.side = .event := by
  obtain ⟨-, hw⟩ := encodeAfterDecodeIsIdentity w i h
  rw [← clsField_encode_eq_event_iff, hw]

theorem Side.ne_command_iff {p : Side} : p ≠ .command ↔ p = .event := by
  cases p <;> simp

/-- A port refuses exactly the legal words of the other port. -/
theorem decodeOn_refuses {p : Side} {w : Word} {i : Instr} (h : decode w = .ok i) :
    (∃ e, decodeOn p w = .error e) ↔ i.side ≠ p := by
  by_cases hs : i.side = p <;> simp [decodeOn, h, hs]

end Sys2Proof
end

section
/-! The statements of 43_system.md: a `REG_READ` returns the register (R210, R43), an illegal word is answered and nothing else
(R211). -/

namespace Sys2Proof.Machine

/-! ### Illegal words -/

/-- Settles O8: an illegal word ends in the one case `StepTo` has for it on each port; a legal word's class tells its port. -/
theorem illegalWordsChangeNothing : Obligations.IllegalWordsChangeNothing := by
  refine ⟨fun s ok rest c e ht hp hd => ?_, fun s ok rest c later e ht hp hh hd => ?_,
    fun _ _ _ _ => step_of_illegalEvent, fun _ _ hidx => (ExecTo.regReadIllegal hidx).exec_eq rfl,
    fun w i hi => ?_, fun w i hi => ?_⟩
  · rw [step_of_illegalCommand ht (State.present_presented_of_ready (.inl hp)) hd, State.atCommand,
      State.present_of_presented hp]
  · rw [step_of_illegalCommand ht (State.present_presented_of_ready (.inr ⟨hp, later, hh⟩)) hd, State.atCommand,
      State.present_of_host hp hh, hp]
  · rw [decodeOn_refuses hi, Side.ne_command_iff]
    exact clsField_eq_event_iff hi
  · rw [decodeOn_refuses hi]
    exact not_congr (clsField_eq_event_iff hi)

/-! ### The status registers as numbers (R43) -/

theorem toNat_zext {width v : Nat} (hv : v < 2 ^ width) (hwidth : width ≤ 32 := by decide) : (zext width v).toNat = v := by
  have hword : v < 2 ^ 32 := hv.trans_le (Nat.pow_le_pow_right (by decide) hwidth)
  rw [zext, BitVec.toNat_setWidth, BitVec.toNat_ofNat, Nat.mod_eq_of_lt hv, Nat.mod_eq_of_lt hword]

/-- Bit 0 comes first: the bits behind it count double. -/
theorem toNat_wordOfBits_cons (b : Bool) (bits : List Bool) :
    (wordOfBits (b :: bits)).toNat = (b.toNat + 2 * (wordOfBits bits).toNat) % 2 ^ 32 := by
  have hb := b.toNat_lt
  have hbit : b.toNat % 2 ^ 32 = b.toNat := by omega
  have hshift : (wordOfBits bits).toNat * 2 ^ 1 % 2 ^ 32 = 2 ^ 1 * ((wordOfBits bits).toNat % 2 ^ 31) := by omega
  change (wordOfBits bits <<< 1 ||| (BitVec.ofBool b).setWidth 32).toNat = _
  rw [BitVec.toNat_or, BitVec.toNat_shiftLeft, BitVec.toNat_setWidth, BitVec.toNat_ofBool, Nat.shiftLeft_eq,
    hbit, hshift, ← Nat.two_pow_add_eq_or_of_lt hb]
  omega

theorem toNat_wordOfBits_nil : (wordOfBits []).toNat = 0 := rfl

theorem toNat_wordOfBits_one (a : Bool) : (wordOfBits [a]).toNat = a.toNat := by
  have := a.toNat_lt
  rw [toNat_wordOfBits_cons, toNat_wordOfBits_nil]
  omega

theorem RxpState.toNat_bit (q : RxpState) : q.bit.toNat = if q = .receivePosted then 1 else 0 := by
  cases q <;> rfl

theorem TxpState.toNat_bit (q : TxpState) : q.bit.toNat = if q = .sendPosted then 1 else 0 := by
  cases q <;> rfl

theorem State.toNat_portStatus (s : State) : s.portStatus.toNat =
    s.rx.pp.busy.toNat + 2 * s.rx.cp.busy.toNat + 4 * s.tx.pp.busy.toNat + 8 * s.tx.cp.busy.toNat := by
  have := s.rx.pp.busy.toNat_lt
  have := s.rx.cp.busy.toNat_lt
  have := s.tx.pp.busy.toNat_lt
  have := s.tx.cp.busy.toNat_lt
  simp only [State.portStatus, toNat_wordOfBits_cons, toNat_wordOfBits_nil]
  omega

theorem State.toNat_rxpStatus (s : State) :
    s.rxpStatus.toNat = (if s.rxpState = .receivePosted then 1 else 0) + 2 * s.rxDone.toNat := by
  have := s.rxpState.bit.toNat_lt
  have := s.rxDone.toNat_lt
  simp only [State.rxpStatus, toNat_wordOfBits_cons, toNat_wordOfBits_nil, ← RxpState.toNat_bit]
  omega

theorem State.toNat_txpStatus (s : State) : s.txpStatus.toNat =
    (if s.txpState = .sendPosted then 1 else 0) + 2 * s.txBusy.toNat + 4 * s.txStopPending.toNat := by
  have := s.txpState.bit.toNat_lt
  have := s.txBusy.toNat_lt
  have := s.txStopPending.toNat_lt
  simp only [State.txpStatus, toNat_wordOfBits_cons, toNat_wordOfBits_nil, ← TxpState.toNat_bit]
  omega

/-! ### The widths of the fields (R43) -/

theorem lt_two_pow_of_le_size {n : Nat} {N : Size} (h : n ≤ N.val) : n < 2 ^ 16 :=
  Nat.lt_succ_of_le (h.trans N.le)

/-- An index counter has one bit more than the sizes. -/
theorem lt_two_pow_of_lt_double_size {n : Nat} {N : Size} (h : n < 2 * N.val) : n < 2 ^ 17 := by
  have := N.le
  omega

/-! ### `REG_READ` -/

/-- A read of a register that holds the number `n` answers that number and changes nothing else. -/
theorem exec_regRead {s : State} {idx n : Nat} {v : Word} (hr : s.register idx = some v) (hv : v.toNat = n) :
    ∃ v : Word, v.toNat = n ∧
      exec (.regRead idx) s = .next { s with presented := none, trace := s.trace ++ [.result .ok v] } :=
  ⟨v, hv, (ExecTo.regRead hr).exec_eq rfl⟩

/-- Settles O53: the invariant keeps each value within the width of its field. -/
theorem regReadReturnsTheRegister : Obligations.RegReadReturnsTheRegister := by
  refine fun s hI => ⟨?_, fun _ hidx => (ExecTo.regReadIllegal hidx).exec_eq rfl⟩
  simp only [List.forall_mem_cons]
  exact
    ⟨exec_regRead rfl (toNat_zext (lt_two_pow_of_lt_double_size hI.rx.wr_lt)),
      exec_regRead rfl (toNat_zext (lt_two_pow_of_lt_double_size hI.rx.rd_lt)),
      exec_regRead rfl (toNat_zext (lt_two_pow_of_le_size hI.rx.fill_le)),
      exec_regRead rfl (toNat_zext (lt_two_pow_of_le_size le_rfl)),
      exec_regRead rfl (toNat_zext (lt_two_pow_of_lt_double_size hI.tx.wr_lt)),
      exec_regRead rfl (toNat_zext (lt_two_pow_of_lt_double_size hI.tx.rd_lt)),
      exec_regRead rfl (toNat_zext (lt_two_pow_of_le_size hI.tx.fill_le)),
      exec_regRead rfl (toNat_zext (lt_two_pow_of_le_size le_rfl)),
      exec_regRead rfl s.toNat_portStatus,
      exec_regRead rfl s.toNat_rxpStatus,
      exec_regRead rfl (toNat_zext hI.rxPrev_lt),
      exec_regRead rfl (toNat_zext (Nat.lt_succ_of_le hI.drop_le)),
      exec_regRead rfl s.toNat_txpStatus,
      exec_regRead rfl (toNat_zext (lt_two_pow_of_le_size hI.txCount_le)),
      exec_regRead rfl (toNat_zext (lt_two_pow_of_le_size le_rfl)),
      exec_regRead rfl (toNat_zext (lt_two_pow_of_le_size le_rfl)),
      exec_regRead rfl (toNat_wordOfBits_one _), List.forall_mem_nil _⟩

end Sys2Proof.Machine
end

section
/-! The statements of 60_exceptions.md: which step emits which symbol (R226, R228), none twice, and that what addresses one side
of the block leaves the other as it is (R221). A symbol comes from an instruction the step runs (`ExecEmits`), or from a
completion step or an illegal word (`TurnEmits`). -/

namespace Sys2Proof.Machine

/-! ### What a step appends to the trace -/

/-- From `s` to `t` the trace gains symbols that each have a cause, none of them twice. -/
def Appends (s t : State) (cause : Output → Prop) : Prop :=
  ∃ out, t.trace = s.trace ++ out ∧ out.Nodup ∧ ∀ x ∈ out, cause x

section
variable {s t : State} {cause cause' : Output → Prop} {x y : Output}

theorem Appends.nothing (h : t.trace = s.trace) : Appends s t cause :=
  ⟨[], by rw [h, List.append_nil], List.nodup_nil, List.forall_mem_nil _⟩

theorem Appends.one (h : t.trace = s.trace ++ [x]) (hx : cause x) : Appends s t cause :=
  ⟨[x], h, List.nodup_singleton x, List.forall_mem_singleton.mpr hx⟩

theorem Appends.two (h : t.trace = s.trace ++ [x, y]) (hne : x ≠ y) (hx : cause x) (hy : cause y) : Appends s t cause :=
  ⟨[x, y], h, List.nodup_cons.mpr ⟨by simpa using hne, List.nodup_singleton y⟩,
    List.forall_mem_cons.mpr ⟨hx, List.forall_mem_singleton.mpr hy⟩⟩

theorem Appends.mono (h : Appends s t cause) (himp : ∀ x, cause x → cause' x) : Appends s t cause' := by
  obtain ⟨out, htrace, hnodup, hcause⟩ := h
  exact ⟨out, htrace, hnodup, fun x hx => himp x (hcause x hx)⟩

/-- The symbols a step appends are determined by the two traces. -/
theorem Appends.of_trace (h : Appends s t cause) {out : List Output} (htrace : t.trace = s.trace ++ out) :
    out.Nodup ∧ ∀ x ∈ out, cause x := by
  obtain ⟨out', htrace', hall⟩ := h
  exact List.append_cancel_left (htrace'.symm.trans htrace) ▸ hall

end

/-! ### Causes -/

/-- What it takes for instruction `i` to be answered with a status and the value `v` (R108, R226). -/
def AnswersWith (i : Instr) (v : Word) : Status → Prop
  | .ok => True
  | .busy => i = .txpStop ∧ v = 0
  | .deferred => i = .txpStop ∧ v = 0
  | .notAttached => i = .rxpStart ∧ v = 0
  | .illegal => v = 0 ∧ ∃ idx, i = .regRead idx ∧ 0x10 < idx

/-- What it takes for instruction `i`, run from `s` to `t`, to emit a symbol (R226, R228). -/
def ExecEmits (s t : State) (i : Instr) : Output → Prop
  | .result st v => i.side = .command ∧ AnswersWith i v st
  | .resultData _ _ _ => False
  | .rxReady => False
  | .txDone => False
  | .xferError .bulkIn => i = .evInError ∧ s.rxpState = .receivePosted ∧ t.rxpState = .idle
  | .xferError .bulkOut => i = .evOutError ∧ s.txpState = .sendPosted ∧ t.txpState = .idle
  | .txReleased => t.txpState = .idle ∧
      (t.txBusy = false ∧ s.txpState = .sendPosted ∧ s.txStopPending = true ∧
          ((∃ n, i = .evOutDone n) ∨ i = .evOutError) ∨
        t.txBusy = s.txBusy ∧ s.txpState = .idle ∧ i = .txpStop)
  | .submit _ => True
  | .abortIn => i = .rxpStop ∧ s.rxpState = .receivePosted ∧ t.rxpState = .idle

/-- The next step is the command port's, on a word that does not decode there (R211). -/
def State.IllegalWordNext (s : State) : Prop :=
  ∃ ok rest c e, s.turns = .command ok :: rest ∧ s.present.presented = some c ∧ decodeOn .command c.word = .error e

/-- What it takes for a step from `s` to `t` that runs no instruction to emit a symbol: a completion step that is enabled, or an
illegal word. -/
def TurnEmits (s t : State) : Output → Prop
  | .result st v => s.turns.head? = some .putEnd ∧ s.tx.pp.busy = true ∧ st = .ok ∨
      s.IllegalWordNext ∧ st = .illegal ∧ v = 0
  | .resultData st _ _ => s.turns.head? = some .getEnd ∧ s.rx.cp.busy = true ∧ st = .ok
  | .rxReady => (∃ ok, s.turns.head? = some (.drainEnd ok)) ∧ s.rx.pp.busy = true ∧ 0 < s.rxC
  | .txDone => (∃ ok, s.turns.head? = some (.fetchEnd ok)) ∧ s.tx.cp.busy = true ∧ s.tx.cp.n = 0 ∧
      s.txpState = .sendPosted ∧ t.txpState = .idle
  | .xferError _ => False
  | .txReleased => False
  | .submit _ => True
  | .abortIn => False

/-- What it takes for a step from `s` to `t` to emit a symbol. -/
def StepEmits (s t : State) (x : Output) : Prop :=
  (∃ i, s.nextInstr = some i ∧ ExecEmits s t i x) ∨ TurnEmits s t x

/-- Every symbol of an instruction has its cause. -/
theorem ExecTo.appends {s t : State} {i : Instr} (h : ExecTo s i t) : Appends s t (ExecEmits s t i) := by
  cases h with
  | held | rbPut | rbGet | tickIgnored | tickRecorded | tickDelivers | inDoneIgnored | inDoneDelivers | inErrorIgnored
  | outDoneIgnored | outDoneFetches | outErrorIgnored | inDataIgnored | inDataStaged => exact .nothing rfl
  | rbLen | rbResetRx | rbResetTx | rxpStartPosted | rxpStopIdle | txpKickIdle | txpKickPosted | regRead =>
    exact .one rfl ⟨rfl, trivial⟩
  | txpStopDeferred | txpStopBusy => exact .one rfl ⟨rfl, rfl, rfl⟩
  | regReadIllegal hidx => exact .one rfl ⟨rfl, rfl, _, rfl, hidx⟩
  | rxpStartArmed => exact .two rfl nofun trivial ⟨rfl, trivial⟩
  | rxpStartRefused => exact .two rfl nofun trivial ⟨rfl, rfl, rfl⟩
  | rxpStopPosted _ hs => exact .two rfl nofun ⟨rfl, hs, rfl⟩ ⟨rfl, trivial⟩
  | txpStopIdle _ hs => exact .two rfl nofun ⟨hs, .inr ⟨rfl, hs, rfl⟩⟩ ⟨rfl, trivial⟩
  | inErrorTaken _ hs | outErrorTaken _ hs => exact .one rfl ⟨rfl, hs, rfl⟩
  | outDoneReleases _ hs hp => exact .one rfl ⟨rfl, .inl ⟨rfl, hs, hp, .inl ⟨_, rfl⟩⟩⟩
  | outErrorReleases _ hs hp => exact .two rfl nofun ⟨rfl, hs, rfl⟩ ⟨rfl, .inl ⟨rfl, hs, hp, .inr rfl⟩⟩

/-- Every symbol of a step has its cause. -/
theorem StepTo.appends {s t : State} (h : StepTo s t) : Appends s t (StepEmits s t) := by
  cases h with
  | command ht hp hd he =>
    have hnext := nextInstr_eq_some.mpr (.inl ⟨_, _, _, ht, hp, hd⟩)
    exact he.appends.mono fun _ hx => .inl ⟨_, hnext, hx⟩
  | event ht hd he =>
    have hnext := nextInstr_eq_some.mpr (.inr ⟨_, _, ht, hd⟩)
    exact he.appends.mono fun _ hx => .inl ⟨_, hnext, hx⟩
  | illegalCommand ht hp hd => exact .one rfl (.inr (.inr ⟨⟨_, _, _, _, ht, hp, hd⟩, rfl, rfl⟩))
  | putEnd ht hb => exact .one rfl (.inr (.inl ⟨congrArg List.head? ht, hb, rfl⟩))
  | getEnd ht hb => exact .one rfl (.inr ⟨congrArg List.head? ht, hb, rfl⟩)
  | drainEnd ht hb =>
    by_cases hc : 0 < s.rxC
    · simp only [hc, if_true]
      exact .two rfl nofun (.inr ⟨⟨_, congrArg List.head? ht⟩, hb, hc⟩) (.inr trivial)
    · simp only [hc, if_false]
      exact .one rfl (.inr trivial)
  | fetchEndEmpty ht hb h0 =>
    by_cases hs : s.txpState = .sendPosted
    · simp only [hs, if_true]
      exact .one rfl (.inr ⟨⟨_, congrArg List.head? ht⟩, hb, h0, hs, rfl⟩)
    · simp only [hs, if_false]
      exact .nothing (List.append_nil _)
  | fetchEnd => exact .one rfl (.inr trivial)
  | noTurn | nothingPresented | illegalEvent | putEndPasses | getEndPasses | drainEndPasses | fetchEndPasses | reset =>
    exact .nothing rfl

/-- Settles O23: each notification has its one kind of cause; a stop that releases finds the pump `Idle`, hence not busy (R41). -/
theorem notificationsComeOnlyFrom : Obligations.NotificationsComeOnlyFrom := by
  intro s t out hI h htrace
  obtain ⟨hnodup, hcause⟩ := (step_to h).appends.of_trace htrace
  refine ⟨fun hx => ?_, fun hx => ?_, fun hx => ?_, fun hx => ?_, fun hx => ?_, fun hx => ?_, hnodup⟩
  · exact (hcause _ hx).resolve_left fun ⟨_, _, hnot⟩ => hnot
  · exact (hcause _ hx).resolve_left fun ⟨_, _, hnot⟩ => hnot
  · obtain ⟨_, hi, rfl, hpump⟩ := (hcause _ hx).resolve_right id
    exact ⟨hi, hpump⟩
  · obtain ⟨_, hi, rfl, hpump⟩ := (hcause _ hx).resolve_right id
    exact ⟨hi, hpump⟩
  · obtain ⟨i, hi, hidle, hwhy⟩ := (hcause _ hx).resolve_right id
    simp only [hi, Option.some.injEq]
    rcases hwhy with ⟨hbusy, hterminal⟩ | ⟨hbusy, hstop⟩
    · exact ⟨hidle, hbusy, .inl hterminal⟩
    · have hs : s.txBusy = false := eq_false_of_ne_true fun hb => nomatch hstop.1.symm.trans (hI.txBusy_iff.mp hb)
      exact ⟨hidle, hbusy.trans hs, .inr hstop⟩
  · obtain ⟨_, hi, rfl, hpump⟩ := (hcause _ hx).resolve_right id
    exact ⟨hi, hpump⟩

/-! ### Results -/

/-- A command is run by the command port (R90). -/
theorem exists_command_turn {s : State} {i : Instr} (hi : s.nextInstr = some i) (hside : i.side = .command) :
    ∃ ok, s.turns.head? = some (.command ok) := by
  rcases nextInstr_eq_some.mp hi with ⟨ok, _, _, ht, -, -⟩ | ⟨_, _, -, hd⟩
  · exact ⟨ok, congrArg List.head? ht⟩
  · nomatch hside.symm.trans (decodeOn_eq_ok.mp hd).2

/-- Settles O24: a result answers a command, an illegal word or the end of a put, none of which is an event. -/
theorem statusesComeOnlyFrom : Obligations.StatusesComeOnlyFrom := by
  intro s t out h htrace
  obtain ⟨-, hcause⟩ := (step_to h).appends.of_trace htrace
  have hdata : ∀ st v data, .resultData st v data ∈ out →
      s.turns.head? = some .getEnd ∧ s.rx.cp.busy = true ∧ st = .ok :=
    fun st v data hx => (hcause _ hx).resolve_left fun ⟨_, _, hnot⟩ => hnot
  refine ⟨fun st v hx => ?_, hdata, fun w hw st v data => ⟨fun hx => ?_, fun hx => ?_⟩⟩
  · rcases hcause _ hx with ⟨i, hi, hside, hans⟩ | ⟨ht, hb, rfl⟩ | ⟨hill, rfl, rfl⟩
    · simp only [hi, Option.some.injEq]
      have hanswer : ∀ st', st = st' → AnswersWith i v st' := fun _ hst => hst ▸ hans
      exact ⟨.inl (exists_command_turn hi hside), hanswer .busy, hanswer .deferred, hanswer .notAttached,
        fun hst => (hanswer .illegal hst).imp_right .inr⟩
    · exact ⟨.inr ⟨ht, hb, rfl⟩, nofun, nofun, nofun, nofun⟩
    · have ⟨ok, _, _, _, ht, _⟩ := hill
      exact ⟨.inl ⟨ok, congrArg List.head? ht⟩, nofun, nofun, nofun, fun _ => ⟨rfl, .inl hill⟩⟩
  · rcases hcause _ hx with ⟨_, hi, hside, -⟩ | ⟨ht, -⟩ | ⟨⟨_, _, _, _, ht, -⟩, -⟩
    · obtain ⟨_, ht⟩ := exists_command_turn hi hside
      nomatch ht.symm.trans hw
    · nomatch ht.symm.trans hw
    · nomatch (congrArg List.head? ht).symm.trans hw
  · nomatch (hdata st v data hx).1.symm.trans hw

/-! ### The two sides of the block -/

/-- The side of the block an instruction addresses; `RB_LEN` and `REG_READ` only look. -/
def addressedSide : Instr → Option Ring
  | .rbPut _ => some .tx
  | .rbGet _ => some .rx
  | .rbLen _ => none
  | .rbReset r => some r
  | .rxpStart => some .rx
  | .rxpStop => some .rx
  | .txpKick => some .tx
  | .txpStop => some .tx
  | .evTick _ => some .rx
  | .evInDone _ => some .rx
  | .evOutDone _ => some .tx
  | .evInError => some .rx
  | .evOutError => some .tx
  | .evInData _ _ => some .rx
  | .regRead _ => none

section
variable {s t : State} {i : Instr}

/-- What does not address the transmit side leaves it. -/
theorem ExecTo.txSide_eq (h : ExecTo s i t) (hi : addressedSide i ≠ some .tx) :
    t.tx = s.tx ∧ t.txpState = s.txpState ∧ t.txStage = s.txStage ∧ t.txCount = s.txCount ∧ t.txBusy = s.txBusy ∧
      t.txStopPending = s.txStopPending := by
  cases h with
  | rbPut | rbResetTx | txpKickIdle | txpStopDeferred | outDoneReleases | outDoneFetches | outErrorReleases
  | outErrorTaken => exact absurd rfl hi
  | _ => exact ⟨rfl, rfl, rfl, rfl, rfl, rfl⟩

/-- What does not address the receive side leaves it. -/
theorem ExecTo.rxSide_eq (h : ExecTo s i t) (hi : addressedSide i ≠ some .rx) :
    t.rx = s.rx ∧ t.rxpState = s.rxpState ∧ t.rxStage = s.rxStage ∧ t.rxPrev = s.rxPrev ∧ t.rxDone = s.rxDone ∧
      t.rxC = s.rxC ∧ t.rxDrop = s.rxDrop := by
  cases h with
  | rbGet | rbResetRx | rxpStartArmed | rxpStartRefused | rxpStopPosted | tickRecorded | tickDelivers | inDoneDelivers
  | inErrorTaken | inDataStaged => exact absurd rfl hi
  | _ => exact ⟨rfl, rfl, rfl, rfl, rfl, rfl, rfl⟩

end

/-- Settles O25: the instructions named address the one side, so they leave the other. -/
theorem pumpsAreIndependent : Obligations.PumpsAreIndependent := by
  intro s t i h
  refine ⟨fun hi => (exec_to h).txSide_eq ?_, fun hi => (exec_to h).rxSide_eq ?_⟩
  · rcases hi with ⟨_, rfl⟩ | rfl | rfl | rfl | ⟨_, rfl⟩ | ⟨_, rfl⟩ | rfl | ⟨_, _, rfl⟩ <;> exact nofun
  · rcases hi with ⟨_, rfl⟩ | rfl | rfl | rfl | ⟨_, rfl⟩ | rfl <;> exact nofun

end Sys2Proof.Machine
end

section
/-! `RESET` (70_reset_and_hazards.md R260, R261): the state its step leads to, that the steps which would end an operation find
none there, and that an operation is in progress again only after one of the four instructions that begin one. -/

namespace Sys2Proof.Machine

/-! ### The step -/

/-- The state a `RESET` turn leads to (R260). -/
def State.afterReset (s : State) (rest : List Turn) : State :=
  { State.resetWith s.cfg with
    rx := ringAfterReset .rx (s.epoch + 1) s.cfg.nRx.val
    tx := ringAfterReset .tx (s.epoch + 1) s.cfg.nTx.val
    rxC := unspecifiedCount .rxC (s.epoch + 1) s.cfg.rxStage.val
    host := s.host
    turns := rest
    answer := s.answer
    epoch := s.epoch + 1
    trace := s.trace }

theorem step_of_reset {s : State} {rest : List Turn} (ht : s.turns = .reset :: rest) :
    step s = .next (s.afterReset rest) := step_of_turn ht

/-- Nothing is listed in any of the four memories, so every byte read is a free one (R50). -/
theorem State.memRead_afterReset (s : State) (rest : List Turn) (sp : Space) (a : Nat) :
    (s.afterReset rest).memRead sp a = Config.freeByte sp (s.epoch + 1) a := by
  cases sp <;> rfl

/-- Settles O12: the step goes to `State.afterReset`, whose fields are the values of R50. -/
theorem resetStepRestoresEveryField : Obligations.ResetStepRestoresEveryField := fun s rest ht =>
  ⟨s.afterReset rest, step_of_reset ht, State.Inv.ofResetStep s rest, rfl, rfl, rfl, rfl, rfl, rfl, rfl, rfl, rfl, rfl, rfl,
    rfl, rfl, rfl, rfl, rfl, rfl, rfl, rfl, rfl, rfl, rfl, rfl, rfl, s.memRead_afterReset rest⟩

/-! ### Steps that would end an operation -/

/-- The RxPump is `Idle` and not draining. -/
def State.RxpQuiet (s : State) : Prop := s.rxpState = .idle ∧ s.rx.pp.busy = false

/-- The TxPump is `Idle` and not fetching. -/
def State.TxpQuiet (s : State) : Prop := s.txpState = .idle ∧ s.tx.cp.busy = false

/-- No operation is in progress anywhere in the block. -/
structure State.Quiet (s : State) : Prop where
  put : s.tx.pp.busy = false
  get : s.rx.cp.busy = false
  rxp : s.RxpQuiet
  txp : s.TxpQuiet

theorem State.Quiet.afterReset (s : State) (rest : List Turn) : (s.afterReset rest).Quiet :=
  ⟨rfl, rfl, ⟨rfl, rfl⟩, rfl, rfl⟩

/-- The terminal events of the transport (R17). -/
def TerminalEvent (i : Instr) : Prop :=
  (∃ n, i = .evInDone n) ∨ (∃ n, i = .evOutDone n) ∨ i = .evInError ∨ i = .evOutError

theorem TerminalEvent.side_eq {i : Instr} (h : TerminalEvent i) : i.side = .event := by
  rcases h with ⟨n, rfl⟩ | ⟨n, rfl⟩ | rfl | rfl <;> rfl

/-- A turn that could end an operation: a completion step or a terminal event. -/
def Turn.Ends (u : Turn) : Prop :=
  (∃ c, u.completion = some c) ∨ ∃ w i, u = .event w ∧ decode w = .ok i ∧ TerminalEvent i

section
variable {s : State} {rest : List Turn} (hq : s.Quiet)
include hq

/-- With every port idle a completion step passes (log 7). -/
theorem step_of_completion_quiet {u : Turn} {c : Completion} (ht : s.turns = u :: rest) (hc : u.completion = some c) :
    ∃ ok, step s = .next { s with turns := rest, answer := ok } := by
  have hu := congrArg List.head? ht
  cases u with
  | putEnd => exact ⟨s.answer, (StepTo.putEndPasses ht hq.put).step_eq_of_completion hu hc⟩
  | getEnd => exact ⟨s.answer, (StepTo.getEndPasses ht hq.get).step_eq_of_completion hu hc⟩
  | drainEnd ok => exact ⟨ok, (StepTo.drainEndPasses ht hq.rxp.2).step_eq_of_completion hu hc⟩
  | fetchEnd ok => exact ⟨ok, (StepTo.fetchEndPasses ht hq.txp.2).step_eq_of_completion hu hc⟩
  | command | event | reset => nomatch hc

/-- With both pumps `Idle` a terminal event is ignored (R159, R187). -/
theorem exec_terminal_quiet {i : Instr} (hi : TerminalEvent i) : exec i s = .next s := by
  have hrx : s.rxpListens = false := rxpListens_eq_false_iff.mpr (.inl hq.rxp.1)
  have htx : s.txpListens = false := txpListens_eq_false_iff.mpr (.inl hq.txp.1)
  rcases hi with ⟨n, rfl⟩ | ⟨n, rfl⟩ | rfl | rfl
  · exact (ExecTo.inDoneIgnored hrx).exec_eq rfl
  · exact (ExecTo.outDoneIgnored htx).exec_eq rfl
  · exact (ExecTo.inErrorIgnored hrx).exec_eq rfl
  · exact (ExecTo.outErrorIgnored htx).exec_eq rfl

theorem step_of_ends_quiet {u : Turn} (ht : s.turns = u :: rest) (hu : u.Ends) :
    ∃ ok, step s = .next { s with turns := rest, answer := ok } := by
  rcases hu with ⟨c, hc⟩ | ⟨w, i, rfl, hd, hi⟩
  · exact step_of_completion_quiet hq ht hc
  · have hafter : State.Quiet { s with turns := rest } := ⟨hq.put, hq.get, hq.rxp, hq.txp⟩
    exact ⟨s.answer, (step_of_event ht (decodeOn_eq_ok.mpr ⟨hd, hi.side_eq⟩)).trans (exec_terminal_quiet hafter hi)⟩

end

/-- Any number of turns that could end an operation change nothing where none is in progress. -/
theorem run_ends_quiet {us rest : List Turn} (hus : ∀ u ∈ us, u.Ends) {s : State} (ht : s.turns = us ++ rest)
    (hq : s.Quiet) : ∃ ok, Host.Core.run Sys2Proof.core us.length s = .next { s with turns := rest, answer := ok } := by
  induction us generalizing s with
  | nil =>
    obtain rfl : s.turns = rest := ht
    exact ⟨s.answer, rfl⟩
  | cons u us ih =>
    obtain ⟨hu, hus⟩ := List.forall_mem_cons.mp hus
    obtain ⟨first, hstep⟩ := step_of_ends_quiet hq ht hu
    obtain ⟨ok, hrun⟩ := ih hus (s := { s with turns := us ++ rest, answer := first }) rfl
      ⟨hq.put, hq.get, hq.rxp, hq.txp⟩
    exact ⟨ok, run_succ_of_step hstep hrun⟩

/-! ### Steps that begin an operation -/

section
variable {s t : State} {i : Instr}

theorem ExecTo.put_stays_idle (h : ExecTo s i t) (hi : ∀ len, i ≠ .rbPut len) (hb : s.tx.pp.busy = false) :
    t.tx.pp.busy = false := by
  cases h with
  | rbPut => exact absurd rfl (hi _)
  | _ => exact hb

theorem ExecTo.get_stays_idle (h : ExecTo s i t) (hi : ∀ len, i ≠ .rbGet len) (hb : s.rx.cp.busy = false) :
    t.rx.cp.busy = false := by
  cases h with
  | rbGet => exact absurd rfl (hi _)
  | _ => exact hb

/-- A delivery needs the pump posted (R154, R155), and `RXP_START` alone posts it (R151). -/
theorem ExecTo.rxp_stays_quiet (h : ExecTo s i t) (hi : i ≠ .rxpStart) (hq : s.RxpQuiet) : t.RxpQuiet := by
  cases h with
  | rxpStartArmed => exact absurd rfl hi
  | tickDelivers _ hs | inDoneDelivers _ hs => nomatch hq.1.symm.trans hs
  | rxpStopPosted | inErrorTaken => exact ⟨rfl, hq.2⟩
  | _ => exact hq

/-- A fetch needs the pump posted (R183) or `TXP_KICK` (R181). -/
theorem ExecTo.txp_stays_quiet (h : ExecTo s i t) (hi : i ≠ .txpKick) (hq : s.TxpQuiet) : t.TxpQuiet := by
  cases h with
  | txpKickIdle => exact absurd rfl hi
  | outDoneFetches _ hs => nomatch hq.1.symm.trans hs
  | outDoneReleases | outErrorReleases | outErrorTaken => exact ⟨rfl, hq.2⟩
  | _ => exact hq

theorem nextInstr_of_command {ok : Bool} {rest : List Turn} {c : Command} (ht : s.turns = .command ok :: rest)
    (hp : s.present.presented = some c) (hd : decodeOn .command c.word = .ok i) : s.nextInstr = some i :=
  nextInstr_eq_some.mpr (.inl ⟨ok, rest, c, ht, hp, hd⟩)

theorem nextInstr_of_event {w : Word} {rest : List Turn} (ht : s.turns = .event w :: rest)
    (hd : decodeOn .event w = .ok i) : s.nextInstr = some i :=
  nextInstr_eq_some.mpr (.inr ⟨w, rest, ht, hd⟩)

theorem StepTo.put_stays_idle (h : StepTo s t) (hi : ∀ len, s.nextInstr ≠ some (.rbPut len)) (hb : s.tx.pp.busy = false) :
    t.tx.pp.busy = false := by
  cases h with
  | command ht hp hd he =>
    exact he.put_stays_idle (fun len hput => hi len (hput ▸ nextInstr_of_command ht hp hd)) hb
  | event ht hd he => exact he.put_stays_idle (fun len hput => hi len (hput ▸ nextInstr_of_event ht hd)) hb
  | putEnd | reset => rfl
  | _ => exact hb

theorem StepTo.get_stays_idle (h : StepTo s t) (hi : ∀ len, s.nextInstr ≠ some (.rbGet len)) (hb : s.rx.cp.busy = false) :
    t.rx.cp.busy = false := by
  cases h with
  | command ht hp hd he =>
    exact he.get_stays_idle (fun len hget => hi len (hget ▸ nextInstr_of_command ht hp hd)) hb
  | event ht hd he => exact he.get_stays_idle (fun len hget => hi len (hget ▸ nextInstr_of_event ht hd)) hb
  | getEnd | reset => rfl
  | _ => exact hb

theorem StepTo.rxp_stays_quiet (h : StepTo s t) (hi : s.nextInstr ≠ some .rxpStart) (hq : s.RxpQuiet) : t.RxpQuiet := by
  cases h with
  | command ht hp hd he => exact he.rxp_stays_quiet (fun hstart => hi (hstart ▸ nextInstr_of_command ht hp hd)) hq
  | event ht hd he => exact he.rxp_stays_quiet (fun hstart => hi (hstart ▸ nextInstr_of_event ht hd)) hq
  | drainEnd _ hb => nomatch hq.2.symm.trans hb
  | reset => exact ⟨rfl, rfl⟩
  | _ => exact hq

theorem StepTo.txp_stays_quiet (h : StepTo s t) (hi : s.nextInstr ≠ some .txpKick) (hq : s.TxpQuiet) : t.TxpQuiet := by
  cases h with
  | command ht hp hd he => exact he.txp_stays_quiet (fun hkick => hi (hkick ▸ nextInstr_of_command ht hp hd)) hq
  | event ht hd he => exact he.txp_stays_quiet (fun hkick => hi (hkick ▸ nextInstr_of_event ht hd)) hq
  | fetchEndEmpty _ hb | fetchEnd _ hb => nomatch hq.2.symm.trans hb
  | reset => exact ⟨rfl, rfl⟩
  | _ => exact hq

end

/-- What every step keeps that meets a condition, a run keeps whose steps all meet it. -/
theorem run_keeps {P allowed : State → Prop} (hkeep : ∀ u v, StepTo u v → allowed u → P u → P v) {k : Nat} {s t : State}
    (hrun : Host.Core.run Sys2Proof.core k s = .next t)
    (hallowed : ∀ j u, j < k → Host.Core.run Sys2Proof.core j s = .next u → allowed u) (h : P s) : P t := by
  induction k generalizing s with
  | zero =>
    cases hrun
    exact h
  | succ k ih =>
    obtain ⟨u, hstep, hrest⟩ := run_succ_next hrun
    have hu : P u := hkeep s u (step_to hstep) (hallowed 0 s (Nat.succ_pos k) rfl) h
    exact ih hrest (fun j v hj hv => hallowed (j + 1) v (Nat.succ_lt_succ hj) (run_succ_of_step hstep hv)) hu

/-- Settles O13: after `RESET` the block is quiet, so what would end an operation passes, and each part stays quiet along a run
until the instruction that begins its operation. -/
theorem resetCancelsOperationsInProgress : Obligations.ResetCancelsOperationsInProgress := by
  intro s t us rest ht hstep
  obtain rfl : s.afterReset (us ++ rest) = t := Host.Outcome.next.inj ((step_of_reset ht).symm.trans hstep)
  have hq := State.Quiet.afterReset s (us ++ rest)
  refine ⟨rfl, rfl, fun hus => ?_,
    fun k v hrun => ⟨fun hnever => ?_, fun hnever => ?_, fun hnever => ?_, fun hnever => ?_⟩⟩
  · obtain ⟨ok, hends⟩ := run_ends_quiet hus rfl hq
    exact ⟨_, hends, rfl⟩
  · exact run_keeps (fun _ _ => StepTo.put_stays_idle) hrun (fun j u hj hu len => hnever len j u hj hu) hq.put
  · exact run_keeps (fun _ _ => StepTo.get_stays_idle) hrun (fun j u hj hu len => hnever len j u hj hu) hq.get
  · exact run_keeps (fun _ _ => StepTo.rxp_stays_quiet) hrun hnever hq.rxp
  · exact run_keeps (fun _ _ => StepTo.txp_stays_quiet) hrun hnever hq.txp

end Sys2Proof.Machine
end

section
/-! The words of 95_test_vectors.md section 2.1: a legal word is the encoder's word of its operation, and an illegal one is refused
for the field that makes it illegal (30_encoding.md R92, R96, R100). -/

namespace Sys2Proof

variable {w : Word}

theorem decode_of_encode_eq {i : Instr} (hwf : i.wf = true) (hw : encode i = w) : decode w = .ok i :=
  hw ▸ decodeAfterEncodeIsIdentity i hwf

/-! ### The reason an illegal word is refused for -/

theorem decode_ring_of_rsv (hc : clsField w = 0x1#4) (hr : rsvField w ≠ 0x0#4) : decode w = .error .rsv :=
  (decode_of_ring hc).trans (if_pos hr)

theorem decode_rbPut_of_unit (hc : clsField w = 0x1#4) (hr : rsvField w = 0x0#4) (hf : fnField w = 0x0#4)
    (hu : unitField w ≠ 0x1#4) : decode w = .error .unit := by
  rw [decode_of_ring hc]
  simp [decodeRing, hr, hf, hu]

theorem decode_regRead_of_arg (hc : clsField w = 0x4#4) (hr : rsvField w = 0x0#4) (hf : fnField w = 0x0#4)
    (hu : unitField w = 0x0#4) (ha : 256 ≤ argField w) : decode w = .error .arg := by
  rw [decode_of_system hc]
  simp [decodeSystem, hr, hf, hu, ha]

/-- Settles O1: each legal word is the one its operation encodes to; each illegal word has the field its reason names. -/
theorem decoderReadsTheSpecsWords : Obligations.DecoderReadsTheSpecsWords := by
  refine ⟨?_, ?_, ?_, ?_, ?_, ?_, ?_, ?_, ?_, ?_, ?_, ?cls, ?unit, ?rsv, ?arg⟩
  case cls => exact decode_of_unusedClass (.inl rfl)
  case unit => exact decode_rbPut_of_unit rfl rfl rfl (by decide)
  case rsv => exact decode_ring_of_rsv rfl (by decide)
  case arg => exact decode_regRead_of_arg rfl rfl rfl rfl (by decide)
  all_goals exact decode_of_encode_eq rfl rfl

end Sys2Proof
end
